-- ==== Sys2Proof/Word.lean ====
section
/-! DEFINITION. The byte and the frame (00_scope.md R8, R9): the only words the wire carries. -/

namespace Sys2Proof

/-- A byte, an integer in [0, 255] with bit 7 the most significant (R8). -/
abbrev Byte := BitVec 8

/-- A frame: a finite list of bytes, the first on the wire at index 0 (R9). -/
abbrev Frame := List Byte

end Sys2Proof
end

