-- ==== Sys2Proof/Config.lean ====
section
/-! DEFINITION. The parameters of the hardware (00_scope.md R6, R7; 10_state.md R21), as one record of plain data that State
carries, so that every statement about a state is about every configuration. -/

namespace Sys2Proof

/-- The values a wire-address byte can tell apart (R76): the room of the per-address registers, whatever `Config.nAddr` is
(log entry 6). -/
abbrev addrSpace : Nat := 256

/-- A motor address index (R8, R13). A build has those below its `Config.nAddr`, `[0, 15]` by R6. -/
abbrev Index := Fin addrSpace

/-- How a read's payload is cut and read: the payload length `L`, and whether the big-endian value is two's complement (R6,
"read payload lengths and signedness"; R82). -/
structure ReadShape where
  len : Nat
  signed : Bool
  deriving DecidableEq, Repr

/-- What a submission at a busy port gives (R6, 41_dispatcher.md R144). -/
inductive OverlapPolicy where
  | fault
  | busy
  deriving DecidableEq, Repr

/-- Which position a disabled-to-enabled transition captures (R6, 43_driver_motion.md R183). -/
inductive OffsetCapture where
  | logical
  | raw
  deriving DecidableEq, Repr

/-- The baud rates a transport is opened at (R6, 70_reset_and_hazards.md R251). No rule depends on the choice. -/
inductive Baud where
  | b9600
  | b19200
  | b25000
  | b38400
  | b57600
  | b115200
  deriving DecidableEq, Repr

/-- The line format of R6. No rule depends on it. -/
structure UartFormat where
  dataBits : Nat := 8
  stopBits : Nat := 1
  parity : Bool := false
  handshake : Bool := false
  deriving DecidableEq, Repr

/-- The configuration record `cfg` (R6, R21). A default here is the value the spec gives; the fields without one are OPEN. -/
structure Config where
  /-- The number of motor address indices (R6). -/
  nAddr : Nat := 16
  /-- Wire address of index 0 (R6, R76). -/
  baseAddr : Byte := 0xE0#8
  /-- The command bytes (R82). Only 0x36 is the source's; the others are PRESUMED defaults (log entry 2). -/
  cmdReadPosition : Byte := 0x36#8
  cmdReadEncoder : Byte := 0x30#8
  cmdReadPulses : Byte := 0x33#8
  cmdReadAngleError : Byte := 0x39#8
  cmdReadDriverState : Byte := 0x3A#8
  cmdReadBlockFlag : Byte := 0x3E#8
  cmdSetEnable : Byte := 0xF3#8
  cmdStart : Byte := 0xF6#8
  cmdStop : Byte := 0xF7#8
  cmdMovePulses : Byte := 0xFD#8
  cmdRtzSetPoint : Byte := 0x91#8
  cmdRtzMode : Byte := 0x90#8
  cmdRtzSpeed : Byte := 0x92#8
  cmdRtzDirection : Byte := 0x93#8
  cmdRtzGoto : Byte := 0x94#8
  cmdCalibrate : Byte := 0x80#8
  /-- The value bytes of the actions (R81), PRESUMED defaults (log entry 2). -/
  enOn : Byte := 0x01#8
  enOff : Byte := 0x00#8
  rtzModeDir : Byte := 0x01#8
  rtzModeNear : Byte := 0x02#8
  rtzDirFwd : Byte := 0x00#8
  rtzDirRev : Byte := 0x01#8
  actionArg : Byte := 0x00#8
  /-- The success status byte (R6). -/
  statusOk : Byte := 1#8
  /-- The largest speed magnitude in a speed/direction byte (R6). -/
  speedMax : Nat := 127
  /-- The largest logical return-to-zero speed (R6). -/
  rtzSpeedMax : Nat := 4
  /-- Raw-position reads before an enable (R6, R182). -/
  enableAttempts : Nat := 10
  /-- The threshold of `fixOverflow` (R6, R111). -/
  overflowThreshold : Nat := 2147483647
  /-- The reads' payload lengths and signedness (R6, R82). -/
  shapePosition : ReadShape := ⟨4, false⟩
  shapeEncoder : ReadShape := ⟨2, false⟩
  shapePulses : ReadShape := ⟨4, true⟩
  shapeAngleError : ReadShape := ⟨2, true⟩
  shapeDriverState : ReadShape := ⟨1, false⟩
  shapeBlockFlag : ReadShape := ⟨1, false⟩
  /-- The interval between polls in ticks (R6, R136, log entry 7). -/
  pollTick : Nat := 1
  /-- Clear the receive slot before a request is written (R6, R133). -/
  clearBeforeSend : Bool := true
  /-- The answer at a busy port (R6, R144). -/
  overlapPolicy : OverlapPolicy := .fault
  /-- The offset a transition captures (R6, R183). -/
  offsetCapture : OffsetCapture := .logical
  /-- The width of the offset in a fixed-width build; `none` is the unbounded integer (R6, D20, U26). -/
  offsetWidth : Option Nat := none
  /-- OPEN: ticks between the write and the first poll (R6, D3). -/
  settleTicks : Nat
  /-- OPEN: the default response timeout in ticks (R6, D4). -/
  tDefault : Nat
  /-- OPEN: the long timeouts (R6, D5, R142). -/
  tCalibrate : Nat
  tRtzGoto : Nat
  tRtzSetPoint : Nat
  /-- OPEN: selected at open (R6). -/
  baud : Baud
  /-- 8N1 without handshake (R6). -/
  uartFormat : UartFormat := {}
  deriving DecidableEq, Repr

/-- The address index is one of the build's: below `nAddr` (R6, R8). -/
def Config.hasIndex (cfg : Config) (a : Index) : Bool :=
  decide (a.val < cfg.nAddr)

/-- The configuration `State.reset` carries: the spec's values, and for the OPEN parameters the values 95_test_vectors.md
uses in its conventions. DESIGN CHOICE, unsafe (log entry 1): the spec leaves the OPEN ones to the build. -/
def Config.standard : Config :=
  { settleTicks := 2, tDefault := 10, tCalibrate := 500, tRtzGoto := 500, tRtzSetPoint := 500, baud := .b9600 }

end Sys2Proof
end

