-- ==== Sys2Proof/Syntax.lean ====
section
/-! DEFINITION. The sixteen host operations (30_encoding.md R82), the rows of the opcode table they stand in, and the descriptor a
caller submits (R84, R86). -/

namespace Sys2Proof

/-- A direction, `fwd` or `rev` (R86). -/
inductive Direction where
  | fwd
  | rev
  deriving DecidableEq, Repr

/-- The return-to-zero approach mode, `dir` or `near` (R201). -/
inductive RtzApproach where
  | dir
  | near
  deriving DecidableEq, Repr

/-- The host operations, one constructor per row of opcode_table.json (R82), with the operands of R86. A speed and a pulse
count are integers: a value out of range is an operation too, and aborts (R184, R186) or is clamped (R202). -/
inductive Instr where
  | readPosition (a : Index)
  | readEncoder (a : Index)
  | readPulses (a : Index)
  | readAngleError (a : Index)
  | readDriverState (a : Index)
  | readBlockFlag (a : Index)
  | setEnable (a : Index) (e : Bool)
  | start (a : Index) (dir : Direction) (speed : Int)
  | stop (a : Index)
  | movePulses (a : Index) (dir : Direction) (speed : Int) (pulses : Int)
  | rtzSetPoint (a : Index)
  | rtzMode (a : Index) (m : RtzApproach)
  | rtzSpeed (a : Index) (speed : Int)
  | rtzDirection (a : Index) (dir : Direction)
  | rtzGoto (a : Index)
  | calibrate (a : Index)
  deriving DecidableEq, Repr

/-- A row of the opcode table (R82). -/
inductive Row where
  | readPosition
  | readEncoder
  | readPulses
  | readAngleError
  | readDriverState
  | readBlockFlag
  | setEnable
  | start
  | stop
  | movePulses
  | rtzSetPoint
  | rtzMode
  | rtzSpeed
  | rtzDirection
  | rtzGoto
  | calibrate
  deriving DecidableEq, Repr

/-- The rows in the order of R82. -/
def Row.all : List Row :=
  [.readPosition, .readEncoder, .readPulses, .readAngleError, .readDriverState, .readBlockFlag, .setEnable, .start,
   .stop, .movePulses, .rtzSetPoint, .rtzMode, .rtzSpeed, .rtzDirection, .rtzGoto, .calibrate]

/-- The row an operation stands in. -/
def Instr.row : Instr → Row
  | .readPosition _ => .readPosition
  | .readEncoder _ => .readEncoder
  | .readPulses _ => .readPulses
  | .readAngleError _ => .readAngleError
  | .readDriverState _ => .readDriverState
  | .readBlockFlag _ => .readBlockFlag
  | .setEnable _ _ => .setEnable
  | .start _ _ _ => .start
  | .stop _ => .stop
  | .movePulses _ _ _ _ => .movePulses
  | .rtzSetPoint _ => .rtzSetPoint
  | .rtzMode _ _ => .rtzMode
  | .rtzSpeed _ _ => .rtzSpeed
  | .rtzDirection _ _ => .rtzDirection
  | .rtzGoto _ => .rtzGoto
  | .calibrate _ => .calibrate

/-- The address index an operation acts on. -/
def Instr.index : Instr → Index
  | .readPosition a => a
  | .readEncoder a => a
  | .readPulses a => a
  | .readAngleError a => a
  | .readDriverState a => a
  | .readBlockFlag a => a
  | .setEnable a _ => a
  | .start a _ _ => a
  | .stop a => a
  | .movePulses a _ _ _ => a
  | .rtzSetPoint a => a
  | .rtzMode a _ => a
  | .rtzSpeed a _ => a
  | .rtzDirection a _ => a
  | .rtzGoto a => a
  | .calibrate a => a

/-- The name in a descriptor (R86): a row's mnemonic, one of the four pseudo-operations, or a name that names neither. -/
inductive CallName where
  | op (r : Row)
  | enable
  | disable
  | configRtzDir
  | configRtzNear
  | unknown (n : Nat)
  deriving DecidableEq, Repr

/-- An argument in a descriptor (R86): an integer, one of the four words, or a word that is none of them. -/
inductive Arg where
  | int (v : Int)
  | fwd
  | rev
  | dir
  | near
  | unknown (n : Nat)
  deriving DecidableEq, Repr

/-- A host-operation descriptor as a caller submits it: a name and its arguments, the address index first (R86, R229).
Nothing is checked yet. -/
structure Descriptor where
  name : CallName
  args : List Arg
  deriving DecidableEq, Repr

end Sys2Proof
end

