-- ==== Sys2Proof/WellFormed.lean ====
section
/-! DEFINITION. Which operations have a request frame of their own (30_encoding.md R79, R80, R78), and what the spec asks of a
configuration (00_scope.md R6, 30_encoding.md R82, 41_dispatcher.md R142). -/

namespace Sys2Proof

/-- A speed that a speed/direction byte can carry (R79, R112). -/
def speedInRange (cfg : Config) (speed : Int) : Bool :=
  decide (0 ≤ speed) && decide (speed ≤ cfg.speedMax)

/-- A pulse count that four bytes can carry (R78, R186). -/
def pulsesInRange (pulses : Int) : Bool :=
  decide (0 ≤ pulses) && decide (pulses ≤ 4294967295)

/-- A logical return-to-zero speed that the wire byte tells apart from every other (R80, R202). -/
def rtzSpeedInRange (cfg : Config) (speed : Int) : Bool :=
  decide (0 ≤ speed) && decide (speed ≤ cfg.rtzSpeedMax)

/-- The operands after the address index are all carried by the request frame: none is out of range, and none is clamped. -/
def Instr.operandsInRange (cfg : Config) : Instr → Bool
  | .start _ _ speed => speedInRange cfg speed
  | .movePulses _ _ speed pulses => speedInRange cfg speed && pulsesInRange pulses
  | .rtzSpeed _ speed => rtzSpeedInRange cfg speed
  | .readPosition _ | .readEncoder _ | .readPulses _ | .readAngleError _ | .readDriverState _ | .readBlockFlag _
  | .setEnable _ _ | .stop _ | .rtzSetPoint _ | .rtzMode _ _ | .rtzDirection _ _ | .rtzGoto _ | .calibrate _ => true

/-- The operation's operands are all carried by its request frame, and its index is one of the build's (R76, R84). -/
def Instr.wellFormed (cfg : Config) (i : Instr) : Bool :=
  cfg.hasIndex i.index && i.operandsInRange cfg

/-- The command byte of a row (R82). -/
def Config.cmdByte (cfg : Config) : Row → Byte
  | .readPosition => cfg.cmdReadPosition
  | .readEncoder => cfg.cmdReadEncoder
  | .readPulses => cfg.cmdReadPulses
  | .readAngleError => cfg.cmdReadAngleError
  | .readDriverState => cfg.cmdReadDriverState
  | .readBlockFlag => cfg.cmdReadBlockFlag
  | .setEnable => cfg.cmdSetEnable
  | .start => cfg.cmdStart
  | .stop => cfg.cmdStop
  | .movePulses => cfg.cmdMovePulses
  | .rtzSetPoint => cfg.cmdRtzSetPoint
  | .rtzMode => cfg.cmdRtzMode
  | .rtzSpeed => cfg.cmdRtzSpeed
  | .rtzDirection => cfg.cmdRtzDirection
  | .rtzGoto => cfg.cmdRtzGoto
  | .calibrate => cfg.cmdCalibrate

/-- The sixteen command bytes are pairwise distinct (R82). -/
def Config.commandsDistinct (cfg : Config) : Bool :=
  decide (Row.all.map cfg.cmdByte).Nodup

/-- What the frame formats need of the parameters: a wire address in a byte for every index (R76), a speed in seven bits (R79), a
return-to-zero speed in a byte (R80), distinct commands (R82) and value bytes that tell their operands apart (R81). -/
def Config.encodable (cfg : Config) : Bool :=
  decide (cfg.baseAddr.toNat + cfg.nAddr ≤ 256) && decide (cfg.speedMax ≤ 127) && decide (cfg.rtzSpeedMax ≤ 255)
    && cfg.commandsDistinct && decide (cfg.enOn ≠ cfg.enOff) && decide (cfg.rtzModeDir ≠ cfg.rtzModeNear)
    && decide (cfg.rtzDirFwd ≠ cfg.rtzDirRev)

/-- What the rules ask of a configuration: it is encodable, the long timeouts are at least the default one (R142), an enable
reads at least once (R182) and a poll interval is at least one tick (R136). -/
def Config.wf (cfg : Config) : Bool :=
  cfg.encodable && decide (cfg.tDefault ≤ cfg.tCalibrate) && decide (cfg.tDefault ≤ cfg.tRtzGoto)
    && decide (cfg.tDefault ≤ cfg.tRtzSetPoint) && decide (1 ≤ cfg.enableAttempts) && decide (1 ≤ cfg.pollTick)

end Sys2Proof
end

