-- ==== Sys2Proof/Machine/Codec.lean ====
section
/-! DEFINITION. The frame codec (40_codec.md R119): pure functions of their operands and the configuration. Checksum, frame
builders, big-endian lists and the correlation predicate. -/

namespace Sys2Proof.Machine

/-- The sum of a list of bytes as an exact number (40_codec.md R100). -/
def byteSum (bs : List Byte) : Nat :=
  (bs.map BitVec.toNat).sum

/-- `checksum(bs)`: the exact sum reduced once modulo 256 (R100, R77). -/
def checksum (bs : List Byte) : Byte :=
  BitVec.ofNat 8 (byteSum bs % 256)

/-- `appendChecksum(f)` (R101). -/
def appendChecksum (f : Frame) : Frame :=
  f ++ [checksum f]

/-- `verifyChecksum(f)`: false for fewer than two bytes, otherwise the last byte is the checksum of the others (R102). -/
def verifyChecksum (f : Frame) : Bool :=
  decide (2 ≤ f.length) && decide (f.getLast? = some (checksum f.dropLast))

/-- `BE16(v)` (00_scope.md R9). -/
def be16 (v : Nat) : List Byte :=
  [BitVec.ofNat 8 (v / 256), BitVec.ofNat 8 v]

/-- `BE32(v)` (R9). -/
def be32 (v : Nat) : List Byte :=
  [BitVec.ofNat 8 (v / 16777216), BitVec.ofNat 8 (v / 65536), BitVec.ofNat 8 (v / 256), BitVec.ofNat 8 v]

/-- The big-endian integer `Σ P[i]·256^(L−1−i)` of a payload (30_encoding.md R78, 20_memory.md R51). -/
def beNat (p : List Byte) : Nat :=
  p.foldl (fun acc b => acc * 256 + b.toNat) 0

/-- `sext_N(v)`: an N-bit pattern read as two's complement (R8). -/
def sext (n : Nat) (v : Nat) : Int :=
  if 2 * v < 2 ^ n then (v : Int) else (v : Int) - 2 ^ n

/-- `W(a)`, the wire address of index `a` (40_codec.md R115, R76). -/
def wireAddr (cfg : Config) (a : Index) : Byte :=
  cfg.baseAddr + BitVec.ofNat 8 a.val

/-- The index an address byte belongs to, if any: `A − baseAddr` for `baseAddr ≤ A ≤ baseAddr + nAddr − 1` (R76). -/
def addrIndex (cfg : Config) (A : Byte) : Option Index :=
  if cfg.baseAddr.toNat ≤ A.toNat ∧ A.toNat - cfg.baseAddr.toNat < cfg.nAddr then
    some ⟨A.toNat - cfg.baseAddr.toNat, Nat.lt_of_le_of_lt (Nat.sub_le _ _) A.isLt⟩
  else none

/-- `buildF2(a, cmd)` (R103, R71). -/
def buildF2 (cfg : Config) (a : Index) (cmd : Byte) : Frame :=
  [wireAddr cfg a, cmd]

/-- `buildF3(a, cmd, v)` (R104, R72). -/
def buildF3 (cfg : Config) (a : Index) (cmd v : Byte) : Frame :=
  [wireAddr cfg a, cmd, v]

/-- `buildF4(a, cmd, v)` for `v < 2^16` (R105, R73). No host operation uses it. -/
def buildF4 (cfg : Config) (a : Index) (cmd : Byte) (v : Nat) : Frame :=
  [wireAddr cfg a, cmd] ++ be16 v

/-- `buildF7(a, cmd, s, p)` for `p < 2^32` (R106, R74). -/
def buildF7 (cfg : Config) (a : Index) (cmd s : Byte) (p : Nat) : Frame :=
  [wireAddr cfg a, cmd, s] ++ be32 p

/-- `matches(f, a)`: at least two bytes, the first the wire address of `a` (R116). -/
def matchesIndex (cfg : Config) (f : Frame) (a : Index) : Bool :=
  decide (2 ≤ f.length) && decide (f.head? = some (wireAddr cfg a))

end Sys2Proof.Machine
end

