-- ==== Sys2Proof/Machine/Operands.lean ====
section
/-! DEFINITION. Every operand form: the value a request carries (41_dispatcher.md R130), the value bytes of the actions
(30_encoding.md R79 to R81), the timeouts (41_dispatcher.md R142) and the reading of a response payload (40_codec.md R107 to
R111, 42_reads.md R168). -/

namespace Sys2Proof.Machine

/-- The value of a request: none, one byte, two bytes, or a speed byte with a pulse count (R130). -/
inductive Val where
  | none
  | v1 (b : Byte)
  | v2 (v : Nat)
  | v7 (s : Byte) (p : Nat)
  deriving DecidableEq, Repr

/-- What `Send` is asked to do: the command byte, the value, the timeout (R130). -/
structure Request where
  cmd : Byte
  val : Val
  timeout : Nat
  deriving DecidableEq, Repr

/-- The frame of a request before its checksum (R130, R103 to R106). -/
def requestBody (cfg : Config) (a : Index) (cmd : Byte) (val : Val) : Frame :=
  match val with
  | .none => buildF2 cfg a cmd
  | .v1 b => buildF3 cfg a cmd b
  | .v2 v => buildF4 cfg a cmd v
  | .v7 s p => buildF7 cfg a cmd s p

/-- The frame of a request as it goes on the wire (R131). -/
def requestFrame (cfg : Config) (a : Index) (cmd : Byte) (val : Val) : Frame :=
  appendChecksum (requestBody cfg a cmd val)

/-- The speed/direction byte: bit 7 set for reverse, the magnitude below (R79, R112). -/
def speedByte (speed : Int) (forward : Bool) : Byte :=
  BitVec.ofInt 8 ((if forward then 0 else 128) + speed)

/-- `encodeSpeed(speed, forward)`; `none` is `OutOfRange` (R112). -/
def encodeSpeed (cfg : Config) (speed : Int) (forward : Bool) : Option Byte :=
  if speedInRange cfg speed then some (speedByte speed forward) else none

/-- `decodeSpeedByte(s)`: the magnitude in bits 6..0 and forward when bit 7 is 0 (R113). -/
def decodeSpeedByte (s : Byte) : Nat × Bool :=
  (s.toNat % 128, decide (s.toNat / 128 = 0))

/-- `clamp(x, lo, hi)` (R114). -/
def clamp (x lo hi : Int) : Int :=
  min (max x lo) hi

/-- `rtzSpeedWire(speed)` (R114, R80). -/
def rtzSpeedWire (cfg : Config) (speed : Int) : Byte :=
  BitVec.ofInt 8 (cfg.rtzSpeedMax - clamp speed 0 cfg.rtzSpeedMax)

/-- Forward is the direction whose bit 7 is 0 (R79). -/
def isForward : Direction → Bool
  | .fwd => true
  | .rev => false

/-- `EN_ON` or `EN_OFF` (R81, R181). -/
def enableByte (cfg : Config) (e : Bool) : Byte :=
  if e then cfg.enOn else cfg.enOff

/-- `RTZ_MODE_DIR` or `RTZ_MODE_NEAR` (R81, R201). -/
def rtzModeByte (cfg : Config) : RtzApproach → Byte
  | .dir => cfg.rtzModeDir
  | .near => cfg.rtzModeNear

/-- `RTZ_DIR_FWD` or `RTZ_DIR_REV` (R81, R203). -/
def rtzDirByte (cfg : Config) : Direction → Byte
  | .fwd => cfg.rtzDirFwd
  | .rev => cfg.rtzDirRev

/-- The timeout of a row's own command (R142, R82). -/
def rowTimeout (cfg : Config) : Row → Nat
  | .calibrate => cfg.tCalibrate
  | .rtzGoto => cfg.tRtzGoto
  | .rtzSetPoint => cfg.tRtzSetPoint
  | .readPosition | .readEncoder | .readPulses | .readAngleError | .readDriverState | .readBlockFlag | .setEnable
  | .start | .stop | .movePulses | .rtzMode | .rtzSpeed | .rtzDirection => cfg.tDefault

/-- The request of a row with a given value, the command and the timeout the row's (R82). -/
def rowRequest (cfg : Config) (r : Row) (val : Val) : Request :=
  ⟨cfg.cmdByte r, val, rowTimeout cfg r⟩

/-- The payload of `Frame(g)`: the bytes after the address byte (42_reads.md R168, 43_driver_motion.md R180). -/
def payloadOf (g : Frame) : List Byte :=
  g.drop 1

/-- The payload cut to `L` bytes, or `none` when it is shorter (R168). -/
def cutPayload (len : Nat) (g : Frame) : Option (List Byte) :=
  if (payloadOf g).length < len then none else some ((payloadOf g).take len)

/-- `decodeU16(p)` of two bytes (R107). -/
def decodeU16 (p : List Byte) : Nat := beNat p

/-- `decodeS16(p)` of two bytes (R108). -/
def decodeS16 (p : List Byte) : Int := sext 16 (decodeU16 p)

/-- `decodeU32(p)` of four bytes (R109). -/
def decodeU32 (p : List Byte) : Nat := beNat p

/-- `decodeS32(p)` of four bytes (R110). -/
def decodeS32 (p : List Byte) : Int := sext 32 (decodeU32 p)

/-- `fixOverflow(u)` (R111). -/
def fixOverflow (cfg : Config) (u : Nat) : Int :=
  if cfg.overflowThreshold < u then (u : Int) - 4294967296 else (u : Int)

/-- The value of a cut payload under a read's shape: the big-endian value, two's complement if the shape is signed. The spec gives
it for two and four bytes (R78, R107 to R110) and for one unsigned byte, the raw byte (R165, R166); any other shape is read by the
same formula. DESIGN CHOICE (log entry 22). -/
def decodeShape (sh : ReadShape) (p : List Byte) : Int :=
  if sh.signed then sext (8 * sh.len) (beNat p) else (beNat p : Int)

/-- The raw position of a position payload: `fixOverflow(decodeU32(p))` (R161, R167). The spec gives it for four unsigned bytes
(R6, R109); for another length the big-endian value of the payload stands for `decodeU32`, and for a signed shape its two's
complement value is the raw position. DESIGN CHOICE (log entry 21). -/
def rawOfPayload (cfg : Config) (p : List Byte) : Int :=
  if cfg.shapePosition.signed then decodeShape cfg.shapePosition p else fixOverflow cfg (decodeU32 p)

/-- `captureOffset(raw, old)` (43_driver_motion.md R183). -/
def captureOffset (cfg : Config) (raw old : Int) : Int :=
  match cfg.offsetCapture with
  | .logical => raw + old
  | .raw => raw

/-- The value fits the offset's width: always in an unbounded build (D20), otherwise in two's complement of the width
(U26, log entry 8). -/
def fitsOffset (cfg : Config) (v : Int) : Bool :=
  match cfg.offsetWidth with
  | none => true
  | some w => decide (-(2 ^ w : Int) ≤ 2 * v) && decide (2 * v < (2 ^ w : Int))

end Sys2Proof.Machine
end

