-- ==== Sys2Proof/Decode.lean ====
section
/-! DEFINITION. The decoder of request frames and, after it, the encoder (30_encoding.md R70 to R85). The engine never decodes a
frame (R84); the decoder says which operation a request frame on the wire carries. -/

namespace Sys2Proof

open Machine

/-- Why bytes are no request frame. -/
inductive DecodeReject where
  /-- Fewer bytes than an address and a command, or than the command's value (R71 to R74). -/
  | tooShort
  /-- Byte 0 is the wire address of no index (R76). -/
  | noSuchAddress
  /-- Byte 1 is the command of no row (R84). -/
  | noSuchCommand
  /-- The value bytes are none the operation sends (R79 to R81). -/
  | badValue
  /-- The last byte is not the checksum (R77). -/
  | badChecksum
  /-- Bytes are left over before the checksum (R85). -/
  | tooLong
  deriving DecidableEq, Repr

/-- The row whose command byte is `C` (R82). -/
def rowOfCommand (cfg : Config) (C : Byte) : Option Row :=
  Row.all.find? (fun r => cfg.cmdByte r == C)

/-- The direction of a speed/direction byte (R79, R113). -/
def directionOf (s : Byte) : Direction :=
  if (decodeSpeedByte s).2 then .fwd else .rev

/-- The magnitude of a speed/direction byte, or a refusal above `speedMax` (R79, R113). -/
def magnitudeOf (cfg : Config) (s : Byte) : Except DecodeReject Int :=
  if (decodeSpeedByte s).1 ≤ cfg.speedMax then .ok ((decodeSpeedByte s).1 : Int) else .error .badValue

/-- One value byte and the rest, or a refusal (R72). -/
def takeByte : List Byte → Except DecodeReject (Byte × List Byte)
  | [] => .error .tooShort
  | b :: rest => .ok (b, rest)

/-- Four value bytes as a big-endian count and the rest, or a refusal (R74). -/
def takeCount : List Byte → Except DecodeReject (Nat × List Byte)
  | p3 :: p2 :: p1 :: p0 :: rest => .ok (beNat [p3, p2, p1, p0], rest)
  | _ => .error .tooShort

/-- The enable value byte (R81, R181). -/
def decodeEnable (cfg : Config) (v : Byte) : Except DecodeReject Bool :=
  if v = cfg.enOn then .ok true else if v = cfg.enOff then .ok false else .error .badValue

/-- The return-to-zero mode byte (R81, R201). -/
def decodeMode (cfg : Config) (v : Byte) : Except DecodeReject RtzApproach :=
  if v = cfg.rtzModeDir then .ok .dir else if v = cfg.rtzModeNear then .ok .near else .error .badValue

/-- The return-to-zero direction byte (R81, R203). -/
def decodeDir (cfg : Config) (v : Byte) : Except DecodeReject Direction :=
  if v = cfg.rtzDirFwd then .ok .fwd else if v = cfg.rtzDirRev then .ok .rev else .error .badValue

/-- The logical return-to-zero speed of a wire byte (R80). -/
def decodeRtzSpeed (cfg : Config) (v : Byte) : Except DecodeReject Int :=
  if v.toNat ≤ cfg.rtzSpeedMax then .ok ((cfg.rtzSpeedMax : Int) - v.toNat) else .error .badValue

/-- The value byte of the three operations that carry `ACTION_ARG` (R81). -/
def decodeArg (cfg : Config) (v : Byte) : Except DecodeReject Unit :=
  if v = cfg.actionArg then .ok () else .error .badValue

/-- The operation of a row from the bytes after the command, with the bytes it leaves (R82, format and value columns). -/
def decodeRow (cfg : Config) (a : Index) (rest : List Byte) : Row → Except DecodeReject (Instr × List Byte)
  | .readPosition => .ok (.readPosition a, rest)
  | .readEncoder => .ok (.readEncoder a, rest)
  | .readPulses => .ok (.readPulses a, rest)
  | .readAngleError => .ok (.readAngleError a, rest)
  | .readDriverState => .ok (.readDriverState a, rest)
  | .readBlockFlag => .ok (.readBlockFlag a, rest)
  | .setEnable => do
      let (v, rest) ← takeByte rest
      let e ← decodeEnable cfg v
      .ok (.setEnable a e, rest)
  | .start => do
      let (s, rest) ← takeByte rest
      let speed ← magnitudeOf cfg s
      .ok (.start a (directionOf s) speed, rest)
  | .stop => .ok (.stop a, rest)
  | .movePulses => do
      let (s, rest) ← takeByte rest
      let speed ← magnitudeOf cfg s
      let (p, rest) ← takeCount rest
      .ok (.movePulses a (directionOf s) speed p, rest)
  | .rtzSetPoint => do
      let (v, rest) ← takeByte rest
      decodeArg cfg v
      .ok (.rtzSetPoint a, rest)
  | .rtzMode => do
      let (v, rest) ← takeByte rest
      let m ← decodeMode cfg v
      .ok (.rtzMode a m, rest)
  | .rtzSpeed => do
      let (v, rest) ← takeByte rest
      let speed ← decodeRtzSpeed cfg v
      .ok (.rtzSpeed a speed, rest)
  | .rtzDirection => do
      let (v, rest) ← takeByte rest
      let d ← decodeDir cfg v
      .ok (.rtzDirection a d, rest)
  | .rtzGoto => do
      let (v, rest) ← takeByte rest
      decodeArg cfg v
      .ok (.rtzGoto a, rest)
  | .calibrate => do
      let (v, rest) ← takeByte rest
      decodeArg cfg v
      .ok (.calibrate a, rest)

/-- The operation at the head of a list of bytes without its checksum, with the bytes it leaves; total on any bytes. -/
def decodeBody (cfg : Config) : List Byte → Except DecodeReject (Instr × List Byte)
  | A :: C :: rest =>
    match addrIndex cfg A with
    | none => .error .noSuchAddress
    | some a =>
      match rowOfCommand cfg C with
      | none => .error .noSuchCommand
      | some r => decodeRow cfg a rest r
  | _ => .error .tooShort

/-- The operation a whole request frame carries: its checksum holds and nothing is left over (R77, R85). -/
def decodeFrame (cfg : Config) (f : Frame) : Except DecodeReject Instr :=
  if verifyChecksum f then
    match decodeBody cfg f.dropLast with
    | .error r => .error r
    | .ok (i, []) => .ok i
    | .ok (_, _ :: _) => .error .tooLong
  else .error .badChecksum

/-- The value an operation's own command carries, from the encoding of R82. -/
def Instr.value (cfg : Config) : Instr → Val
  | .readPosition _ | .readEncoder _ | .readPulses _ | .readAngleError _ | .readDriverState _ | .readBlockFlag _
  | .stop _ => .none
  | .setEnable _ e => .v1 (enableByte cfg e)
  | .start _ d speed => .v1 (speedByte speed (isForward d))
  | .movePulses _ d speed pulses => .v7 (speedByte speed (isForward d)) pulses.toNat
  | .rtzSetPoint _ | .rtzGoto _ | .calibrate _ => .v1 cfg.actionArg
  | .rtzMode _ m => .v1 (rtzModeByte cfg m)
  | .rtzSpeed _ speed => .v1 (rtzSpeedWire cfg speed)
  | .rtzDirection _ d => .v1 (rtzDirByte cfg d)

/-- The encoder: the request frame of an operation's own command (R70 to R74, R82). For SET_ENABLE it is the enable command;
the position reads that may come before it are READ_POSITION's frames (R181). -/
def encode (cfg : Config) (i : Instr) : Frame :=
  requestFrame cfg i.index (cfg.cmdByte i.row) (i.value cfg)

/-- The bytes of an instruction whose bits are numbered as opcode_table.json numbers them: the first word is the first two
bytes, byte 0 in bits 15..8 and byte 1 in bits 7..0 ("match_scope"), and byte k of the operand bytes after it in bits
8k+7..8k. Seven bytes, the longest body (R74); a bit above `nbits` is 0. -/
def tableBytes (nbits w : Nat) : List Byte :=
  let v := w % 2 ^ nbits
  [BitVec.ofNat 8 (v / 2 ^ 8), BitVec.ofNat 8 v, BitVec.ofNat 8 (v / 2 ^ 16), BitVec.ofNat 8 (v / 2 ^ 24),
   BitVec.ofNat 8 (v / 2 ^ 32), BitVec.ofNat 8 (v / 2 ^ 40), BitVec.ofNat 8 (v / 2 ^ 48)]

/-- What the decoder reads from a word of the opcode table. The checksum byte, which the table gives no bits of its own and
R77 computes from the others, is not part of what is read (log entry 9). -/
def decodeTableWord (nbits w : Nat) : Option Instr :=
  match decodeBody Config.standard (tableBytes nbits w) with
  | .ok (i, _) => some i
  | .error _ => none

end Sys2Proof
end

