-- ==== Sys2Proof/Machine/State.lean ====
section
/-! DEFINITION. The state of the engine (10_state.md R20), the model's own fields beside it, the outcomes of an operation
(00_scope.md R11) and the state after reset (R38, R250). Plain data throughout. -/

namespace Sys2Proof.Machine

/-- Why the machine stops with a fault. -/
inductive Fault where
  /-- Raised by the engine's step of an index (`startSend`, `continueSend`) where 41_dispatcher.md R143 has no row: the
  sequencer begins a `Send` while its dispatcher is not idle, or is suspended in one while its dispatcher is idle or has no
  settle tick left. "There is no other transition." No consistent state is like that (R147). Safe. -/
  | noTransition
  deriving DecidableEq, Repr

/-- Why an instruction is refused. -/
inductive Refusal where
  /-- Raised by a dispatch arm of an instruction that has no meaning yet; no arm is left so. Safe. -/
  | notModelled (mnemonic : String)
  deriving DecidableEq, Repr

/-- The value-level failures (R11). -/
inductive AbsentReason where
  | timeout
  | checksumMismatch
  deriving DecidableEq, Repr

/-- The call-aborting failures (R11). -/
inductive AbortReason where
  | transportNotOpen
  | outOfRange
  | enableNoPosition
  deriving DecidableEq, Repr

/-- The reasons of the spec's `Fault(r)` outcomes (R11). `offsetOverflow` is the model's own (U26, log entry 8). -/
inductive FaultReason where
  | overlapSameAddress
  | shortPayload
  | badAddress
  | offsetOverflow
  deriving DecidableEq, Repr

/-- What a `Send` returns (41_dispatcher.md R130). -/
inductive SendResult where
  | frame (g : Frame)
  | absent (r : AbsentReason)
  | abort (r : AbortReason)
  deriving DecidableEq, Repr

/-- The outcome of a host operation (R11, 60_exceptions.md R220). -/
inductive OpOutcome where
  | value (v : Int)
  | ok (b : Bool)
  | absent (r : AbsentReason)
  | abort (r : AbortReason)
  | busy
  | fault (r : FaultReason)
  deriving DecidableEq, Repr

/-- The kinds of diagnostic event (R31). -/
inductive DiagKind where
  | timeout
  | checksumMismatch
  | transportNotOpen
  | outOfRange
  | enableNoPosition
  deriving DecidableEq, Repr

/-- A diagnostic event `(now, a, kind)` (R31). -/
structure DiagEvent where
  tick : Nat
  index : Index
  kind : DiagKind
  deriving DecidableEq, Repr

/-- `dsp[a]`, the timeout state machine of an index (R26). -/
inductive Dsp where
  | idle
  | settle (cmd : Byte) (timeout rem : Nat)
  | await (cmd : Byte) (timeout t : Nat)
  deriving DecidableEq, Repr

/-- The position in an operation's pseudocode (R27): at its start, suspended in the `Send` of its own command, about to begin a
position read, suspended in one, or about to begin the enable command after a read (43_driver_motion.md R181, R182). -/
inductive Pc where
  | start
  | inSend
  | readDue
  | inRead
  | enableDue
  deriving DecidableEq, Repr

/-- The local variables of the enable operation (R27): the attempt counter and the raw position read. -/
structure Locals where
  attempt : Nat := 0
  raw : Option Int := none
  deriving DecidableEq, Repr

/-- `seq[a]`, the operation sequencer of an index (R27). -/
inductive Seq where
  | idle
  | run (op : Instr) (pc : Pc) (loc : Locals)
  deriving DecidableEq, Repr

/-- The state of one address index (R37): the entries of `pending`, `dsp`, `seq`, `isEnabled` and `offset` (R25 to R29), and
the model's own `script`, what remains of a pseudo-operation its caller is issuing (R206, log entry 5). -/
structure Channel where
  pending : Option Byte
  dsp : Dsp
  seq : Seq
  isEnabled : Bool
  offset : Int
  script : List Instr
  deriving DecidableEq, Repr

/-- A change of the transport's open status (R22, 60_exceptions.md R233). -/
inductive LinkEvent where
  | opened
  | closed
  deriving DecidableEq, Repr

/-- What the world outside the engine does in one tick (20_memory.md R63): the transport's open status, the frame that
arrives, the operations submitted, and the order in which the indices take their steps. -/
structure TickInput where
  link : Option LinkEvent := none
  rx : Option Frame := none
  calls : List Descriptor := []
  order : List Index := []
  deriving DecidableEq, Repr

/-- An outcome handed to a caller port (41_dispatcher.md R144, R224): the tick, the index as submitted, the outcome, and
whether the submission ends with it (false only inside a pseudo-operation that goes on, R206). -/
structure Delivery where
  tick : Nat
  port : Int
  outcome : OpOutcome
  last : Bool
  deriving DecidableEq, Repr

/-- The state (R20), and the model's own `delivered` (log entry 4) and `inputs` (log entry 3). -/
structure State where
  /-- The configuration (R21). -/
  cfg : Config
  /-- The transport's open status (R22). -/
  txOpen : Bool
  /-- The receive slot (R23). -/
  rxSlot : Option Frame
  /-- The frames handed to the transport, first one first (R24). -/
  txLog : List Frame
  /-- The per-index state (R25 to R29, R34); the entries at `cfg.nAddr` and above are none of the build's (log entry 6). -/
  chans : Vector Channel addrSpace
  /-- The tick counter (R30). -/
  now : Nat
  /-- The diagnostic log, first event first (R31). -/
  diag : List DiagEvent
  /-- The sticky marks (R32). -/
  faulted : Bool
  refused : Bool
  /-- MODEL: the outcomes delivered to the caller ports, first one first. -/
  delivered : List Delivery
  /-- MODEL: the environment's draws of the coming ticks, next tick first. Nothing constrains them. -/
  inputs : List TickInput
  deriving DecidableEq, Repr

/-- An index after reset (R38). -/
def Channel.reset : Channel :=
  { pending := none, dsp := .idle, seq := .idle, isEnabled := false, offset := 0, script := [] }

/-- The state after reset under a configuration (R38, R250). -/
def State.resetWith (cfg : Config) : State :=
  { cfg := cfg, txOpen := false, rxSlot := none, txLog := [], chans := Vector.replicate addrSpace Channel.reset, now := 0,
    diag := [], faulted := false, refused := false, delivered := [], inputs := [] }

/-- The machine right after reset (R38). Its configuration is `Config.standard` (log entry 1). -/
def State.reset : State := State.resetWith Config.standard

end Sys2Proof.Machine
end

