-- ==== Sys2Proof/Machine/Ops.lean ====
section
/-! DEFINITION. The named operations over the state: the primitives of 00_scope.md R10, the dispatcher transaction of
41_dispatcher.md R130 to R143, and ending an operation (60_exceptions.md R221, R224), which is this machine's analogue of
taking an exception. -/

namespace Sys2Proof.Machine

/-! ### Per-index state -/

/-- The state of index `a`. -/
def State.ch (s : State) (a : Index) : Channel :=
  s.chans[a.val]

/-- Replace the state of index `a`. -/
def State.setCh (s : State) (a : Index) (c : Channel) : State :=
  { s with chans := s.chans.set a.val c }

/-- `pending[a] <- p` (R25). -/
def setPending (a : Index) (p : Option Byte) (s : State) : State :=
  s.setCh a { s.ch a with pending := p }

/-- `dsp[a] <- d` (R26). -/
def setDsp (a : Index) (d : Dsp) (s : State) : State :=
  s.setCh a { s.ch a with dsp := d }

/-- `seq[a] <- q` (R27). -/
def setSeq (a : Index) (q : Seq) (s : State) : State :=
  s.setCh a { s.ch a with seq := q }

/-- `isEnabled[a] <- e` (R28). -/
def setEnabled (a : Index) (e : Bool) (s : State) : State :=
  s.setCh a { s.ch a with isEnabled := e }

/-- `offset[a] <- v` (R29). -/
def setOffset (a : Index) (v : Int) (s : State) : State :=
  s.setCh a { s.ch a with offset := v }

/-- What remains of the pseudo-operation the caller of `a` is issuing (R206, log entry 5). -/
def setScript (a : Index) (is : List Instr) (s : State) : State :=
  s.setCh a { s.ch a with script := is }

/-! ### The transport's primitives (R10, 60_exceptions.md R233) -/

/-- `IsOpen()` (R22). -/
def isOpen (s : State) : Bool := s.txOpen

/-- `RxPeek()`: the slot's content, with no side effect (20_memory.md R57). -/
def rxPeek (s : State) : Option Frame := s.rxSlot

/-- `RxClear()` (R57). -/
def rxClear (s : State) : State := { s with rxSlot := none }

/-- `TxWrite(f)`: the frame is handed over whole (20_memory.md R55, 41_dispatcher.md R134). -/
def txWrite (f : Frame) (s : State) : State := { s with txLog := s.txLog ++ [f] }

/-- `log((now, a, kind))` (R31). -/
def logEvent (a : Index) (k : DiagKind) (s : State) : State :=
  { s with diag := s.diag ++ [⟨s.now, a, k⟩] }

/-! ### The dispatcher transaction -/

/-- The transaction of index `a` ends: `pending[a] <- none`, `dsp[a] <- Idle` (R139, R140, R141). -/
def endTransaction (a : Index) (s : State) : State :=
  setDsp a .idle (setPending a none s)

/-- The matching frame `r` is taken: the transaction ends, the slot is cleared, and the checksum decides (R139, R140). -/
def takeMatch (a : Index) (r : Frame) (s : State) : State × Option SendResult :=
  if verifyChecksum r then (rxClear (endTransaction a s), some (.frame r.dropLast))
  else (logEvent a .checksumMismatch (rxClear (endTransaction a s)), some (.absent .checksumMismatch))

/-- No matching frame taken in tick `t`: the timeout at `t ≥ T` (R141), otherwise one more tick (R143). -/
def missPoll (a : Index) (cmd : Byte) (timeout t : Nat) (s : State) : State × Option SendResult :=
  if timeout ≤ t then (logEvent a .timeout (endTransaction a s), some (.absent .timeout))
  else (setDsp a (.await cmd timeout (t + 1)) s, none)

/-- A tick `t` after the first poll has a poll: every `pollTick` ticks, and at the timeout (R136, R141). With `pollTick = 1`, the
spec's value, every tick has one. DESIGN CHOICE for any other (log entry 7). -/
def pollDue (cfg : Config) (timeout t : Nat) : Bool :=
  decide (timeout ≤ t) || decide (t % max cfg.pollTick 1 = 0)

/-- Tick `t` of index `a` after the first poll (R136): where a poll is due, a matching frame is checked before the timeout (R149);
a short frame or a frame for another address counts as none and stays in the slot (R137, R138). -/
def poll (a : Index) (cmd : Byte) (timeout t : Nat) (s : State) : State × Option SendResult :=
  match rxPeek s with
  | some r => if pollDue s.cfg timeout t && matchesIndex s.cfg r a then takeMatch a r s else missPoll a cmd timeout t s
  | none => missPoll a cmd timeout t s

/-- Clear before send, if the configuration says so (R133). -/
def clearIfConfigured (s : State) : State :=
  if s.cfg.clearBeforeSend then rxClear s else s

/-- Steps 2 and 3 of a `Send`: record the pending command, clear, write (R132, R133, R134). -/
def writeRequest (a : Index) (rq : Request) (s : State) : State :=
  txWrite (requestFrame s.cfg a rq.cmd rq.val) (clearIfConfigured (setPending a (some rq.cmd) s))

/-- The `Idle` rows of R143: the transport check (R131), the write, and the settle delay, or with none the first poll in the
same tick (R135). -/
def beginSend (a : Index) (rq : Request) (s : State) : State × Option SendResult :=
  if isOpen s then
    if s.cfg.settleTicks = 0 then poll a rq.cmd rq.timeout 0 (writeRequest a rq s)
    else (setDsp a (.settle rq.cmd rq.timeout s.cfg.settleTicks) (writeRequest a rq s), none)
  else (logEvent a .transportNotOpen s, some (.abort .transportNotOpen))

/-- A `Send` begins where the dispatcher is idle; R143 has no other row for it. -/
def startSend (a : Index) (rq : Request) (s : State) : Option (State × Option SendResult) :=
  if (s.ch a).dsp = .idle then some (beginSend a rq s) else none

/-- The `Settle` and `Await` rows of R143 for this tick. -/
def continueSend (a : Index) (s : State) : Option (State × Option SendResult) :=
  match (s.ch a).dsp with
  | .idle => none
  | .settle _ _ 0 => none
  | .settle cmd timeout 1 => some (poll a cmd timeout 0 s)
  | .settle cmd timeout (rem + 2) => some (setDsp a (.settle cmd timeout (rem + 1)) s, none)
  | .await cmd timeout t => some (poll a cmd timeout t s)

/-- What becomes of an operation after its `Send`'s step of this tick: no row is a fault, a `Send` that goes on suspends the
sequencer, and a result runs the pseudocode after it (R144, Progress). -/
def afterSend (x : Option (State × Option SendResult)) (suspend : State → State)
    (finish : SendResult → State → State) : Host.Outcome State Fault Refusal :=
  match x with
  | none => .fault .noTransition
  | some (s, none) => .next (suspend s)
  | some (s, some r) => .next (finish r s)

/-! ### Ending an operation -/

/-- The submission goes on after this outcome: an `Ok(true)` inside a pseudo-operation with operations left (R206). -/
def goesOn (o : OpOutcome) (script : List Instr) : Bool :=
  decide (o = .ok true) && !script.isEmpty

/-- An operation ends with an outcome (R224): the outcome is delivered on the port, `seq[a] <- Idle`, and a pseudo-operation
stops at any outcome other than `Ok(true)` (R206). -/
def endOp (a : Index) (o : OpOutcome) (s : State) : State :=
  let script := (s.ch a).script
  let s1 := setSeq a .idle (if o = .ok true then s else setScript a [] s)
  { s1 with delivered := s1.delivered ++ [⟨s.now, (a.val : Int), o, !goesOn o script⟩] }

/-- `abort r` at the operation itself, with its log entry (R221). -/
def abortOp (a : Index) (k : DiagKind) (r : AbortReason) (s : State) : State :=
  endOp a (.abort r) (logEvent a k s)

/-- `fault r`: the sticky mark, and the operation ends (R10, R32). -/
def faultOp (a : Index) (r : FaultReason) (s : State) : State :=
  endOp a (.fault r) { s with faulted := true }

/-! ### The sequencer -/

/-- An idle index accepts an operation: `seq[a] <- Run(op, start, ·)` (R144, Acceptance). -/
def accept (i : Instr) (s : State) : State :=
  setSeq i.index (.run i .start {}) s

/-- An outcome the port answers by itself, for the index as submitted (R144, R84). -/
def deliverPort (port : Int) (o : OpOutcome) (s : State) : State :=
  { s with delivered := s.delivered ++ [⟨s.now, port, o, true⟩] }

/-- A submission at a busy port (R144, Overlap). -/
def overlap (a : Index) (s : State) : State :=
  match s.cfg.overlapPolicy with
  | .fault => deliverPort a.val (.fault .overlapSameAddress) { s with faulted := true }
  | .busy => deliverPort a.val .busy s

/-- The step of operation `i` on its index: an index that runs `i` goes on at its position, an idle index accepts `i` and
starts, and an index that runs another operation is busy (R144). -/
def onSequencer (i : Instr) (body : Pc → Locals → State → Host.Outcome State Fault Refusal) (s : State) :
    Host.Outcome State Fault Refusal :=
  match (s.ch i.index).seq with
  | .idle => body .start {} (accept i s)
  | .run j pc loc => if j = i then body pc loc s else .next (overlap i.index s)

/-- The position after a `Send` of `i` that goes on. -/
def suspendAt (i : Instr) (pc : Pc) (loc : Locals) (s : State) : State :=
  setSeq i.index (.run i pc loc) s

/-- An operation of one `Send`: at its start the arguments give a request, or an abort in the tick of acceptance (R187); then
the transaction runs, and its result ends the operation. -/
def oneSend (i : Instr) (rq : Config → Option Request) (finish : SendResult → State → State) (s : State) :
    Host.Outcome State Fault Refusal :=
  onSequencer i (fun pc loc s =>
    if pc = .start then
      match rq s.cfg with
      | none => .next (abortOp i.index .outOfRange .outOfRange s)
      | some rq => afterSend (startSend i.index rq s) (suspendAt i .inSend loc) finish
    else afterSend (continueSend i.index s) (suspendAt i .inSend loc) finish) s

end Sys2Proof.Machine
end

