-- ==== Sys2Proof/Machine/Flags.lean ====
section
/-! DEFINITION. The engine has no condition codes (10_state.md R35). What stands in their place: the status byte turned into an
outcome (43_driver_motion.md R180), the sticky marks (R32) and the outcome codes (60_exceptions.md R220). -/

namespace Sys2Proof.Machine

/-- A status byte is success if and only if it equals `statusOk` (R180). -/
def statusIsOk (cfg : Config) (b : Byte) : Bool :=
  decide (b = cfg.statusOk)

/-- `refused <- true` (30_encoding.md R84). -/
def markRefused (s : State) : State := { s with refused := true }

/-- The code of an outcome (R220); 0x43 is the model's own reason (log entry 8). -/
def outcomeCode : OpOutcome → Nat
  | .value _ => 0x00
  | .ok true => 0x00
  | .ok false => 0x01
  | .absent .timeout => 0x10
  | .absent .checksumMismatch => 0x11
  | .abort .transportNotOpen => 0x20
  | .abort .outOfRange => 0x21
  | .abort .enableNoPosition => 0x22
  | .busy => 0x30
  | .fault .overlapSameAddress => 0x40
  | .fault .shortPayload => 0x41
  | .fault .badAddress => 0x42
  | .fault .offsetOverflow => 0x43

/-- `actionStatus` after its `Send` (R180): the first payload byte decides, extra bytes are ignored, no byte is a short payload;
`onOk` is what a successful operation writes in its final step (R224). -/
def finishAction (a : Index) (onOk : State → State) (r : SendResult) (s : State) : State :=
  match r with
  | .frame g =>
    match payloadOf g with
    | [] => faultOp a .shortPayload s
    | b :: _ => if statusIsOk s.cfg b then endOp a (.ok true) (onOk s) else endOp a (.ok false) s
  | .absent x => endOp a (.absent x) s
  | .abort x => endOp a (.abort x) s

/-- A read after its `Send` (42_reads.md R160, R168): the payload is cut to the shape's length and decoded; `value` answers
`none` where the build has no value for it (log entry 8). -/
def finishRead (a : Index) (len : Nat) (value : State → List Byte → Option Int) (r : SendResult) (s : State) : State :=
  match r with
  | .frame g =>
    match cutPayload len g with
    | none => faultOp a .shortPayload s
    | some p =>
      match value s p with
      | none => faultOp a .offsetOverflow s
      | some v => endOp a (.value v) s
  | .absent x => endOp a (.absent x) s
  | .abort x => endOp a (.abort x) s

end Sys2Proof.Machine
end

