-- ==== Sys2Proof/Machine/DriverMotion.lean ====
section
/-! DEFINITION. Driver enable and motion (43_driver_motion.md). -/

namespace Sys2Proof.Machine

/-- An action of one `Send` whose value its operands always give. -/
def action (i : Instr) (val : Config → Val) (onOk : State → State) (s : State) : Host.Outcome State Fault Refusal :=
  oneSend i (fun cfg => some (rowRequest cfg i.row (val cfg))) (finishAction i.index onOk) s

/-! ### SET_ENABLE -/

/-- What a successful SET_ENABLE commits (R181): the shadow, and on a disabled-to-enabled transition the captured offset. -/
def commitEnable (a : Index) (e : Bool) (loc : Locals) (s : State) : State :=
  match loc.raw with
  | none => setEnabled a e s
  | some raw => setOffset a (captureOffset s.cfg raw (s.ch a).offset) (setEnabled a e s)

/-- The position read of `rawPosition(a)` (42_reads.md R167): READ_POSITION's request with the default timeout. -/
def positionRequest (cfg : Config) : Request :=
  ⟨cfg.cmdReadPosition, .none, cfg.tDefault⟩

/-- After a position read of the enable (R182): a value is captured and the enable command begins next tick (R144), an absent
reading is retried next tick or, at the last attempt, aborts, and an abort or a short payload ends the operation. -/
def finishAttempt (a : Index) (loc : Locals) (r : SendResult) (s : State) : State :=
  match r with
  | .frame g =>
    match cutPayload s.cfg.shapePosition.len g with
    | none => faultOp a .shortPayload s
    | some p =>
      let raw := rawOfPayload s.cfg p
      if fitsOffset s.cfg (captureOffset s.cfg raw (s.ch a).offset) then
        setSeq a (.run (.setEnable a true) .enableDue { loc with raw := some raw }) s
      else faultOp a .offsetOverflow s
  | .absent _ =>
    if loc.attempt = s.cfg.enableAttempts then abortOp a .enableNoPosition .enableNoPosition s
    else setSeq a (.run (.setEnable a true) .readDue { loc with attempt := loc.attempt + 1 }) s
  | .abort x => endOp a (.abort x) s

/-- SET_ENABLE (R181, R182): an enable of a disabled shadow reads the position first; every other form sends the command at
once. -/
def execSetEnable (a : Index) (e : Bool) (s : State) : Host.Outcome State Fault Refusal :=
  onSequencer (.setEnable a e) (fun pc loc s =>
    let command := rowRequest s.cfg .setEnable (.v1 (enableByte s.cfg e))
    let finish := fun (loc : Locals) => finishAction a (commitEnable a e loc)
    match pc with
    | .start =>
      if e && !(s.ch a).isEnabled then
        afterSend (startSend a (positionRequest s.cfg) s) (suspendAt (.setEnable a e) .inRead { attempt := 1 })
          (finishAttempt a { attempt := 1 })
      else afterSend (startSend a command s) (suspendAt (.setEnable a e) .inSend {}) (finish {})
    | .readDue =>
      afterSend (startSend a (positionRequest s.cfg) s) (suspendAt (.setEnable a e) .inRead loc) (finishAttempt a loc)
    | .inRead => afterSend (continueSend a s) (suspendAt (.setEnable a e) .inRead loc) (finishAttempt a loc)
    | .enableDue => afterSend (startSend a command s) (suspendAt (.setEnable a e) .inSend loc) (finish loc)
    | .inSend => afterSend (continueSend a s) (suspendAt (.setEnable a e) .inSend loc) (finish loc)) s

/-! ### Motion -/

/-- START's request, or none for a speed out of range (R184). -/
def startRequest (dir : Direction) (speed : Int) (cfg : Config) : Option Request :=
  match encodeSpeed cfg speed (isForward dir) with
  | none => none
  | some b => some (rowRequest cfg .start (.v1 b))

/-- START (R184). -/
def execStart (a : Index) (dir : Direction) (speed : Int) (s : State) : Host.Outcome State Fault Refusal :=
  oneSend (.start a dir speed) (startRequest dir speed) (finishAction a id) s

/-- STOP (R185). -/
def execStop (a : Index) (s : State) : Host.Outcome State Fault Refusal :=
  action (.stop a) (fun _ => .none) id s

/-- MOVE_PULSES' request, or none for a speed or a count out of range, the speed checked first (R186, R187). -/
def moveRequest (dir : Direction) (speed pulses : Int) (cfg : Config) : Option Request :=
  match encodeSpeed cfg speed (isForward dir) with
  | none => none
  | some b => if pulsesInRange pulses then some (rowRequest cfg .movePulses (.v7 b pulses.toNat)) else none

/-- MOVE_PULSES (R186). -/
def execMovePulses (a : Index) (dir : Direction) (speed pulses : Int) (s : State) :
    Host.Outcome State Fault Refusal :=
  oneSend (.movePulses a dir speed pulses) (moveRequest dir speed pulses) (finishAction a id) s

end Sys2Proof.Machine
end

