-- ==== Sys2Proof/Machine/Reads.lean ====
section
/-! DEFINITION. The six read operations (42_reads.md). -/

namespace Sys2Proof.Machine

/-- The logical position of a payload: `raw + offset[a]` (R161), or `none` where a fixed-width build overflows (U26). -/
def logicalPosition (a : Index) (s : State) (p : List Byte) : Option Int :=
  let v := rawOfPayload s.cfg p + (s.ch a).offset
  if fitsOffset s.cfg v then some v else none

/-- The value of a read that uses no engine state (R162 to R166). -/
def plainValue (sh : Config → ReadShape) (s : State) (p : List Byte) : Option Int :=
  some (decodeShape (sh s.cfg) p)

/-- A read that uses no engine state: its row's request, its shape's payload. -/
def plainRead (i : Instr) (sh : Config → ReadShape) (s : State) : Host.Outcome State Fault Refusal :=
  oneSend i (fun cfg => some (rowRequest cfg i.row .none))
    (finishRead i.index (sh s.cfg).len (plainValue sh)) s

/-- READ_POSITION (R161). -/
def execReadPosition (a : Index) (s : State) : Host.Outcome State Fault Refusal :=
  oneSend (.readPosition a) (fun cfg => some (rowRequest cfg .readPosition .none))
    (finishRead a s.cfg.shapePosition.len (logicalPosition a)) s

/-- READ_ENCODER (R162). -/
def execReadEncoder (a : Index) (s : State) : Host.Outcome State Fault Refusal :=
  plainRead (.readEncoder a) Config.shapeEncoder s

/-- READ_PULSES (R163): no offset is added. -/
def execReadPulses (a : Index) (s : State) : Host.Outcome State Fault Refusal :=
  plainRead (.readPulses a) Config.shapePulses s

/-- READ_ANGLE_ERROR (R164). -/
def execReadAngleError (a : Index) (s : State) : Host.Outcome State Fault Refusal :=
  plainRead (.readAngleError a) Config.shapeAngleError s

/-- READ_DRIVER_STATE (R165): the raw byte; `isEnabled[a]` is not refreshed. -/
def execReadDriverState (a : Index) (s : State) : Host.Outcome State Fault Refusal :=
  plainRead (.readDriverState a) Config.shapeDriverState s

/-- READ_BLOCK_FLAG (R166). -/
def execReadBlockFlag (a : Index) (s : State) : Host.Outcome State Fault Refusal :=
  plainRead (.readBlockFlag a) Config.shapeBlockFlag s

end Sys2Proof.Machine
end

