-- ==== Sys2Proof/Machine/Rtz.lean ====
section
/-! DEFINITION. Return-to-zero and calibration (44_rtz_calibrate.md). -/

namespace Sys2Proof.Machine

/-- RTZ_SET_POINT (R200): the timeout is `tRtzSetPoint`, by its row. -/
def execRtzSetPoint (a : Index) (s : State) : Host.Outcome State Fault Refusal :=
  action (.rtzSetPoint a) (fun cfg => .v1 cfg.actionArg) id s

/-- RTZ_MODE (R201). -/
def execRtzMode (a : Index) (m : RtzApproach) (s : State) : Host.Outcome State Fault Refusal :=
  action (.rtzMode a m) (fun cfg => .v1 (rtzModeByte cfg m)) id s

/-- RTZ_SPEED (R202): an out-of-range speed is clamped, never aborted. -/
def execRtzSpeed (a : Index) (speed : Int) (s : State) : Host.Outcome State Fault Refusal :=
  action (.rtzSpeed a speed) (fun cfg => .v1 (rtzSpeedWire cfg speed)) id s

/-- RTZ_DIRECTION (R203). -/
def execRtzDirection (a : Index) (dir : Direction) (s : State) : Host.Outcome State Fault Refusal :=
  action (.rtzDirection a dir) (fun cfg => .v1 (rtzDirByte cfg dir)) id s

/-- RTZ_GOTO (R204): the offset is reset on `Ok(true)` only. -/
def execRtzGoto (a : Index) (s : State) : Host.Outcome State Fault Refusal :=
  action (.rtzGoto a) (fun cfg => .v1 cfg.actionArg) (setOffset a 0) s

/-- CALIBRATE (R205). -/
def execCalibrate (a : Index) (s : State) : Host.Outcome State Fault Refusal :=
  action (.calibrate a) (fun cfg => .v1 cfg.actionArg) id s

end Sys2Proof.Machine
end

