-- ==== Sys2Proof/Machine/Dispatch.lean ====
section
/-! DEFINITION. One arm per host operation: what operation `i` does on its index in one tick (41_dispatcher.md R144). -/

namespace Sys2Proof.Machine

def exec (i : Instr) (s : State) : Host.Outcome State Fault Refusal :=
  match i with
  | .readPosition a => Sys2Proof.Machine.execReadPosition a s
  | .readEncoder a => Sys2Proof.Machine.execReadEncoder a s
  | .readPulses a => Sys2Proof.Machine.execReadPulses a s
  | .readAngleError a => Sys2Proof.Machine.execReadAngleError a s
  | .readDriverState a => Sys2Proof.Machine.execReadDriverState a s
  | .readBlockFlag a => Sys2Proof.Machine.execReadBlockFlag a s
  | .setEnable a e => Sys2Proof.Machine.execSetEnable a e s
  | .start a dir speed => Sys2Proof.Machine.execStart a dir speed s
  | .stop a => Sys2Proof.Machine.execStop a s
  | .movePulses a dir speed pulses => Sys2Proof.Machine.execMovePulses a dir speed pulses s
  | .rtzSetPoint a => Sys2Proof.Machine.execRtzSetPoint a s
  | .rtzMode a m => Sys2Proof.Machine.execRtzMode a m s
  | .rtzSpeed a speed => Sys2Proof.Machine.execRtzSpeed a speed s
  | .rtzDirection a dir => Sys2Proof.Machine.execRtzDirection a dir s
  | .rtzGoto a => Sys2Proof.Machine.execRtzGoto a s
  | .calibrate a => Sys2Proof.Machine.execCalibrate a s

end Sys2Proof.Machine
end

