-- ==== Sys2Proof/Machine/Port.lean ====
section
/-! DEFINITION. The caller port: reading a descriptor, the pseudo-operations, acceptance and refusal (30_encoding.md R84, R86;
41_dispatcher.md R144; 44_rtz_calibrate.md R206, R207), and the reset action (70_reset_and_hazards.md R250). -/

namespace Sys2Proof.Machine

/-- A direction word (R86). -/
def argDirection : Arg → Option Direction
  | .fwd => some .fwd
  | .rev => some .rev
  | .int _ | .dir | .near | .unknown _ => none

/-- A return-to-zero mode word (R86, R201). -/
def argApproach : Arg → Option RtzApproach
  | .dir => some .dir
  | .near => some .near
  | .int _ | .fwd | .rev | .unknown _ => none

/-- An enable argument: 1 or 0, any other is ill-typed (R181). -/
def argEnable : Arg → Option Bool
  | .int v => if v = 1 then some true else if v = 0 then some false else none
  | .fwd | .rev | .dir | .near | .unknown _ => none

/-- A host operation or an expanded pseudo-operation, still without its address index. -/
abbrev Ops := List (Index → Instr)

/-- The operations of a row from the arguments after the index, or none where they have the wrong types (R84, R86). -/
def rowOps (r : Row) (args : List Arg) : Option Ops :=
  match r, args with
  | .readPosition, [] => some [.readPosition]
  | .readEncoder, [] => some [.readEncoder]
  | .readPulses, [] => some [.readPulses]
  | .readAngleError, [] => some [.readAngleError]
  | .readDriverState, [] => some [.readDriverState]
  | .readBlockFlag, [] => some [.readBlockFlag]
  | .setEnable, [e] => (argEnable e).map (fun e => [fun a => .setEnable a e])
  | .start, [d, .int speed] => (argDirection d).map (fun d => [fun a => .start a d speed])
  | .stop, [] => some [.stop]
  | .movePulses, [d, .int speed, .int pulses] =>
      (argDirection d).map (fun d => [fun a => .movePulses a d speed pulses])
  | .rtzSetPoint, [] => some [.rtzSetPoint]
  | .rtzMode, [m] => (argApproach m).map (fun m => [fun a => .rtzMode a m])
  | .rtzSpeed, [.int speed] => some [fun a => .rtzSpeed a speed]
  | .rtzDirection, [d] => (argDirection d).map (fun d => [fun a => .rtzDirection a d])
  | .rtzGoto, [] => some [.rtzGoto]
  | .calibrate, [] => some [.calibrate]
  | _, _ => none

/-- The operations of a name from the arguments after the index: a row's, or a pseudo-operation's expansion (R86, R206,
R207). -/
def nameOps (n : CallName) (args : List Arg) : Option Ops :=
  match n, args with
  | .op r, args => rowOps r args
  | .enable, [] => some [fun a => .setEnable a true]
  | .disable, [] => some [fun a => .setEnable a false]
  | .configRtzDir, [.int speed, d] =>
      (argDirection d).map (fun d => [fun a => .rtzMode a .dir, fun a => .rtzSpeed a speed, fun a => .rtzDirection a d])
  | .configRtzNear, [] => some [fun a => .rtzMode a .near]
  | _, _ => none

/-- The address index and the operations a descriptor names, or none where it is undecodable (R84). -/
def readDescriptor (d : Descriptor) : Option (Int × Ops) :=
  match d.args with
  | .int v :: args => (nameOps d.name args).map (fun ops => (v, ops))
  | _ => none

/-- The index `v` of the build, `[0, nAddr − 1]` (R84, R6). -/
def indexOf (cfg : Config) (v : Int) : Option Index :=
  if h : 0 ≤ v ∧ v.toNat < cfg.nAddr ∧ v.toNat < addrSpace then some ⟨v.toNat, h.2.2⟩ else none

/-- An idle port accepts the first of the operations; the rest is what its caller issues after it (R144, R206). -/
def acceptOps (a : Index) (ops : Ops) (s : State) : State :=
  match ops with
  | [] => s
  | op :: rest => accept (op a) (setScript a (rest.map (fun f => f a)) s)

/-- One submission, its conditions in the order of 60_exceptions.md R223: undecodable, bad address, busy port, accepted. -/
def submit (d : Descriptor) (s : State) : State :=
  match readDescriptor d with
  | none => markRefused s
  | some (v, ops) =>
    match indexOf s.cfg v with
    | none => deliverPort v (.fault .badAddress) { s with faulted := true }
    | some a => if (s.ch a).seq = .idle then acceptOps a ops s else overlap a s

/-- The caller of index `a` issues the next operation of its pseudo-operation, if its port is idle and one is left (R206). -/
def issueNext (s : State) (a : Index) : State :=
  match (s.ch a).seq, (s.ch a).script with
  | .idle, i :: rest => setSeq a (.run i .start {}) (setScript a rest s)
  | _, _ => s

/-- The descriptor of an operation (R86). -/
def descriptorOf (i : Instr) : Descriptor :=
  let dirArg : Direction → Arg := fun d => match d with
    | .fwd => .fwd
    | .rev => .rev
  let index : Arg := .int (i.index.val : Int)
  match i with
  | .setEnable _ e => ⟨.op .setEnable, [index, .int (if e then 1 else 0)]⟩
  | .start _ d speed => ⟨.op .start, [index, dirArg d, .int speed]⟩
  | .movePulses _ d speed pulses => ⟨.op .movePulses, [index, dirArg d, .int speed, .int pulses]⟩
  | .rtzMode _ .dir => ⟨.op .rtzMode, [index, .dir]⟩
  | .rtzMode _ .near => ⟨.op .rtzMode, [index, .near]⟩
  | .rtzSpeed _ speed => ⟨.op .rtzSpeed, [index, .int speed]⟩
  | .rtzDirection _ d => ⟨.op .rtzDirection, [index, dirArg d]⟩
  | .readPosition _ | .readEncoder _ | .readPulses _ | .readAngleError _ | .readDriverState _ | .readBlockFlag _
  | .stop _ | .rtzSetPoint _ | .rtzGoto _ | .calibrate _ => ⟨.op i.row, [index]⟩

/-- The reset action (R250): every piece of engine state to its reset value, `cfg` kept. It is no step. The environment's
coming draws are not the engine's and stay. -/
def resetEngine (s : State) : State :=
  { State.resetWith s.cfg with inputs := s.inputs }

end Sys2Proof.Machine
end

