-- ==== Sys2Proof/Machine/Tick.lean ====
section
/-! DEFINITION. One tick and its four phases (20_memory.md R63). -/

namespace Sys2Proof.Machine

/-- What the world does in this tick: the next draw, or nothing where none is left (log entry 3). -/
def thisInput (s : State) : TickInput :=
  match s.inputs with
  | [] => {}
  | inp :: _ => inp

/-- The draw of this tick is used up. -/
def dropInput (s : State) : State :=
  { s with inputs := s.inputs.drop 1 }

/-- The transport's open status after the tick's link event (10_state.md R22). -/
def linkAfter (link : Option LinkEvent) (was : Bool) : Bool :=
  match link with
  | none => was
  | some .opened => true
  | some .closed => false

/-- The receive slot after the tick's arrival: a frame replaces the content whole (R23, 20_memory.md R56). -/
def slotAfter (rx was : Option Frame) : Option Frame :=
  match rx with
  | none => was
  | some f => some f

/-- The environment phase (R63, 1). -/
def environmentPhase (inp : TickInput) (s : State) : State :=
  { s with txOpen := linkAfter inp.link s.txOpen, rxSlot := slotAfter inp.rx s.rxSlot }

/-- Every address index of the build, ascending (R6). -/
def allIndices (cfg : Config) : List Index :=
  (List.finRange addrSpace).filter cfg.hasIndex

/-- The caller phase (R63, 2): the callers of pseudo-operations issue their next operation, then the tick's submissions are
taken one after another. -/
def callerPhase (inp : TickInput) (s : State) : State :=
  inp.calls.foldl (fun s d => submit d s) ((allIndices s.cfg).foldl issueNext s)

/-- The order in which the build's indices take their steps: the drawn one, every index once, those it leaves out ascending after
it (R63, R55; log entry 3). -/
def stepOrder (cfg : Config) (order : List Index) : List Index :=
  order.dedup.filter cfg.hasIndex ++ (allIndices cfg).filter (fun a => decide (a ∉ order))

/-- The step of one index: its running operation's, or none where its sequencer is idle (R63, 3). -/
def indexStep (a : Index) (s : State) : Host.Outcome State Fault Refusal :=
  match (s.ch a).seq with
  | .idle => .next s
  | .run i _ _ => exec i s

/-- The engine phase (R63, 3): the indices take their steps one after another. -/
def enginePhase : List Index → State → Host.Outcome State Fault Refusal
  | [], s => .next s
  | a :: order, s =>
    match indexStep a s with
    | .next s' => enginePhase order s'
    | .fault r => .fault r
    | .refused r => .refused r

/-- The state the engine phase starts from: the draw used up, the environment and the callers done. -/
def beforeEngine (s : State) : State :=
  callerPhase (thisInput s) (environmentPhase (thisInput s) (dropInput s))

/-- `now <- now + 1` (R63, 4). -/
def advanceNow (s : State) : State :=
  { s with now := s.now + 1 }

/-- One tick (R63). -/
def tick (s : State) : Host.Outcome State Fault Refusal :=
  match enginePhase (stepOrder s.cfg (thisInput s).order) (beforeEngine s) with
  | .next s' => .next (advanceNow s')
  | .fault r => .fault r
  | .refused r => .refused r

/-- The port of index `a` is free: nothing runs and nothing is left of a pseudo-operation. -/
def freePort (a : Index) (s : State) : State :=
  s.setCh a { s.ch a with pending := none, dsp := .idle, seq := .idle, script := [] }

/-- The next tick's submissions are exactly `calls`; its other draws stay. -/
def placeCalls (calls : List Descriptor) (s : State) : State :=
  { s with inputs := { thisInput s with calls := calls } :: s.inputs.drop 1 }

/-- The next step runs the operation of a table word: it is the one submission of the next tick, at a free port. A word the
decoder refuses is submitted as a name that names no row (log entry 9). -/
def placeTableWord (nbits w : Nat) (s : State) : State :=
  match decodeTableWord nbits w with
  | some i => placeCalls [descriptorOf i] (freePort i.index s)
  | none => placeCalls [⟨.unknown w, []⟩] s

end Sys2Proof.Machine
end

