-- ==== Sys2Proof/Machine/Step.lean ====
section
/-! DEFINITION. The step is one tick (20_memory.md R63); the engine has no fetch (10_state.md R27), an operation comes to it
through the caller port. -/

namespace Sys2Proof.Machine

/-- One step of the machine. -/
def step (s : State) : Host.Outcome State Fault Refusal := tick s

/-- The state whose next step runs the instruction of a table word. -/
def State.withFetchWord (s : State) (nbits w : Nat) : State := placeTableWord nbits w s

end Sys2Proof.Machine
end

