-- ==== Sys2Proof/Safety.lean ====
section
/-! DEFINITION. The terms the claims use: consistent states (41_dispatcher.md R147), what a state holds before a step, and the
states the rules give after one, each written as the state before it with every changed field named. -/

namespace Sys2Proof.Safety

open Sys2Proof.Machine

/-! ### Consistent states (R147, 10_state.md R26, R27) -/

/-- The command of a dispatcher state (R26). -/
def dspCommand : Dsp → Option Byte
  | .idle => none
  | .settle cmd _ _ => some cmd
  | .await cmd _ _ => some cmd

/-- The command and the timeout of the `Send` a sequencer is suspended in, or none where it is in none (R27, R142, R167). -/
def currentSend (cfg : Config) : Seq → Option (Byte × Nat)
  | .run i .inSend _ => some (cfg.cmdByte i.row, rowTimeout cfg i.row)
  | .run _ .inRead _ => some (cfg.cmdReadPosition, cfg.tDefault)
  | .run _ .start _ | .run _ .readDue _ | .run _ .enableDue _ | .idle => none

/-- The dispatcher runs exactly the given `Send`, its counters in range: `rem ∈ [1, settleTicks]`, `t ∈ [0, T]` (R26). -/
def dspOk (cfg : Config) (send : Option (Byte × Nat)) : Dsp → Bool
  | .idle => decide (send = none)
  | .settle cmd timeout rem =>
      decide (send = some (cmd, timeout)) && decide (1 ≤ rem) && decide (rem ≤ cfg.settleTicks)
  | .await cmd timeout t => decide (send = some (cmd, timeout)) && decide (t ≤ timeout)

/-- The sequencer of index `a` runs an operation of `a`, at a position that operation has, its locals in range (R27, R182). -/
def seqOk (cfg : Config) (a : Index) : Seq → Bool
  | .idle => true
  | .run i .start loc => decide (i.index = a) && decide (loc = {})
  | .run i .inSend loc => decide (i.index = a) && (loc.raw.isNone || decide (i = .setEnable a true))
  | .run i .readDue loc | .run i .inRead loc =>
      decide (i = .setEnable a true) && loc.raw.isNone && decide (1 ≤ loc.attempt)
        && decide (loc.attempt ≤ cfg.enableAttempts)
  | .run i .enableDue loc => decide (i = .setEnable a true) && loc.raw.isSome

/-- What every reachable state's index `a` meets: `pending[a]` is the command of `dsp[a]`, the dispatcher runs the `Send` its
sequencer is suspended in, and what its caller has left to issue is for `a` (R147.1, R147.2); an entry that is no index of the
build is as after reset (log entry 6). -/
def channelOk (cfg : Config) (a : Index) (c : Channel) : Bool :=
  decide (c.pending = dspCommand c.dsp) && dspOk cfg (currentSend cfg c.seq) c.dsp && seqOk cfg a c.seq
    && c.script.all (fun i => decide (i.index = a)) && (cfg.hasIndex a || decide (c = Channel.reset))

/-- The invariant of the engine: every index is consistent, and an enable reads at least once (R147, R182). -/
abbrev Consistent (s : State) : Prop :=
  1 ≤ s.cfg.enableAttempts ∧ ∀ a : Index, channelOk s.cfg a (s.ch a) = true

/-! ### Before a step -/

/-- Index `a` runs nothing (R144). -/
abbrev Ready (a : Index) (s : State) : Prop :=
  (s.ch a).seq = .idle ∧ (s.ch a).dsp = .idle

/-- Operation `i` is suspended in the `Send` of its own command, `t` ticks of `T` after its first poll (R136). -/
abbrev Waiting (i : Instr) (loc : Locals) (cmd : Byte) (timeout t : Nat) (s : State) : Prop :=
  (s.ch i.index).seq = .run i .inSend loc ∧ (s.ch i.index).dsp = .await cmd timeout t

/-- The same, and this tick has a poll: every tick, with the spec's `pollTick` (R136, log entry 7). -/
abbrev Polling (i : Instr) (loc : Locals) (cmd : Byte) (timeout t : Nat) (s : State) : Prop :=
  Waiting i loc cmd timeout t s ∧ pollDue s.cfg timeout t = true

/-- The enable of index `a` is suspended in a position read, `t` ticks of `T` after its first poll (R182). -/
abbrev WaitingRead (a : Index) (loc : Locals) (cmd : Byte) (timeout t : Nat) (s : State) : Prop :=
  (s.ch a).seq = .run (.setEnable a true) .inRead loc ∧ (s.ch a).dsp = .await cmd timeout t

/-- The same, and this tick has a poll (R182, R136). -/
abbrev PollingRead (a : Index) (loc : Locals) (cmd : Byte) (timeout t : Nat) (s : State) : Prop :=
  WaitingRead a loc cmd timeout t s ∧ pollDue s.cfg timeout t = true

/-- The slot holds the checksum-valid response of index `a` with payload `p` (30_encoding.md R75). -/
abbrev Response (a : Index) (p : List Byte) (s : State) : Prop :=
  s.rxSlot = some ((wireAddr s.cfg a :: p) ++ [checksum (wireAddr s.cfg a :: p)])

/-- The slot holds a frame that index `a` matches (R116). -/
def slotMatches (a : Index) (s : State) : Bool :=
  match s.rxSlot with
  | none => false
  | some f => matchesIndex s.cfg f a

/-- Nothing runs at any port, and no caller has anything left to issue. -/
abbrev AllIdle (s : State) : Prop :=
  ∀ a : Index, s.ch a = { s.ch a with pending := none, dsp := .idle, seq := .idle, script := [] }

/-- The argument is an integer (R86). -/
def isInt : Arg → Bool
  | .int _ => true
  | .fwd | .rev | .dir | .near | .unknown _ => false

/-- The argument is a direction word (R86). -/
def isDirection : Arg → Bool
  | .fwd | .rev => true
  | .int _ | .dir | .near | .unknown _ => false

/-- The arguments after the address index have the types of R86 and R181: a direction word, a mode word, the integers 0 and 1,
any integer. -/
def argsTyped : CallName → List Arg → Bool
  | .op r, [] =>
    decide (r ∈ [Row.readPosition, .readEncoder, .readPulses, .readAngleError, .readDriverState, .readBlockFlag, .stop,
      .rtzSetPoint, .rtzGoto, .calibrate])
  | .op .setEnable, [e] => decide (e = .int 0) || decide (e = .int 1)
  | .op .rtzMode, [m] => decide (m = .dir) || decide (m = .near)
  | .op .rtzSpeed, [speed] => isInt speed
  | .op .rtzDirection, [d] => isDirection d
  | .op .start, [d, speed] => isDirection d && isInt speed
  | .op .movePulses, [d, speed, pulses] => isDirection d && isInt speed && isInt pulses
  | .enable, [] | .disable, [] | .configRtzNear, [] => true
  | .configRtzDir, [speed, d] => isInt speed && isDirection d
  | _, _ => false

/-- The descriptor names an operation or a pseudo-operation with arguments of its types (R84, R86). -/
def decodable (d : Descriptor) : Bool :=
  match d.args with
  | [] => false
  | v :: args => isInt v && argsTyped d.name args

/-- A START or MOVE_PULSES whose speed or pulse count is out of range (R184, R186). -/
def outOfRange (cfg : Config) : Instr → Bool
  | .start _ _ speed => !speedInRange cfg speed
  | .movePulses _ _ speed pulses => !(speedInRange cfg speed && pulsesInRange pulses)
  | .readPosition _ | .readEncoder _ | .readPulses _ | .readAngleError _ | .readDriverState _ | .readBlockFlag _
  | .setEnable _ _ | .stop _ | .rtzSetPoint _ | .rtzMode _ _ | .rtzSpeed _ _ | .rtzDirection _ _ | .rtzGoto _
  | .calibrate _ => false

/-- The actions whose success writes no engine state of its own (R184 to R186, R200 to R203, R205). -/
def plainAction : Instr → Bool
  | .start _ _ _ | .stop _ | .movePulses _ _ _ _ | .rtzSetPoint _ | .rtzMode _ _ | .rtzSpeed _ _ | .rtzDirection _ _
  | .calibrate _ => true
  | .readPosition _ | .readEncoder _ | .readPulses _ | .readAngleError _ | .readDriverState _ | .readBlockFlag _
  | .setEnable _ _ | .rtzGoto _ => false

/-- The value fits the build's offset: always in an unbounded build, otherwise in two's complement of its width (D20, U26). -/
abbrev InWidth (cfg : Config) (v : Int) : Prop :=
  ∀ w : Nat, cfg.offsetWidth = some w → -(2 ^ w : Int) ≤ 2 * v ∧ 2 * v < (2 ^ w : Int)

/-- The operations of one `Send`: all but SET_ENABLE. -/
def oneSendOp : Instr → Bool
  | .setEnable _ _ => false
  | .readPosition _ | .readEncoder _ | .readPulses _ | .readAngleError _ | .readDriverState _ | .readBlockFlag _
  | .start _ _ _ | .stop _ | .movePulses _ _ _ _ | .rtzSetPoint _ | .rtzMode _ _ | .rtzSpeed _ _ | .rtzDirection _ _
  | .rtzGoto _ | .calibrate _ => true

/-! ### After a step -/

/-- Index `a` with its transaction and its operation ended by outcome `o`; a pseudo-operation stops at any outcome other than
`Ok(true)` (R224, R206). -/
def endedChannel (o : OpOutcome) (c : Channel) : Channel :=
  { c with pending := none, dsp := .idle, seq := .idle, script := if o = .ok true then c.script else [] }

/-- The delivery of outcome `o` on port `a` in this tick; the submission ends with it unless a pseudo-operation goes on
(R144, R206). -/
def deliveryOf (a : Index) (o : OpOutcome) (s : State) : Delivery :=
  ⟨s.now, (a.val : Int), o, !(decide (o = .ok true) && !(s.ch a).script.isEmpty)⟩

/-- The operation on index `a` ends with outcome `o` and `edit` is what it writes of its index; nothing else changes. -/
def ended (a : Index) (o : OpOutcome) (edit : Channel → Channel) (s : State) : State :=
  { s with
    chans := s.chans.set a.val (endedChannel o (edit (s.ch a)))
    delivered := s.delivered ++ [deliveryOf a o s] }

/-- The same, and the response is taken out of the slot (R139). -/
def replied (a : Index) (o : OpOutcome) (edit : Channel → Channel) (s : State) : State :=
  { ended a o edit s with rxSlot := none }

/-- Frame `f` with command `cmd` is written for operation `i` at position `pc`: the command is pending, the slot is cleared if
the configuration says so, and the dispatcher is in state `d`; nothing else changes (R132 to R135). -/
def sent (i : Instr) (pc : Pc) (loc : Locals) (cmd : Byte) (d : Dsp) (f : Frame) (s : State) : State :=
  { s with
    rxSlot := if s.cfg.clearBeforeSend then none else s.rxSlot
    txLog := s.txLog ++ [f]
    chans := s.chans.set i.index.val
      { s.ch i.index with pending := some cmd, dsp := d, seq := .run i pc loc } }

/-- Only the sequencer of index `a` and its dispatcher change. -/
def moved (a : Index) (q : Seq) (d : Dsp) (p : Option Byte) (s : State) : State :=
  { s with chans := s.chans.set a.val { s.ch a with pending := p, dsp := d, seq := q } }

/-- The two-byte request frame of a command on index `a` with its checksum, F2 (R71). -/
def frameF2 (cfg : Config) (a : Index) (cmd : Byte) : Frame :=
  [cfg.baseAddr + BitVec.ofNat 8 a.val, cmd, cfg.baseAddr + BitVec.ofNat 8 a.val + cmd]

/-- The request frame with a one-byte value, F3 (R72). -/
def frameF3 (cfg : Config) (a : Index) (cmd v : Byte) : Frame :=
  [cfg.baseAddr + BitVec.ofNat 8 a.val, cmd, v, cfg.baseAddr + BitVec.ofNat 8 a.val + cmd + v]

/-- The request frame of a move, F7, of the four bytes of its count (R74). -/
def frameF7 (cfg : Config) (a : Index) (cmd v p3 p2 p1 p0 : Byte) : Frame :=
  [cfg.baseAddr + BitVec.ofNat 8 a.val, cmd, v, p3, p2, p1, p0,
   cfg.baseAddr + BitVec.ofNat 8 a.val + cmd + v + p3 + p2 + p1 + p0]

/-! ### Runs -/

/-- The longest timeout of a configuration (R142). -/
def longestTimeout (cfg : Config) : Nat :=
  max (max cfg.tDefault cfg.tCalibrate) (max cfg.tRtzGoto cfg.tRtzSetPoint)

/-- More ticks than any operation takes: one `Send` for each read of an enable and one for the command (70_reset_and_hazards.md
R261, R262). -/
def operationTicks (cfg : Config) : Nat :=
  (cfg.enableAttempts + 1) * (cfg.settleTicks + longestTimeout cfg + 1)

/-- None of the next `n` ticks brings a frame that index `a` matches. -/
abbrev NoMatchArrives (a : Index) (n : Nat) (s : State) : Prop :=
  ∀ inp ∈ s.inputs.take n, ∀ f ∈ inp.rx, matchesIndex s.cfg f a = false

end Sys2Proof.Safety
end

