-- ==== Sys2Proof/Laws/State.lean ====
section
/-! SUPPORT. The small lemmas of the state: reading an index after an update, and the fields each named operation leaves. -/

namespace Sys2Proof.Machine

@[simp] theorem ch_setCh_same (s : State) (a : Index) (c : Channel) : (s.setCh a c).ch a = c := by
  simp [State.ch, State.setCh]

theorem ch_setCh_ne (s : State) {a b : Index} (c : Channel) (h : b ≠ a) : (s.setCh a c).ch b = s.ch b := by
  have : a.val ≠ b.val := fun e => h (Fin.ext e.symm)
  simp [State.ch, State.setCh, Vector.getElem_set_ne, this]

@[simp] theorem setCh_setCh (s : State) (a : Index) (c d : Channel) : (s.setCh a c).setCh a d = s.setCh a d := by
  simp [State.setCh]

@[simp] theorem setCh_ch (s : State) (a : Index) : s.setCh a (s.ch a) = s := by
  simp [State.setCh, State.ch]

@[simp] theorem setCh_cfg (s : State) (a : Index) (c : Channel) : (s.setCh a c).cfg = s.cfg := rfl
@[simp] theorem setCh_txOpen (s : State) (a : Index) (c : Channel) : (s.setCh a c).txOpen = s.txOpen := rfl
@[simp] theorem setCh_rxSlot (s : State) (a : Index) (c : Channel) : (s.setCh a c).rxSlot = s.rxSlot := rfl
@[simp] theorem setCh_txLog (s : State) (a : Index) (c : Channel) : (s.setCh a c).txLog = s.txLog := rfl
@[simp] theorem setCh_now (s : State) (a : Index) (c : Channel) : (s.setCh a c).now = s.now := rfl
@[simp] theorem setCh_diag (s : State) (a : Index) (c : Channel) : (s.setCh a c).diag = s.diag := rfl
@[simp] theorem setCh_faulted (s : State) (a : Index) (c : Channel) : (s.setCh a c).faulted = s.faulted := rfl
@[simp] theorem setCh_refused (s : State) (a : Index) (c : Channel) : (s.setCh a c).refused = s.refused := rfl
@[simp] theorem setCh_delivered (s : State) (a : Index) (c : Channel) : (s.setCh a c).delivered = s.delivered := rfl
@[simp] theorem setCh_inputs (s : State) (a : Index) (c : Channel) : (s.setCh a c).inputs = s.inputs := rfl

@[simp] theorem ch_rxClear (s : State) (a : Index) : (rxClear s).ch a = s.ch a := rfl
@[simp] theorem ch_txWrite (f : Frame) (s : State) (a : Index) : (txWrite f s).ch a = s.ch a := rfl
@[simp] theorem ch_logEvent (a b : Index) (k : DiagKind) (s : State) : (logEvent a k s).ch b = s.ch b := rfl
@[simp] theorem ch_markRefused (s : State) (a : Index) : (markRefused s).ch a = s.ch a := rfl
@[simp] theorem ch_deliverPort (p : Int) (o : OpOutcome) (s : State) (a : Index) : (deliverPort p o s).ch a = s.ch a := rfl

@[simp] theorem ch_clearIfConfigured (s : State) (a : Index) : (clearIfConfigured s).ch a = s.ch a := by
  unfold clearIfConfigured; split <;> rfl

@[simp] theorem ch_overlap (a b : Index) (s : State) : (overlap a s).ch b = s.ch b := by
  unfold overlap; split <;> rfl

@[simp] theorem ch_resetWith (cfg : Config) (a : Index) : (State.resetWith cfg).ch a = Channel.reset := by
  simp [State.resetWith, State.ch]

/-! ### Consistent states -/

theorem channelOk_reset (cfg : Config) (a : Index) : Safety.channelOk cfg a Channel.reset = true := by
  simp [Safety.channelOk, Channel.reset, Safety.dspCommand, Safety.currentSend, Safety.dspOk, Safety.seqOk]

/-- A consistent state stays so where one index is replaced by one that meets the invariant. -/
theorem consistent_setCh {s : State} {a : Index} {c : Channel} (hs : Safety.Consistent s)
    (hc : Safety.channelOk s.cfg a c = true) : Safety.Consistent (s.setCh a c) := by
  refine ⟨hs.1, fun b => ?_⟩
  by_cases hb : b = a
  · subst hb; simpa using hc
  · simpa [ch_setCh_ne s c hb] using hs.2 b

end Sys2Proof.Machine
end

