-- ==== Sys2Proof/Certificates/Slice0/Obligations.lean ====
section
/-! DEFINITION. The statements for the provers, from the numbered rules of spec/. A statement about one operation gives the whole
state after it: every field it does not name is the field before. -/

open Sys2Proof Sys2Proof.Machine Sys2Proof.Safety

/-! ### The codec (40_codec.md) -/

/-- R100: `checksum(bs) = (Σ bs[i]) mod 256`, 0 of the empty list, and the example. -/
def Obligations.ChecksumIsSumModulo256 : Prop :=
  (∀ bs : List Byte, (checksum bs).toNat = (bs.map BitVec.toNat).sum % 256)
  ∧ checksum [] = 0x00#8 ∧ checksum [0xE0#8, 0x36#8] = 0x16#8

/-- R101, R102: the appended checksum, its corner case and example, and that every request has two bytes before it; a frame
verifies if and only if it has two bytes and its last byte is the sum of the others; the examples; a frame of fewer than two bytes
matches no index, so the dispatcher never verifies one. -/
def Obligations.VerifyComparesLastByteWithSum : Prop :=
  (∀ f : Frame, appendChecksum f = f ++ [checksum f])
  ∧ appendChecksum [] = [0x00#8]
  ∧ (∀ (cfg : Config) (a : Index) (cmd : Byte) (val : Val), 2 ≤ (requestBody cfg a cmd val).length)
  ∧ appendChecksum [0xE0#8, 0x36#8] = [0xE0#8, 0x36#8, 0x16#8]
  ∧ (∀ f : Frame, f.length < 2 → verifyChecksum f = false ∧ ∀ (cfg : Config) (a : Index), matchesIndex cfg f a = false)
  ∧ (∀ (f : Frame) (k : Byte), 1 ≤ f.length → (verifyChecksum (f ++ [k]) = true ↔ k = checksum f))
  ∧ verifyChecksum [0xE0#8, 0x00#8, 0x00#8, 0x30#8, 0x39#8, 0x49#8] = true
  ∧ verifyChecksum [0xE0#8, 0x36#8, 0x17#8] = false

/-- 40_codec.md section 1 (R117 and two corner cases, inferences the spec marks as its own): reducing after each addition gives the
same byte; `[A, A]` verifies; an appended checksum verifies; a valid frame with exactly one byte changed, the checksum byte
included, does not; two changed bytes can go undetected. -/
def Obligations.OneChangedByteFailsChecksum : Prop :=
  (∀ bs : List Byte, checksum bs = bs.foldl (fun acc b => acc + b) 0#8)
  ∧ (∀ A : Byte, verifyChecksum [A, A] = true)
  ∧ (∀ f : Frame, 1 ≤ f.length → verifyChecksum (appendChecksum f) = true)
  ∧ (∀ (before after : List Byte) (x y : Byte), x ≠ y → verifyChecksum (before ++ x :: after) = true →
      verifyChecksum (before ++ y :: after) = false)
  ∧ verifyChecksum [0xE0#8, 0x01#8, 0xE1#8] = true ∧ verifyChecksum [0xE1#8, 0x00#8, 0xE1#8] = true

/-- R103, R104, R105, R106 (and the wire address R115): the bytes of the four formats before the checksum, the multi-byte values
big-endian, and each rule's example. -/
def Obligations.BuildersLayOutTheFormats : Prop :=
  (∀ (cfg : Config) (a : Index) (cmd v : Byte),
    buildF2 cfg a cmd = [wireAddr cfg a, cmd] ∧ buildF3 cfg a cmd v = [wireAddr cfg a, cmd, v])
  ∧ (∀ (cfg : Config) (a : Index) (cmd b1 b0 : Byte),
      buildF4 cfg a cmd (b1.toNat * 256 + b0.toNat) = [wireAddr cfg a, cmd, b1, b0])
  ∧ (∀ (cfg : Config) (a : Index) (cmd s b3 b2 b1 b0 : Byte),
      buildF7 cfg a cmd s (((b3.toNat * 256 + b2.toNat) * 256 + b1.toNat) * 256 + b0.toNat)
        = [wireAddr cfg a, cmd, s, b3, b2, b1, b0])
  ∧ (∀ (cfg : Config) (a : Index), cfg.baseAddr.toNat + a.val < 256 →
      (wireAddr cfg a).toNat = cfg.baseAddr.toNat + a.val)
  ∧ wireAddr Config.standard 0 = 0xE0#8 ∧ wireAddr Config.standard 15 = 0xEF#8
  ∧ appendChecksum (buildF2 Config.standard 0 0x36#8) = [0xE0#8, 0x36#8, 0x16#8]
  ∧ appendChecksum (buildF3 Config.standard 0 0xF3#8 0x01#8) = [0xE0#8, 0xF3#8, 0x01#8, 0xD4#8]
  ∧ appendChecksum (buildF4 Config.standard 0 0x92#8 0x1234) = [0xE0#8, 0x92#8, 0x12#8, 0x34#8, 0xB8#8]
  ∧ appendChecksum (buildF7 Config.standard 0 0xFD#8 0x05#8 3200)
      = [0xE0#8, 0xFD#8, 0x05#8, 0x00#8, 0x00#8, 0x0C#8, 0x80#8, 0x6E#8]

/-- R107 to R110: the decoders on every payload of their length, with each rule's corner cases and example. -/
def Obligations.DecodersReadBigEndian : Prop :=
  (∀ b1 b0 : Byte, decodeU16 [b1, b0] = b1.toNat * 256 + b0.toNat
    ∧ decodeS16 [b1, b0] = if b1.toNat < 128 then ((b1.toNat * 256 + b0.toNat : Nat) : Int)
        else ((b1.toNat * 256 + b0.toNat : Nat) : Int) - 65536)
  ∧ (∀ b3 b2 b1 b0 : Byte,
      decodeU32 [b3, b2, b1, b0] = ((b3.toNat * 256 + b2.toNat) * 256 + b1.toNat) * 256 + b0.toNat
      ∧ decodeS32 [b3, b2, b1, b0] = if b3.toNat < 128 then (decodeU32 [b3, b2, b1, b0] : Int)
          else (decodeU32 [b3, b2, b1, b0] : Int) - 4294967296)
  ∧ decodeU16 [0x12#8, 0x34#8] = 4660
  ∧ decodeS16 [0x80#8, 0x00#8] = -32768 ∧ decodeS16 [0x7F#8, 0xFF#8] = 32767
  ∧ decodeS16 [0xFF#8, 0xFF#8] = -1 ∧ decodeS16 [0xFF#8, 0xFE#8] = -2
  ∧ decodeU32 [0x00#8, 0x00#8, 0x30#8, 0x39#8] = 12345
  ∧ decodeS32 [0x80#8, 0#8, 0#8, 0#8] = -2147483648 ∧ decodeS32 [0xFF#8, 0xFF#8, 0xFF#8, 0xFF#8] = -1
  ∧ decodeS32 [0xFF#8, 0xFF#8, 0xF9#8, 0xC0#8] = -1600

/-- 40_codec.md section 3 (R111, R118; the law and the round trip are inferences the spec marks as its own): `fixOverflow` of a
position payload is its two's-complement value, `fixOverflow(d mod 2^32) = d` on the signed 32-bit range, and `2^31` gives
`−2^31`. -/
def Obligations.FixOverflowInvertsWraparound : Prop :=
  ∀ cfg : Config, cfg.overflowThreshold = 2147483647 →
    (∀ b3 b2 b1 b0 : Byte, fixOverflow cfg (decodeU32 [b3, b2, b1, b0]) = decodeS32 [b3, b2, b1, b0])
    ∧ (∀ d : Int, -2147483648 ≤ d → d ≤ 2147483647 → fixOverflow cfg (d % 4294967296).toNat = d)
    ∧ fixOverflow cfg ((2147483648 : Int) % 4294967296).toNat = -2147483648

/-- R112: a speed in [0, speedMax] becomes its magnitude with bit 7 for reverse, a speed outside is `OutOfRange`; the corner
cases and the example. -/
def Obligations.EncodeSpeedFoldsDirection : Prop :=
  (∀ (cfg : Config) (speed : Int) (forward : Bool), cfg.speedMax ≤ 127 → 0 ≤ speed → speed ≤ cfg.speedMax →
    ∃ b : Byte, encodeSpeed cfg speed forward = some b ∧ (b.toNat : Int) = (if forward then 0x00 else 0x80) + speed)
  ∧ (∀ (cfg : Config) (speed : Int) (forward : Bool), (speed < 0 ∨ (cfg.speedMax : Int) < speed) →
      encodeSpeed cfg speed forward = none)
  ∧ ∀ cfg : Config, cfg.speedMax = 127 →
      encodeSpeed cfg 0 true = some 0x00#8 ∧ encodeSpeed cfg 0 false = some 0x80#8
      ∧ encodeSpeed cfg 127 true = some 0x7F#8 ∧ encodeSpeed cfg 127 false = some 0xFF#8
      ∧ (∀ forward : Bool, encodeSpeed cfg 128 forward = none ∧ encodeSpeed cfg (-1) forward = none)
      ∧ encodeSpeed cfg 5 true = some 0x05#8

/-- 40_codec.md section 4 (R113, whose law the spec marks as its own inference): the speed byte of every speed and direction in
range reads back, and every byte is the speed byte of what it reads as. -/
def Obligations.SpeedByteRoundTrip : Prop :=
  (∀ (cfg : Config) (speed : Nat) (forward : Bool) (b : Byte), cfg.speedMax ≤ 127 →
    encodeSpeed cfg speed forward = some b → decodeSpeedByte b = (speed, forward))
  ∧ (∀ (cfg : Config) (b : Byte), cfg.speedMax = 127 →
      encodeSpeed cfg (decodeSpeedByte b).1 (decodeSpeedByte b).2 = some b)

/-- R114: the wire speed is `rtzSpeedMax − clamp(speed, 0, rtzSpeedMax)`; every corner case of the rule. -/
def Obligations.RtzSpeedIsInvertedAndClamped : Prop :=
  (∀ (cfg : Config) (speed : Int), cfg.rtzSpeedMax ≤ 255 →
    ((rtzSpeedWire cfg speed).toNat : Int)
      = cfg.rtzSpeedMax - (if speed < 0 then (0 : Int) else if (cfg.rtzSpeedMax : Int) < speed then (cfg.rtzSpeedMax : Int) else speed))
  ∧ ∀ cfg : Config, cfg.rtzSpeedMax = 4 →
      rtzSpeedWire cfg 0 = 4#8 ∧ rtzSpeedWire cfg 4 = 0#8 ∧ rtzSpeedWire cfg 2 = 2#8 ∧ rtzSpeedWire cfg 7 = 0#8
      ∧ rtzSpeedWire cfg (-3) = 4#8 ∧ rtzSpeedWire cfg 1 = 3#8

/-- R116: a frame matches an index if and only if it has two bytes and the first is the index's wire address; the examples. -/
def Obligations.MatchesComparesFirstByte : Prop :=
  (∀ (cfg : Config) (a : Index) (A b : Byte) (rest : List Byte),
    matchesIndex cfg (A :: b :: rest) a = true ↔ A = wireAddr cfg a)
  ∧ (∀ (cfg : Config) (a : Index) (A : Byte), matchesIndex cfg [A] a = false ∧ matchesIndex cfg [] a = false)
  ∧ (∀ (cfg : Config) (a b : Index) (rest : List Byte), b ≠ a → matchesIndex cfg (wireAddr cfg b :: rest) a = false)
  ∧ matchesIndex Config.standard [0xE1#8, 0x01#8, 0xE2#8] 1 = true
  ∧ matchesIndex Config.standard [0xE1#8, 0x01#8, 0xE2#8] 0 = false
  ∧ matchesIndex Config.standard [0xE0#8] 0 = false

/-! ### Encoding (30_encoding.md) -/

/-- Four frames written out from R71, R72, R74 and R82 decode to their operations, under the configuration of `State.reset`, whose
command and value bytes other than 0x36 are PRESUMED (log entry 2). Three wrong frames are refused by name: the refusals and
their names are the model's choice (log entry 18). -/
def Obligations.WrittenOutWordsDecode : Prop :=
  decodeFrame Config.standard [0xE0#8, 0x36#8, 0x16#8] = .ok (.readPosition 0)
  ∧ decodeFrame Config.standard [0xE0#8, 0xF3#8, 0x01#8, 0xD4#8] = .ok (.setEnable 0 true)
  ∧ decodeFrame Config.standard [0xE3#8, 0xFD#8, 0x94#8, 0x00#8, 0x00#8, 0x06#8, 0x40#8, 0xBA#8]
      = .ok (.movePulses 3 .rev 20 1600)
  ∧ decodeFrame Config.standard [0xE0#8, 0x92#8, 0x03#8, 0x75#8] = .ok (.rtzSpeed 0 1)
  ∧ decodeFrame Config.standard [0xE0#8, 0x36#8, 0x17#8] = .error .badChecksum
  ∧ decodeFrame Config.standard [0xE0#8, 0x35#8, 0x15#8] = .error .noSuchCommand
  ∧ decodeFrame Config.standard [0x05#8, 0x36#8, 0x3B#8] = .error .noSuchAddress

/-- Decode of encode is the operation, for every operation whose operands its frame carries and every configuration with
distinct commands and value bytes (R70 to R82). -/
def Obligations.DecodeOfEncodeIsOperation : Prop :=
  ∀ (cfg : Config) (i : Instr), cfg.encodable = true → i.wellFormed cfg = true →
    decodeFrame cfg (encode cfg i) = .ok i

/-- A frame that decodes is the encoding of what it decodes to, and that operation is well formed (R70 to R85). -/
def Obligations.DecodedFrameIsItsEncoding : Prop :=
  ∀ (cfg : Config) (f : Frame) (i : Instr), decodeFrame cfg f = .ok i → i.wellFormed cfg = true ∧ encode cfg i = f

/-! ### The caller port (30_encoding.md R84, 41_dispatcher.md R144, 60_exceptions.md R223) -/

/-- R84, R86, R181: a descriptor that names no operation or pseudo-operation, whose first argument is no integer, or whose other
arguments are too few, too many or of the wrong types, sets `refused` and does nothing else; every other leaves `refused` as it
is. -/
def Obligations.UndecodableDescriptorIsRefused : Prop :=
  (∀ (s : State) (d : Descriptor), decodable d = false → submit d s = { s with refused := true })
  ∧ (∀ (s : State) (d : Descriptor), decodable d = true → (submit d s).refused = s.refused)
  ∧ (∀ (n : Nat) (args : List Arg), decodable ⟨.unknown n, args⟩ = false)
  ∧ (∀ (a e : Int), e ≠ 0 → e ≠ 1 → decodable ⟨.op .setEnable, [.int a, .int e]⟩ = false)
  ∧ (∀ (a : Int) (m : Arg), m ≠ .dir → m ≠ .near → decodable ⟨.op .rtzMode, [.int a, m]⟩ = false)
  ∧ (∀ r : Row, decodable ⟨.op r, []⟩ = false)

/-- R84, R223, R6: a decodable descriptor of any operation or pseudo-operation whose index is outside `[0, nAddr − 1]` is
`Fault(BadAddress)` at the port, whatever the state: no frame, no state changed but `faulted` (and the outcome delivered). -/
def Obligations.BadAddressFaultsAtPort : Prop :=
  ∀ (s : State) (name : CallName) (v : Int) (args : List Arg),
    decodable ⟨name, .int v :: args⟩ = true → (v < 0 ∨ (s.cfg.nAddr : Int) ≤ v) →
    submit ⟨name, .int v :: args⟩ s
      = { s with faulted := true, delivered := s.delivered ++ [⟨s.now, v, .fault .badAddress, true⟩] }

/-- R144, Acceptance: an idle port of the build takes the operation, at its start, and nothing else changes. -/
def Obligations.IdlePortAcceptsOperation : Prop :=
  ∀ (s : State) (i : Instr), s.cfg.hasIndex i.index = true → (s.ch i.index).seq = .idle →
    submit (descriptorOf i) s
      = { s with chans := s.chans.set i.index.val { s.ch i.index with seq := .run i .start {}, script := [] } }

/-- R144, Overlap: a submission at a busy port of the build is `Fault(OverlapSameAddress)` with the sticky mark, or `Busy` with
nothing changed, by the policy; the running operation goes on. The third clause is the model's choice (log entry 11) and no rule's:
`exec` of an operation on an index that runs another one answers as the port does. -/
def Obligations.BusyPortTurnsSubmissionAway : Prop :=
  ∀ (s : State) (i j : Instr) (pc : Pc) (loc : Locals), s.cfg.hasIndex i.index = true →
    (s.ch i.index).seq = .run j pc loc →
    (s.cfg.overlapPolicy = .fault →
      submit (descriptorOf i) s
        = { s with faulted := true, delivered := s.delivered ++ [⟨s.now, (i.index.val : Int), .fault .overlapSameAddress, true⟩] })
    ∧ (s.cfg.overlapPolicy = .busy →
      submit (descriptorOf i) s
        = { s with delivered := s.delivered ++ [⟨s.now, (i.index.val : Int), .busy, true⟩] })
    ∧ (j ≠ i → exec i s = .next (submit (descriptorOf i) s))

/-- R86, R206, R207 at an idle port: ENABLE and DISABLE start SET_ENABLE 1 and 0; CONFIG_RTZ_DIR starts RTZ_MODE dir and leaves
RTZ_SPEED and RTZ_DIRECTION to issue; CONFIG_RTZ_NEAR is RTZ_MODE near alone; a caller with an operation left issues it once its
port is idle (when it does so is the model's choice, log entry 5). -/
def Obligations.PseudoOperationsExpand : Prop :=
  ∀ (s : State) (a : Index), s.cfg.hasIndex a = true → (s.ch a).seq = .idle →
    let accepted := fun (i : Instr) (rest : List Instr) =>
      { s with chans := s.chans.set a.val { s.ch a with seq := .run i .start {}, script := rest } }
    submit ⟨.enable, [.int a.val]⟩ s = accepted (.setEnable a true) []
    ∧ submit ⟨.disable, [.int a.val]⟩ s = accepted (.setEnable a false) []
    ∧ (∀ (speed : Int) (d : Direction),
      submit ⟨.configRtzDir, [.int a.val, .int speed, if d = .fwd then .fwd else .rev]⟩ s
        = accepted (.rtzMode a .dir) [.rtzSpeed a speed, .rtzDirection a d])
    ∧ submit ⟨.configRtzNear, [.int a.val]⟩ s = accepted (.rtzMode a .near) []
    ∧ (∀ (i : Instr) (rest : List Instr), (s.ch a).script = i :: rest → issueNext s a = accepted i rest)

/-! ### The step (20_memory.md R63) -/

/-- R63, R144: where nothing runs and one operation is submitted, the step is the environment phase, that operation's `exec`, and
`now + 1`; so it is where one operation runs, nothing is submitted and no caller has anything to issue. -/
def Obligations.StepRunsSubmittedOperation : Prop :=
  ∀ (s : State) (inp : TickInput) (rest : List TickInput) (i : Instr), s.inputs = inp :: rest →
    s.cfg.hasIndex i.index = true →
    ((inp.calls = [descriptorOf i] ∧ AllIdle s)
      ∨ (inp.calls = [] ∧ (∃ (pc : Pc) (loc : Locals), (s.ch i.index).seq = .run i pc loc)
          ∧ ∀ b : Index, b ≠ i.index → (s.ch b).seq = .idle ∧ (s.ch b).script = [])) →
    step s =
      match exec i { s with
          inputs := rest
          txOpen := linkAfter inp.link s.txOpen
          rxSlot := slotAfter inp.rx s.rxSlot } with
      | .next t => .next { t with now := t.now + 1 }
      | .fault r => .fault r
      | .refused r => .refused r

/-- The operation a table word decodes to is what the next step runs (the model's own placement, log entry 9). -/
def Obligations.StepRunsTableWord : Prop :=
  ∀ (s : State) (nbits w : Nat) (i : Instr), decodeTableWord nbits w = some i → s.cfg.hasIndex i.index = true →
    AllIdle s → s.inputs = [] →
    step (s.withFetchWord nbits w) =
      match exec i s with
      | .next t => .next { t with now := t.now + 1 }
      | .fault r => .fault r
      | .refused r => .refused r

/-- R30, R21, R22, R32: every step advances `now` by one, keeps the configuration, follows the transport's link event and
nothing else in `txOpen`, and clears neither sticky mark. -/
def Obligations.StepAdvancesTimeAndKeepsMarks : Prop :=
  ∀ s t : State, step s = .next t →
    t.now = s.now + 1 ∧ t.cfg = s.cfg ∧ t.txOpen = linkAfter (thisInput s).link s.txOpen ∧ t.inputs = s.inputs.drop 1
    ∧ (s.faulted = true → t.faulted = true) ∧ (s.refused = true → t.refused = true)

/-- R24, R31: the engine only appends to `txLog` and to `diag`, and an outcome delivered stays delivered. -/
def Obligations.StepOnlyAppendsToLogs : Prop :=
  ∀ s t : State, step s = .next t → s.txLog <+: t.txLog ∧ s.diag <+: t.diag ∧ s.delivered <+: t.delivered

/-! ### A `Send` begins (41_dispatcher.md R131 to R135, R143) -/

/-- The six reads on a ready index of an open transport write `[W(a), C, checksum]` in the tick of acceptance, record the
command and settle, with the default timeout (R161 to R166, R132 to R135). -/
def Obligations.ReadsWriteTheirRequest : Prop :=
  ∀ (s : State) (a : Index), Ready a s → s.txOpen = true → 1 ≤ s.cfg.settleTicks →
    ∀ p ∈ [(Instr.readPosition a, s.cfg.cmdReadPosition), (.readEncoder a, s.cfg.cmdReadEncoder),
           (.readPulses a, s.cfg.cmdReadPulses), (.readAngleError a, s.cfg.cmdReadAngleError),
           (.readDriverState a, s.cfg.cmdReadDriverState), (.readBlockFlag a, s.cfg.cmdReadBlockFlag)],
      exec p.1 s = .next (sent p.1 .inSend {} p.2 (.settle p.2 s.cfg.tDefault s.cfg.settleTicks)
        (frameF2 s.cfg a p.2) s)

/-- START with a speed in range, STOP, and MOVE_PULSES with both arguments in range write their request (R184 to R186): START's
byte is the speed with bit 7 for reverse, the move's count is big-endian. -/
def Obligations.MotionWritesItsRequest : Prop :=
  ∀ (s : State) (a : Index), Ready a s → s.txOpen = true → 1 ≤ s.cfg.settleTicks →
    exec (.stop a) s = .next (sent (.stop a) .inSend {} s.cfg.cmdStop
      (.settle s.cfg.cmdStop s.cfg.tDefault s.cfg.settleTicks) (frameF2 s.cfg a s.cfg.cmdStop) s)
    ∧ ∀ (d : Direction) (speed : Nat), speed ≤ s.cfg.speedMax → s.cfg.speedMax ≤ 127 →
        let v : Byte := BitVec.ofNat 8 ((if d = .fwd then 0 else 128) + speed)
        exec (.start a d speed) s = .next (sent (.start a d speed) .inSend {} s.cfg.cmdStart
          (.settle s.cfg.cmdStart s.cfg.tDefault s.cfg.settleTicks) (frameF3 s.cfg a s.cfg.cmdStart v) s)
        ∧ ∀ p3 p2 p1 p0 : Byte,
            let n : Nat := ((p3.toNat * 256 + p2.toNat) * 256 + p1.toNat) * 256 + p0.toNat
            exec (.movePulses a d speed n) s = .next (sent (.movePulses a d speed n) .inSend {} s.cfg.cmdMovePulses
              (.settle s.cfg.cmdMovePulses s.cfg.tDefault s.cfg.settleTicks)
              (frameF7 s.cfg a s.cfg.cmdMovePulses v p3 p2 p1 p0) s)

/-- The return-to-zero operations and CALIBRATE write their request with their value byte and their own timeout (R200 to R205,
R142): RTZ_SPEED for every speed, clamped. -/
def Obligations.RtzAndCalibrateWriteTheirRequest : Prop :=
  ∀ (s : State) (a : Index), Ready a s → s.txOpen = true → 1 ≤ s.cfg.settleTicks →
    let writes := fun (i : Instr) (cmd v : Byte) (timeout : Nat) =>
      exec i s = .next (sent i .inSend {} cmd (.settle cmd timeout s.cfg.settleTicks) (frameF3 s.cfg a cmd v) s)
    writes (.rtzSetPoint a) s.cfg.cmdRtzSetPoint s.cfg.actionArg s.cfg.tRtzSetPoint
    ∧ writes (.rtzMode a .dir) s.cfg.cmdRtzMode s.cfg.rtzModeDir s.cfg.tDefault
    ∧ writes (.rtzMode a .near) s.cfg.cmdRtzMode s.cfg.rtzModeNear s.cfg.tDefault
    ∧ (∀ speed : Int, writes (.rtzSpeed a speed) s.cfg.cmdRtzSpeed
        (BitVec.ofInt 8 (s.cfg.rtzSpeedMax - min (max speed 0) s.cfg.rtzSpeedMax)) s.cfg.tDefault)
    ∧ writes (.rtzDirection a .fwd) s.cfg.cmdRtzDirection s.cfg.rtzDirFwd s.cfg.tDefault
    ∧ writes (.rtzDirection a .rev) s.cfg.cmdRtzDirection s.cfg.rtzDirRev s.cfg.tDefault
    ∧ writes (.rtzGoto a) s.cfg.cmdRtzGoto s.cfg.actionArg s.cfg.tRtzGoto
    ∧ writes (.calibrate a) s.cfg.cmdCalibrate s.cfg.actionArg s.cfg.tCalibrate

/-- SET_ENABLE (R181, R182): enabling a disabled shadow writes a position read first; every other form writes the enable command
at once, a disable too; after a read the enable command is written, and after a failed read the next read. -/
def Obligations.SetEnableWritesItsRequest : Prop :=
  ∀ (s : State) (a : Index), (s.ch a).dsp = .idle → s.txOpen = true → 1 ≤ s.cfg.settleTicks →
    let read := fun (loc : Locals) => sent (.setEnable a true) .inRead loc s.cfg.cmdReadPosition
      (.settle s.cfg.cmdReadPosition s.cfg.tDefault s.cfg.settleTicks) (frameF2 s.cfg a s.cfg.cmdReadPosition) s
    let command := fun (e : Bool) (loc : Locals) => sent (.setEnable a e) .inSend loc s.cfg.cmdSetEnable
      (.settle s.cfg.cmdSetEnable s.cfg.tDefault s.cfg.settleTicks)
      (frameF3 s.cfg a s.cfg.cmdSetEnable (if e then s.cfg.enOn else s.cfg.enOff)) s
    ((s.ch a).seq = .idle → (s.ch a).isEnabled = false → exec (.setEnable a true) s = .next (read ⟨1, none⟩))
    ∧ ((s.ch a).seq = .idle → (s.ch a).isEnabled = true → exec (.setEnable a true) s = .next (command true {}))
    ∧ ((s.ch a).seq = .idle → exec (.setEnable a false) s = .next (command false {}))
    ∧ (∀ loc : Locals, (s.ch a).seq = .run (.setEnable a true) .readDue loc →
        exec (.setEnable a true) s = .next (read loc))
    ∧ (∀ loc : Locals, (s.ch a).seq = .run (.setEnable a true) .enableDue loc →
        exec (.setEnable a true) s = .next (command true loc))

/-- R131, R221, R182: with the transport not open, every operation on a ready index whose arguments are in range ends at once with
`Abort(TransportNotOpen)`, logged; no frame is written, the pending command is not recorded, and nothing else changes. So does an
enable about to begin its next `Send`. -/
def Obligations.ClosedTransportAborts : Prop :=
  (∀ (s : State) (i : Instr), Ready i.index s → s.txOpen = false → outOfRange s.cfg i = false →
    exec i s = .next { s with
      diag := s.diag ++ [⟨s.now, i.index, .transportNotOpen⟩]
      delivered := s.delivered ++ [⟨s.now, (i.index.val : Int), .abort .transportNotOpen, true⟩]
      chans := s.chans.set i.index.val { s.ch i.index with script := [] } })
  ∧ (∀ (s : State) (a : Index) (pc : Pc) (loc : Locals), (pc = .readDue ∨ pc = .enableDue) →
    (s.ch a).seq = .run (.setEnable a true) pc loc → (s.ch a).dsp = .idle → s.txOpen = false →
    exec (.setEnable a true) s = .next { s with
      diag := s.diag ++ [⟨s.now, a, .transportNotOpen⟩]
      delivered := s.delivered ++ [⟨s.now, (a.val : Int), .abort .transportNotOpen, true⟩]
      chans := s.chans.set a.val { s.ch a with seq := .idle, script := [] } })

/-- R187, R184, R186: START or MOVE_PULSES with an argument out of range ends `Abort(OutOfRange)` in the tick of acceptance,
whether the transport is open or not, and writes nothing but `diag` (and the outcome, and its caller's script ends). -/
def Obligations.OutOfRangeArgumentAborts : Prop :=
  ∀ (s : State) (i : Instr), Ready i.index s → outOfRange s.cfg i = true →
    exec i s = .next { s with
      diag := s.diag ++ [⟨s.now, i.index, .outOfRange⟩]
      delivered := s.delivered ++ [⟨s.now, (i.index.val : Int), .abort .outOfRange, true⟩]
      chans := s.chans.set i.index.val { s.ch i.index with script := [] } }

/-- R143, R149: with no settle delay the first poll is made in the tick of the write, on the slot as the write leaves it. Said of
an operation that writes its own command first: its step is the step of the state after the write, in `Await(cmd, T, 0)`. -/
def Obligations.NoSettleDelayPollsAtOnce : Prop :=
  ∀ (s : State) (i : Instr),
    (oneSendOp i = true ∨ i = .setEnable i.index false ∨ (i = .setEnable i.index true ∧ (s.ch i.index).isEnabled = true)) →
    Ready i.index s → s.txOpen = true → s.cfg.settleTicks = 0 → outOfRange s.cfg i = false →
    exec i s = exec i (sent i .inSend {} (s.cfg.cmdByte i.row) (.await (s.cfg.cmdByte i.row) (rowTimeout s.cfg i.row) 0)
      (encode s.cfg i) s)

/-- The same of the `Send`s of an enable from the disabled shadow: its first read, a retry, and the command after a read (R143,
R181, R182). -/
def Obligations.EnableWithNoSettleDelayPollsAtOnce : Prop :=
  ∀ (s : State) (a : Index) (loc : Locals), (s.ch a).dsp = .idle → s.txOpen = true → s.cfg.settleTicks = 0 →
    let read := fun (loc : Locals) => sent (.setEnable a true) .inRead loc s.cfg.cmdReadPosition
      (.await s.cfg.cmdReadPosition s.cfg.tDefault 0) (frameF2 s.cfg a s.cfg.cmdReadPosition) s
    ((s.ch a).seq = .idle → (s.ch a).isEnabled = false →
        exec (.setEnable a true) s = exec (.setEnable a true) (read ⟨1, none⟩))
    ∧ ((s.ch a).seq = .run (.setEnable a true) .readDue loc →
        exec (.setEnable a true) s = exec (.setEnable a true) (read loc))
    ∧ ((s.ch a).seq = .run (.setEnable a true) .enableDue loc →
        exec (.setEnable a true) s = exec (.setEnable a true)
          (sent (.setEnable a true) .inSend loc s.cfg.cmdSetEnable (.await s.cfg.cmdSetEnable s.cfg.tDefault 0)
            (frameF3 s.cfg a s.cfg.cmdSetEnable s.cfg.enOn) s))

/-! ### A `Send` goes on and ends (41_dispatcher.md R135 to R143) -/

/-- R135, R136, R143: a settle tick with more than one left only counts down; the last one is the first poll. From there a poll is
made at tick 0, at the timeout and every `pollTick` ticks between, with the spec's `pollTick` in every tick; for another `pollTick`
this is the model's choice (log entry 7). -/
def Obligations.SettleDelayDoesNotPoll : Prop :=
  (∀ (s : State) (i : Instr) (pc : Pc) (loc : Locals) (cmd : Byte) (timeout : Nat),
    (pc = .inSend ∨ (pc = .inRead ∧ oneSendOp i = false)) → (s.ch i.index).seq = .run i pc loc →
    (∀ rem : Nat, (s.ch i.index).dsp = .settle cmd timeout (rem + 2) →
      exec i s = .next (moved i.index (.run i pc loc) (.settle cmd timeout (rem + 1)) (s.ch i.index).pending s))
    ∧ ((s.ch i.index).dsp = .settle cmd timeout 1 →
      exec i s = exec i (moved i.index (.run i pc loc) (.await cmd timeout 0) (s.ch i.index).pending s)))
  ∧ (∀ (cfg : Config) (timeout : Nat), pollDue cfg timeout 0 = true ∧ pollDue cfg timeout timeout = true)
  ∧ (∀ (cfg : Config) (timeout t : Nat), cfg.pollTick = 1 → pollDue cfg timeout t = true)
  ∧ (∀ (cfg : Config) (timeout n k : Nat), k < cfg.pollTick → n * cfg.pollTick + k < timeout →
      (pollDue cfg timeout (n * cfg.pollTick + k) = true ↔ k = 0))

/-- R137, R138: a poll before the timeout that finds nothing, a short frame or a frame for another address leaves the slot and
everything else and counts one tick, for every operation. So does a tick that has no poll, whatever the slot holds (there is none
with the spec's `pollTick`; log entry 7). -/
def Obligations.UnmatchedPollOnlyCounts : Prop :=
  ∀ (s : State) (i : Instr) (loc : Locals) (cmd : Byte) (timeout t : Nat),
    (slotMatches i.index s = false ∨ pollDue s.cfg timeout t = false) → t < timeout →
    (Waiting i loc cmd timeout t s →
      exec i s = .next (moved i.index (.run i .inSend loc) (.await cmd timeout (t + 1)) (s.ch i.index).pending s))
    ∧ (i = .setEnable i.index true → WaitingRead i.index loc cmd timeout t s →
      exec i s = .next (moved i.index (.run i .inRead loc) (.await cmd timeout (t + 1)) (s.ch i.index).pending s))

/-- R141: the poll at `t = T` without a matching frame ends the transaction `Absent(Timeout)`, logged, and the slot is not cleared;
in a `Send` of the operation's own command the operation ends with it in that tick. -/
def Obligations.LastUnmatchedPollTimesOut : Prop :=
  (∀ (s : State) (a : Index) (cmd : Byte) (timeout : Nat), slotMatches a s = false →
    poll a cmd timeout timeout s
      = ({ s with
            chans := s.chans.set a.val { s.ch a with pending := none, dsp := .idle }
            diag := s.diag ++ [⟨s.now, a, .timeout⟩] },
         some (.absent .timeout)))
  ∧ ∀ (s : State) (i : Instr) (loc : Locals) (cmd : Byte) (timeout t : Nat),
    Waiting i loc cmd timeout t s → slotMatches i.index s = false → timeout ≤ t →
    exec i s = .next { ended i.index (.absent .timeout) id s with
      diag := s.diag ++ [⟨s.now, i.index, .timeout⟩] }

/-- R140: a poll that finds a matching frame with a wrong checksum ends the transaction `Absent(ChecksumMismatch)`, logged, and the
frame is consumed; in a `Send` of the operation's own command the operation ends with it in that tick. That this holds of the last
poll too, at `t = T`, is R149, which the spec marks as its own inference, and the model's choice to make that poll (log entry
10). -/
def Obligations.WrongChecksumEndsOperation : Prop :=
  (∀ (s : State) (a : Index) (cmd : Byte) (timeout t : Nat) (r : Frame), pollDue s.cfg timeout t = true →
    s.rxSlot = some r → matchesIndex s.cfg r a = true → verifyChecksum r = false →
    poll a cmd timeout t s
      = ({ s with
            rxSlot := none
            chans := s.chans.set a.val { s.ch a with pending := none, dsp := .idle }
            diag := s.diag ++ [⟨s.now, a, .checksumMismatch⟩] },
         some (.absent .checksumMismatch)))
  ∧ ∀ (s : State) (i : Instr) (loc : Locals) (cmd : Byte) (timeout t : Nat) (r : Frame),
    Polling i loc cmd timeout t s → s.rxSlot = some r → matchesIndex s.cfg r i.index = true →
    verifyChecksum r = false →
    exec i s = .next { replied i.index (.absent .checksumMismatch) id s with
      diag := s.diag ++ [⟨s.now, i.index, .checksumMismatch⟩] }

/-- R168, R180: a checksum-valid response with too short a payload is `Fault(ShortPayload)` with the sticky mark: fewer bytes
than the read's length, or none for an action. -/
def Obligations.ShortPayloadFaults : Prop :=
  ∀ (s : State) (i : Instr) (loc : Locals) (cmd : Byte) (timeout t : Nat) (p : List Byte),
    Polling i loc cmd timeout t s → Response i.index p s →
    let len : Nat := match i with
      | .readPosition _ => s.cfg.shapePosition.len
      | .readEncoder _ => s.cfg.shapeEncoder.len
      | .readPulses _ => s.cfg.shapePulses.len
      | .readAngleError _ => s.cfg.shapeAngleError.len
      | .readDriverState _ => s.cfg.shapeDriverState.len
      | .readBlockFlag _ => s.cfg.shapeBlockFlag.len
      | _ => 1
    p.length < len →
    exec i s = .next { replied i.index (.fault .shortPayload) id s with faulted := true }

/-! ### Results of the reads (42_reads.md) -/

/-- R161: READ_POSITION of a four-byte payload, longer ones cut, is `fixOverflow(u32) + offset[a]`, in every unbounded build
(D20) and wherever the sum fits a fixed width; the offset stays. -/
def Obligations.ReadPositionAddsOffset : Prop :=
  ∀ (s : State) (a : Index) (loc : Locals) (cmd : Byte) (timeout t : Nat) (b3 b2 b1 b0 : Byte) (extra : List Byte),
    Polling (.readPosition a) loc cmd timeout t s → Response a (b3 :: b2 :: b1 :: b0 :: extra) s →
    s.cfg.shapePosition.len = 4 → s.cfg.overflowThreshold = 2147483647 →
    let u : Nat := ((b3.toNat * 256 + b2.toNat) * 256 + b1.toNat) * 256 + b0.toNat
    let raw : Int := if 2147483647 < u then (u : Int) - 4294967296 else u
    InWidth s.cfg (raw + (s.ch a).offset) →
    exec (.readPosition a) s = .next (replied a (.value (raw + (s.ch a).offset)) id s)

/-- U26, D20 (the model's choice, log entry 8): in a fixed-width build a logical position, or an offset to capture, outside the
width is a fault under the model's own name, and the enable sends no command. -/
def Obligations.FixedWidthOverflowFaults : Prop :=
  ∀ (s : State) (a : Index) (loc : Locals) (cmd : Byte) (timeout t : Nat) (p : List Byte) (w : Nat),
    Response a p s → s.cfg.shapePosition.len ≤ p.length → s.cfg.offsetWidth = some w →
    let raw : Int := rawOfPayload s.cfg (p.take s.cfg.shapePosition.len)
    let outside : Int → Prop := fun v => 2 * v < -(2 ^ w : Int) ∨ (2 ^ w : Int) ≤ 2 * v
    (Polling (.readPosition a) loc cmd timeout t s → outside (raw + (s.ch a).offset) →
      exec (.readPosition a) s = .next { replied a (.fault .offsetOverflow) id s with faulted := true })
    ∧ (PollingRead a loc cmd timeout t s → outside (captureOffset s.cfg raw (s.ch a).offset) →
      exec (.setEnable a true) s = .next { replied a (.fault .offsetOverflow) id s with faulted := true })

/-- R162, R164: READ_ENCODER gives the unsigned and READ_ANGLE_ERROR the signed sixteen-bit value. -/
def Obligations.SixteenBitReadsDecode : Prop :=
  ∀ (s : State) (a : Index) (loc : Locals) (cmd : Byte) (timeout t : Nat) (b1 b0 : Byte) (extra : List Byte),
    Response a (b1 :: b0 :: extra) s →
    let u : Nat := b1.toNat * 256 + b0.toNat
    (s.cfg.shapeEncoder = ⟨2, false⟩ → Polling (.readEncoder a) loc cmd timeout t s →
      exec (.readEncoder a) s = .next (replied a (.value u) id s))
    ∧ (s.cfg.shapeAngleError = ⟨2, true⟩ → Polling (.readAngleError a) loc cmd timeout t s →
      exec (.readAngleError a) s = .next (replied a (.value (if u < 32768 then (u : Int) else (u : Int) - 65536)) id s))

/-- R163: READ_PULSES gives the signed 32-bit value and adds no offset. -/
def Obligations.ReadPulsesIsSignedWithoutOffset : Prop :=
  ∀ (s : State) (a : Index) (loc : Locals) (cmd : Byte) (timeout t : Nat) (b3 b2 b1 b0 : Byte) (extra : List Byte),
    Polling (.readPulses a) loc cmd timeout t s → Response a (b3 :: b2 :: b1 :: b0 :: extra) s →
    s.cfg.shapePulses = ⟨4, true⟩ →
    let u : Nat := ((b3.toNat * 256 + b2.toNat) * 256 + b1.toNat) * 256 + b0.toNat
    exec (.readPulses a) s = .next (replied a
      (.value (if u < 2147483648 then (u : Int) else (u : Int) - 4294967296)) id s)

/-- R165, R166: READ_DRIVER_STATE and READ_BLOCK_FLAG give the raw byte; `isEnabled[a]` is not refreshed. -/
def Obligations.ByteReadsAreRaw : Prop :=
  ∀ (s : State) (a : Index) (loc : Locals) (cmd : Byte) (timeout t : Nat) (b : Byte) (extra : List Byte),
    Response a (b :: extra) s →
    (s.cfg.shapeDriverState = ⟨1, false⟩ → Polling (.readDriverState a) loc cmd timeout t s →
      exec (.readDriverState a) s = .next (replied a (.value b.toNat) id s))
    ∧ (s.cfg.shapeBlockFlag = ⟨1, false⟩ → Polling (.readBlockFlag a) loc cmd timeout t s →
      exec (.readBlockFlag a) s = .next (replied a (.value b.toNat) id s))

/-! ### Results of the actions (43_driver_motion.md, 44_rtz_calibrate.md) -/

/-- R180: START, STOP, MOVE_PULSES, RTZ_SET_POINT, RTZ_MODE, RTZ_SPEED, RTZ_DIRECTION and CALIBRATE end `Ok(b)`, `b` true exactly
when the first payload byte is `statusOk`; neither `isEnabled[a]` nor `offset[a]` changes. -/
def Obligations.PlainActionReportsStatus : Prop :=
  ∀ (s : State) (i : Instr) (loc : Locals) (cmd : Byte) (timeout t : Nat) (b : Byte) (extra : List Byte),
    plainAction i = true → Polling i loc cmd timeout t s → Response i.index (b :: extra) s →
    exec i s = .next (replied i.index (.ok (decide (b = s.cfg.statusOk))) id s)

/-- R204: RTZ_GOTO ends `Ok(b)` and sets `offset[a]` to 0 on `Ok(true)` only. -/
def Obligations.RtzGotoResetsOffsetOnSuccess : Prop :=
  ∀ (s : State) (a : Index) (loc : Locals) (cmd : Byte) (timeout t : Nat) (b : Byte) (extra : List Byte),
    Polling (.rtzGoto a) loc cmd timeout t s → Response a (b :: extra) s →
    (b = s.cfg.statusOk → exec (.rtzGoto a) s = .next (replied a (.ok true) (fun c => { c with offset := 0 }) s))
    ∧ (b ≠ s.cfg.statusOk → exec (.rtzGoto a) s = .next (replied a (.ok false) id s))

/-- R181, R183: the enable command ends `Ok(b)`; on `Ok(true)` the shadow becomes `e`, and after a position read the captured
offset is committed: `raw + old`, or `raw`, by `offsetCapture`. On `Ok(false)` neither changes. -/
def Obligations.SetEnableCommitsOnSuccess : Prop :=
  ∀ (s : State) (a : Index) (e : Bool) (loc : Locals) (cmd : Byte) (timeout t : Nat) (b : Byte) (extra : List Byte),
    Polling (.setEnable a e) loc cmd timeout t s → Response a (b :: extra) s →
    (b ≠ s.cfg.statusOk → exec (.setEnable a e) s = .next (replied a (.ok false) id s))
    ∧ (b = s.cfg.statusOk → loc.raw = none →
        exec (.setEnable a e) s = .next (replied a (.ok true) (fun c => { c with isEnabled := e }) s))
    ∧ (∀ raw : Int, b = s.cfg.statusOk → loc.raw = some raw →
        exec (.setEnable a e) s = .next (replied a (.ok true) (fun c => { c with
          isEnabled := e
          offset := if s.cfg.offsetCapture = .logical then raw + c.offset else raw }) s))

/-- R182, R144: a position read of the enable with a full payload ends with its raw position as a local, and the enable command
begins in the next tick; nothing is delivered and the shadow and the offset stay. -/
def Obligations.EnableReadKeepsRawPosition : Prop :=
  ∀ (s : State) (a : Index) (loc : Locals) (cmd : Byte) (timeout t : Nat) (b3 b2 b1 b0 : Byte) (extra : List Byte),
    PollingRead a loc cmd timeout t s → Response a (b3 :: b2 :: b1 :: b0 :: extra) s →
    s.cfg.shapePosition.len = 4 → s.cfg.overflowThreshold = 2147483647 →
    let u : Nat := ((b3.toNat * 256 + b2.toNat) * 256 + b1.toNat) * 256 + b0.toNat
    let raw : Int := if 2147483647 < u then (u : Int) - 4294967296 else u
    InWidth s.cfg (captureOffset s.cfg raw (s.ch a).offset) →
    exec (.setEnable a true) s = .next { moved a (.run (.setEnable a true) .enableDue { loc with raw := some raw }) .idle none s
      with rxSlot := none }

/-- R182: a position read of the enable that times out is tried again in the next tick, or at the last attempt ends the operation
`Abort(EnableNoPosition)`, both logged, with no enable command. -/
def Obligations.EnableReadIsRetriedThenAborts : Prop :=
  ∀ (s : State) (a : Index) (loc : Locals) (cmd : Byte) (timeout t : Nat),
    WaitingRead a loc cmd timeout t s → slotMatches a s = false → timeout ≤ t →
    (loc.attempt ≠ s.cfg.enableAttempts →
      exec (.setEnable a true) s = .next
        { moved a (.run (.setEnable a true) .readDue { loc with attempt := loc.attempt + 1 }) .idle none s with
          diag := s.diag ++ [⟨s.now, a, .timeout⟩] })
    ∧ (loc.attempt = s.cfg.enableAttempts →
      exec (.setEnable a true) s = .next { ended a (.abort .enableNoPosition) id s with
        diag := s.diag ++ [⟨s.now, a, .timeout⟩, ⟨s.now, a, .enableNoPosition⟩] })

/-- R182, R168, R140: a wrong checksum counts as an attempt, at the last one the operation ends `Abort(EnableNoPosition)`, and a
short payload ends the enable with `Fault(ShortPayload)`. -/
def Obligations.EnableReadFailures : Prop :=
  ∀ (s : State) (a : Index) (loc : Locals) (cmd : Byte) (timeout t : Nat), PollingRead a loc cmd timeout t s →
    (∀ r : Frame, s.rxSlot = some r → matchesIndex s.cfg r a = true → verifyChecksum r = false →
      (loc.attempt ≠ s.cfg.enableAttempts →
        exec (.setEnable a true) s = .next
          { moved a (.run (.setEnable a true) .readDue { loc with attempt := loc.attempt + 1 }) .idle none s with
            rxSlot := none
            diag := s.diag ++ [⟨s.now, a, .checksumMismatch⟩] })
      ∧ (loc.attempt = s.cfg.enableAttempts →
        exec (.setEnable a true) s = .next { replied a (.abort .enableNoPosition) id s with
          diag := s.diag ++ [⟨s.now, a, .checksumMismatch⟩, ⟨s.now, a, .enableNoPosition⟩] }))
    ∧ (∀ p : List Byte, Response a p s → p.length < s.cfg.shapePosition.len →
      exec (.setEnable a true) s = .next { replied a (.fault .shortPayload) id s with faulted := true })

/-! ### Whole-machine rules -/

/-- R37, R145, R36: an operation's step changes no other index, and not the configuration, the link, the time, the coming inputs
or the refused mark; it clears no mark, only clears the slot, and only appends. -/
def Obligations.OperationTouchesOnlyItsIndex : Prop :=
  ∀ (i : Instr) (s t : State), exec i s = .next t →
    (∀ b : Index, b ≠ i.index → t.ch b = s.ch b)
    ∧ t.cfg = s.cfg ∧ t.txOpen = s.txOpen ∧ t.now = s.now ∧ t.inputs = s.inputs ∧ t.refused = s.refused
    ∧ (s.faulted = true → t.faulted = true) ∧ (t.rxSlot = s.rxSlot ∨ t.rxSlot = none)
    ∧ s.txLog <+: t.txLog ∧ s.diag <+: t.diag ∧ s.delivered <+: t.delivered

/-- R29: `offset[a]` changes in two places only: the success of an enable that read a position, and the success of a
return-to-zero, which sets it to 0. That the SET_ENABLE is an enable and no disable needs a consistent state. -/
def Obligations.OffsetChangesInTwoPlaces : Prop :=
  ∀ (i : Instr) (s t : State), exec i s = .next t → (t.ch i.index).offset ≠ (s.ch i.index).offset →
    (∃ d : Delivery, t.delivered = s.delivered ++ [d] ∧ d.outcome = .ok true)
    ∧ ((∃ (e : Bool) (pc : Pc) (loc : Locals) (raw : Int), i = .setEnable i.index e ∧ (Consistent s → e = true)
          ∧ (s.ch i.index).seq = .run i pc loc ∧ loc.raw = some raw
          ∧ (t.ch i.index).offset = captureOffset s.cfg raw (s.ch i.index).offset)
       ∨ (i = .rtzGoto i.index ∧ (t.ch i.index).offset = 0))

/-- R28: only a successful SET_ENABLE changes `isEnabled[a]`, to its own argument. -/
def Obligations.OnlySetEnableChangesShadow : Prop :=
  ∀ (i : Instr) (s t : State), exec i s = .next t → (t.ch i.index).isEnabled ≠ (s.ch i.index).isEnabled →
    i = .setEnable i.index (t.ch i.index).isEnabled
    ∧ ∃ d : Delivery, t.delivered = s.delivered ++ [d] ∧ d.outcome = .ok true

/-- R57, R137, R138: a frame in the slot that the operation's index does not match is cleared only just before a request is
written, and only if `clearBeforeSend` says so. -/
def Obligations.OtherFramesStayInSlot : Prop :=
  ∀ (i : Instr) (s t : State), exec i s = .next t → slotMatches i.index s = false →
    (t.txLog = s.txLog ∨ s.cfg.clearBeforeSend = false) → t.rxSlot = s.rxSlot

/-- 41_dispatcher.md section 5 (R145, an inference the spec marks as its own): no frame matches two indices, so a frame is taken by
at most one. -/
def Obligations.FrameMatchesAtMostOneIndex : Prop :=
  ∀ (cfg : Config) (f : Frame) (a b : Index), matchesIndex cfg f a = true → matchesIndex cfg f b = true → a = b

/-- R138, R145: what the slot holds for other indices does not show in an operation's step: two states that differ in slots that
the index does not match step alike but for the slot. -/
def Obligations.OtherFramesDoNotShow : Prop :=
  ∀ (i : Instr) (s : State) (x y : Option Frame) (t : State),
    slotMatches i.index { s with rxSlot := x } = false → slotMatches i.index { s with rxSlot := y } = false →
    exec i { s with rxSlot := x } = .next t →
    ∃ z : Option Frame, exec i { s with rxSlot := y } = .next { t with rxSlot := z }

/-- R63: the order of two indices matters only for a clear before a send. Two indices that are both inside a `Send` reach the
same state in either order, but for the order in which the events and the outcomes of the two are appended. -/
def Obligations.PollingIndicesCommute : Prop :=
  ∀ (s s1 s12 s2 s21 : State) (a b : Index), a ≠ b → Consistent s → (s.ch a).dsp ≠ .idle → (s.ch b).dsp ≠ .idle →
    indexStep a s = .next s1 → indexStep b s1 = .next s12 → indexStep b s = .next s2 → indexStep a s2 = .next s21 →
    { s12 with diag := s21.diag, delivered := s21.delivered } = s21
    ∧ s12.diag.Perm s21.diag ∧ s12.delivered.Perm s21.delivered

/-- 41_dispatcher.md section 6 (R147.1, R147.2, inferences the spec marks as its own; R26, R27): every step keeps the invariant: `pending[a]` is the command of `dsp[a]`, a dispatcher that is not
idle has a running sequencer suspended in that very `Send`, and the counters stay in range. -/
def Obligations.StepKeepsConsistent : Prop :=
  ∀ s t : State, Consistent s → step s = .next t → Consistent t

/-- The invariant holds after reset, under every configuration in which an enable reads at least once (R38, R147). -/
def Obligations.ResetIsConsistent : Prop :=
  Consistent State.reset ∧ (∀ cfg : Config, 1 ≤ cfg.enableAttempts → Consistent (State.resetWith cfg))
  ∧ ∀ s : State, 1 ≤ s.cfg.enableAttempts → Consistent (resetEngine s)

/-- "Nothing in the engine is treated as stuck": a consistent state always has a next state, whatever the environment and the
callers do (R262, 93_implementation_defined.md). -/
def Obligations.ConsistentStateNeverStops : Prop :=
  ∀ s : State, Consistent s → ∃ t : State, step s = .next t

/-- 41_dispatcher.md section 6 (R147.3, an inference the spec marks as its own): an operation polling with no matching frame in the slot or on its way ends `Absent(Timeout)` at exactly the tick of
the poll `t = T`, with its event logged, whatever the other indices and callers do. -/
def Obligations.UnansweredSendTimesOutOnTime : Prop :=
  ∀ (s : State) (i : Instr) (loc : Locals) (cmd : Byte) (timeout t : Nat),
    Consistent s → Waiting i loc cmd timeout t s → slotMatches i.index s = false →
    NoMatchArrives i.index (timeout - t + 1) s →
    ∃ u : State, core.run (timeout - t + 1) s = .next u
      ∧ ⟨s.now + (timeout - t), (i.index.val : Int), .absent .timeout, true⟩ ∈ u.delivered
      ∧ ⟨s.now + (timeout - t), i.index, .timeout⟩ ∈ u.diag
      ∧ (u.ch i.index).seq = .idle ∧ (u.ch i.index).pending = none

/-- R262, R261: every running operation ends within `(enableAttempts + 1)(settleTicks + T + 1)` ticks, `T` the longest timeout,
by time alone, whatever the environment does. -/
def Obligations.EveryOperationEnds : Prop :=
  ∀ (s : State) (a : Index), Consistent s → (s.ch a).seq ≠ .idle →
    ∃ n : Nat, n ≤ operationTicks s.cfg ∧ ∃ t : State, core.run n s = .next t ∧ (t.ch a).seq = .idle

/-- R38: the value the reset action leaves in every piece of the spec's state; the configuration is kept. -/
def Obligations.ResetLeavesTheRulesValues : Prop :=
  ∀ s : State,
    let t := resetEngine s
    t.cfg = s.cfg ∧ t.txOpen = false ∧ t.rxSlot = none ∧ t.txLog = [] ∧ t.now = 0 ∧ t.diag = []
    ∧ t.faulted = false ∧ t.refused = false
    ∧ ∀ a : Index, (t.ch a).pending = none ∧ (t.ch a).dsp = .idle ∧ (t.ch a).seq = .idle
        ∧ (t.ch a).isEnabled = false ∧ (t.ch a).offset = 0

/-- R220: the code of every outcome; the code 0x43 of the model's own reason is not the rule's (log entry 8) and is not stated. -/
def Obligations.OutcomeCodesAreTheRules : Prop :=
  (∀ v : Int, outcomeCode (.value v) = 0x00) ∧ outcomeCode (.ok true) = 0x00 ∧ outcomeCode (.ok false) = 0x01
  ∧ outcomeCode (.absent .timeout) = 0x10 ∧ outcomeCode (.absent .checksumMismatch) = 0x11
  ∧ outcomeCode (.abort .transportNotOpen) = 0x20 ∧ outcomeCode (.abort .outOfRange) = 0x21
  ∧ outcomeCode (.abort .enableNoPosition) = 0x22 ∧ outcomeCode .busy = 0x30
  ∧ outcomeCode (.fault .overlapSameAddress) = 0x40 ∧ outcomeCode (.fault .shortPayload) = 0x41
  ∧ outcomeCode (.fault .badAddress) = 0x42
end

