-- ==== Sys2Proof/Laws/Codec.lean ====
section
/-! SUPPORT. The laws of the codec's functions: the checksum as a sum of bytes, verifying an appended checksum, wire addresses and
the correlation predicate. -/

namespace Sys2Proof.Machine

theorem byteSum_nil : byteSum [] = 0 := rfl

theorem byteSum_cons (b : Byte) (bs : List Byte) : byteSum (b :: bs) = b.toNat + byteSum bs := by
  simp [byteSum]

theorem byteSum_append (xs ys : List Byte) : byteSum (xs ++ ys) = byteSum xs + byteSum ys := by
  simp [byteSum]

@[simp] theorem checksum_toNat (bs : List Byte) : (checksum bs).toNat = byteSum bs % 256 := by
  simp [checksum]

@[simp] theorem checksum_nil : checksum [] = 0#8 := rfl

/-- The checksum is the wrapping sum of the bytes. -/
theorem checksum_cons (b : Byte) (bs : List Byte) : checksum (b :: bs) = b + checksum bs := by
  apply BitVec.eq_of_toNat_eq
  simp [byteSum_cons]

/-- A frame with a last byte verifies exactly when that byte is the checksum of the others. -/
theorem verify_concat (f : Frame) (k : Byte) (h : 1 ≤ f.length) :
    verifyChecksum (f ++ [k]) = decide (k = checksum f) := by
  have : 2 ≤ (f ++ [k]).length := by simp; omega
  simp [verifyChecksum]
  omega

theorem verify_appendChecksum (f : Frame) (h : 1 ≤ f.length) : verifyChecksum (appendChecksum f) = true := by
  simp [appendChecksum, verify_concat f _ h]

@[simp] theorem wireAddr_toNat (cfg : Config) (a : Index) :
    (wireAddr cfg a).toNat = (cfg.baseAddr.toNat + a.val) % 256 := by
  rw [wireAddr, BitVec.toNat_add, BitVec.toNat_ofNat]
  omega

theorem wireAddr_inj (cfg : Config) {a b : Index} (h : wireAddr cfg a = wireAddr cfg b) : a = b := by
  have h' := congrArg BitVec.toNat h
  simp [wireAddr] at h'
  have := cfg.baseAddr.isLt
  have ha := a.isLt
  have hb := b.isLt
  simp only [addrSpace] at ha hb
  apply Fin.ext
  omega

/-- A frame of an address and a payload with any last byte matches its own index. -/
theorem matches_own (cfg : Config) (a : Index) (p : List Byte) (k : Byte) :
    matchesIndex cfg ((wireAddr cfg a :: p) ++ [k]) a = true := by
  simp [matchesIndex]

end Sys2Proof.Machine
end

