-- ==== Sys2Proof/Laws/Ops.lean ====
section
/-! SUPPORT. What each shared operation can do, said once: where the sequencer enters an operation, what a poll, a settle tick and
the end of an operation leave, and the frame every one of them keeps. -/

namespace Sys2Proof.Machine

open Sys2Proof.Safety

/-! ### Entering an operation -/

theorem onSequencer_run {i : Instr} {pc : Pc} {loc : Locals} {s : State}
    {body : Pc → Locals → State → Host.Outcome State Fault Refusal} (h : (s.ch i.index).seq = .run i pc loc) :
    onSequencer i body s = body pc loc s := by
  simp [onSequencer, h]

theorem onSequencer_idle {i : Instr} {s : State} {body : Pc → Locals → State → Host.Outcome State Fault Refusal}
    (h : (s.ch i.index).seq = .idle) : onSequencer i body s = body .start {} (accept i s) := by
  simp [onSequencer, h]

theorem onSequencer_busy {i j : Instr} {pc : Pc} {loc : Locals} {s : State}
    {body : Pc → Locals → State → Host.Outcome State Fault Refusal} (h : (s.ch i.index).seq = .run j pc loc) (hj : j ≠ i) :
    onSequencer i body s = .next (overlap i.index s) := by
  simp [onSequencer, h, hj]

theorem continueSend_await {a : Index} {cmd : Byte} {timeout t : Nat} {s : State}
    (h : (s.ch a).dsp = .await cmd timeout t) : continueSend a s = some (poll a cmd timeout t s) := by
  simp [continueSend, h]

theorem startSend_idle {a : Index} {rq : Request} {s : State} (h : (s.ch a).dsp = .idle) :
    startSend a rq s = some (beginSend a rq s) := by
  simp [startSend, h]

/-- An operation of one `Send` that is not at its start goes on with its transaction. -/
theorem oneSend_continue {i : Instr} {pc : Pc} {loc : Locals} {s : State} {rq : Config → Option Request}
    {finish : SendResult → State → State} (h : (s.ch i.index).seq = .run i pc loc) (hpc : pc ≠ .start) :
    oneSend i rq finish s = afterSend (continueSend i.index s) (suspendAt i .inSend loc) finish := by
  simp [oneSend, onSequencer_run h, hpc]

/-! ### Polls -/

theorem pollDue_zero (cfg : Config) (timeout : Nat) : pollDue cfg timeout 0 = true := by
  simp [pollDue]

theorem pollDue_timeout (cfg : Config) {timeout t : Nat} (h : timeout ≤ t) : pollDue cfg timeout t = true := by
  simp [pollDue, h]

theorem pollDue_everyTick {cfg : Config} (h : cfg.pollTick = 1) (timeout t : Nat) : pollDue cfg timeout t = true := by
  simp [pollDue, h, Nat.mod_one]

theorem poll_miss {a : Index} {cmd : Byte} {timeout t : Nat} {s : State} (h : slotMatches a s = false) :
    poll a cmd timeout t s = missPoll a cmd timeout t s := by
  unfold poll rxPeek
  unfold slotMatches at h
  split <;> simp_all

/-- A tick without a poll is as a poll that finds nothing, whatever the slot holds. -/
theorem poll_notDue {a : Index} {cmd : Byte} {timeout t : Nat} {s : State} (h : pollDue s.cfg timeout t = false) :
    poll a cmd timeout t s = missPoll a cmd timeout t s := by
  unfold poll
  split <;> simp [h]

theorem poll_match {a : Index} {cmd : Byte} {timeout t : Nat} {s : State} {r : Frame}
    (hd : pollDue s.cfg timeout t = true) (h : s.rxSlot = some r) (hm : matchesIndex s.cfg r a = true) :
    poll a cmd timeout t s = takeMatch a r s := by
  simp [poll, rxPeek, h, hm, hd]

/-- A poll that finds a checksum-valid response takes its frame, without the checksum byte. -/
theorem poll_response {a : Index} {cmd : Byte} {timeout t : Nat} {s : State} {p : List Byte}
    (hd : pollDue s.cfg timeout t = true) (h : Response a p s) :
    poll a cmd timeout t s = (rxClear (endTransaction a s), some (.frame (wireAddr s.cfg a :: p))) := by
  rw [poll_match hd h (matches_own _ _ _ _)]
  have hv : verifyChecksum ((wireAddr s.cfg a :: p) ++ [checksum (wireAddr s.cfg a :: p)]) = true :=
    verify_appendChecksum (wireAddr s.cfg a :: p) (by simp)
  simp only [takeMatch, hv, if_true, List.dropLast_concat]

/-! ### Ends -/

/-- The channel of an index after its transaction has ended. -/
@[simp] theorem ch_endTransaction_same (a : Index) (s : State) :
    (endTransaction a s).ch a = { s.ch a with pending := none, dsp := .idle } := by
  simp [endTransaction, setDsp, setPending]

/-- Ending an operation, in one record. -/
theorem endOp_eq (a : Index) (o : OpOutcome) (s : State) :
    endOp a o s =
      { s with
        chans := s.chans.set a.val
          { s.ch a with seq := .idle, script := if o = .ok true then (s.ch a).script else [] }
        delivered := s.delivered ++ [deliveryOf a o s] } := by
  by_cases ho : o = .ok true <;>
    simp [endOp, ho, setSeq, setScript, State.setCh, State.ch, deliveryOf, goesOn]

/-- The channel of an index after its operation has ended with any outcome. -/
theorem ch_endOp_same (a : Index) (o : OpOutcome) (s : State) :
    (endOp a o s).ch a = { s.ch a with seq := .idle, script := if o = .ok true then (s.ch a).script else [] } := by
  rw [endOp_eq]
  simp [State.ch]

/-- An operation that ends in the tick its `Send` returns a frame, in one record. -/
theorem endOp_reply (a : Index) (o : OpOutcome) (s : State) :
    endOp a o (rxClear (endTransaction a s)) = replied a o id s := by
  rw [endOp_eq]
  simp [replied, ended, endedChannel, deliveryOf, rxClear, endTransaction, setDsp, setPending, State.setCh, State.ch]

/-- The transaction and the operation of an index end together, in one record. -/
theorem endOp_end (a : Index) (o : OpOutcome) (s : State) : endOp a o (endTransaction a s) = ended a o id s := by
  rw [endOp_eq]
  simp [ended, endedChannel, deliveryOf, endTransaction, setDsp, setPending, State.setCh, State.ch]

/-! ### The frame of every operation on one index -/

/-- What a step on index `a` leaves alone: the other indices, the configuration, the link, the time, the coming inputs and the
refused mark; it clears no mark, only clears the slot, and only appends to the logs. -/
structure Touches (a : Index) (s t : State) : Prop where
  other : ∀ b : Index, b ≠ a → t.ch b = s.ch b
  cfg : t.cfg = s.cfg
  txOpen : t.txOpen = s.txOpen
  now : t.now = s.now
  inputs : t.inputs = s.inputs
  refused : t.refused = s.refused
  faulted : s.faulted = true → t.faulted = true
  rxSlot : t.rxSlot = s.rxSlot ∨ t.rxSlot = none
  txLog : s.txLog <+: t.txLog
  diag : s.diag <+: t.diag
  delivered : s.delivered <+: t.delivered

theorem Touches.same (a : Index) (s : State) : Touches a s s :=
  ⟨fun _ _ => rfl, rfl, rfl, rfl, rfl, rfl, id, .inl rfl, List.prefix_rfl, List.prefix_rfl, List.prefix_rfl⟩

theorem Touches.trans {a : Index} {s t u : State} (h : Touches a s t) (k : Touches a t u) : Touches a s u where
  other := fun b hb => (k.other b hb).trans (h.other b hb)
  cfg := k.cfg.trans h.cfg
  txOpen := k.txOpen.trans h.txOpen
  now := k.now.trans h.now
  inputs := k.inputs.trans h.inputs
  refused := k.refused.trans h.refused
  faulted := fun x => k.faulted (h.faulted x)
  rxSlot := by
    rcases k.rxSlot with e | e
    · rcases h.rxSlot with e' | e'
      · exact .inl (e.trans e')
      · exact .inr (e.trans e')
    · exact .inr e
  txLog := h.txLog.trans k.txLog
  diag := h.diag.trans k.diag
  delivered := h.delivered.trans k.delivered

theorem touches_setCh (a : Index) (s : State) (c : Channel) : Touches a s (s.setCh a c) :=
  { Touches.same a s with other := fun _ hb => ch_setCh_ne s c hb }

theorem touches_rxClear (a : Index) (s : State) : Touches a s (rxClear s) :=
  { Touches.same a s with rxSlot := .inr rfl, other := fun _ _ => rfl }

theorem touches_txWrite (a : Index) (f : Frame) (s : State) : Touches a s (txWrite f s) :=
  { Touches.same a s with txLog := List.prefix_append _ _, other := fun _ _ => rfl }

theorem touches_logEvent (a b : Index) (k : DiagKind) (s : State) : Touches a s (logEvent b k s) :=
  { Touches.same a s with diag := List.prefix_append _ _, other := fun _ _ => rfl }

theorem touches_deliver (a : Index) (s : State) (d : Delivery) :
    Touches a s { s with delivered := s.delivered ++ [d] } :=
  { Touches.same a s with delivered := List.prefix_append _ _, other := fun _ _ => rfl }

theorem touches_markFaulted (a : Index) (s : State) : Touches a s { s with faulted := true } :=
  { Touches.same a s with faulted := fun _ => rfl, other := fun _ _ => rfl }

theorem touches_endTransaction (a : Index) (s : State) : Touches a s (endTransaction a s) :=
  (touches_setCh a s _).trans (touches_setCh a _ _)

theorem touches_endOp (a : Index) (o : OpOutcome) (s : State) : Touches a s (endOp a o s) := by
  unfold endOp
  refine Touches.trans (t := setSeq a .idle (if o = .ok true then s else setScript a [] s)) ?_ (touches_deliver a _ _)
  refine Touches.trans ?_ (touches_setCh a _ _)
  split
  · exact Touches.same a s
  · exact touches_setCh a s _

theorem touches_faultOp (a : Index) (r : FaultReason) (s : State) : Touches a s (faultOp a r s) :=
  (touches_markFaulted a s).trans (touches_endOp a _ _)

theorem touches_abortOp (a : Index) (k : DiagKind) (r : AbortReason) (s : State) : Touches a s (abortOp a k r s) :=
  (touches_logEvent a a k s).trans (touches_endOp a _ _)

theorem touches_takeMatch (a : Index) (r : Frame) (s : State) : Touches a s (takeMatch a r s).1 := by
  unfold takeMatch
  split
  · exact (touches_endTransaction a s).trans (touches_rxClear a _)
  · exact ((touches_endTransaction a s).trans (touches_rxClear a _)).trans (touches_logEvent a a _ _)

theorem touches_missPoll (a : Index) (cmd : Byte) (timeout t : Nat) (s : State) :
    Touches a s (missPoll a cmd timeout t s).1 := by
  unfold missPoll
  split
  · exact (touches_endTransaction a s).trans (touches_logEvent a a _ _)
  · exact touches_setCh a s _

theorem touches_poll (a : Index) (cmd : Byte) (timeout t : Nat) (s : State) : Touches a s (poll a cmd timeout t s).1 := by
  unfold poll
  split
  · split
    · exact touches_takeMatch a _ s
    · exact touches_missPoll a cmd timeout t s
  · exact touches_missPoll a cmd timeout t s

theorem touches_writeRequest (a : Index) (rq : Request) (s : State) : Touches a s (writeRequest a rq s) := by
  unfold writeRequest clearIfConfigured
  refine Touches.trans ?_ (touches_txWrite a _ _)
  split
  · exact (touches_setCh a s _).trans (touches_rxClear a _)
  · exact touches_setCh a s _

theorem touches_beginSend (a : Index) (rq : Request) (s : State) : Touches a s (beginSend a rq s).1 := by
  unfold beginSend
  split
  · split
    · exact (touches_writeRequest a rq s).trans (touches_poll a _ _ _ _)
    · exact (touches_writeRequest a rq s).trans (touches_setCh a _ _)
  · exact touches_logEvent a a _ s

theorem touches_startSend {a : Index} {rq : Request} {s : State} {x : State × Option SendResult}
    (h : startSend a rq s = some x) : Touches a s x.1 := by
  unfold startSend at h
  split at h
  · cases h; exact touches_beginSend a rq s
  · cases h

theorem touches_continueSend {a : Index} {s : State} {x : State × Option SendResult}
    (h : continueSend a s = some x) : Touches a s x.1 := by
  unfold continueSend at h
  split at h
  · cases h
  · cases h
  · cases h; exact touches_poll a _ _ _ s
  · cases h; exact touches_setCh a s _
  · cases h; exact touches_poll a _ _ _ s

theorem touches_overlap (a b : Index) (s : State) : Touches a s (overlap b s) := by
  unfold overlap deliverPort
  split
  · exact (touches_markFaulted a s).trans (touches_deliver a _ _)
  · exact touches_deliver a s _

theorem touches_finishAction {a : Index} {onOk : State → State} (h : ∀ s, Touches a s (onOk s)) (r : SendResult)
    (s : State) : Touches a s (finishAction a onOk r s) := by
  unfold finishAction
  split
  · split
    · exact touches_faultOp a _ s
    · split
      · exact (h s).trans (touches_endOp a _ _)
      · exact touches_endOp a _ s
  · exact touches_endOp a _ s
  · exact touches_endOp a _ s

theorem touches_finishRead (a : Index) (len : Nat) (value : State → List Byte → Option Int) (r : SendResult)
    (s : State) : Touches a s (finishRead a len value r s) := by
  unfold finishRead
  split
  · split
    · exact touches_faultOp a _ s
    · split
      · exact touches_faultOp a _ s
      · exact touches_endOp a _ s
  · exact touches_endOp a _ s
  · exact touches_endOp a _ s

theorem touches_commitEnable (a : Index) (e : Bool) (loc : Locals) (s : State) : Touches a s (commitEnable a e loc s) := by
  unfold commitEnable
  split
  · exact touches_setCh a s _
  · exact (touches_setCh a s _).trans (touches_setCh a _ _)

theorem touches_finishAttempt (a : Index) (loc : Locals) (r : SendResult) (s : State) :
    Touches a s (finishAttempt a loc r s) := by
  unfold finishAttempt
  split
  · split
    · exact touches_faultOp a _ s
    · dsimp only
      split
      · exact touches_setCh a s _
      · exact touches_faultOp a _ s
  · split
    · exact touches_abortOp a _ _ s
    · exact touches_setCh a s _
  · exact touches_endOp a _ s

/-- What follows a `Send`'s step keeps the frame if the step and the pseudocode after it do. -/
theorem touches_afterSend {a : Index} {s t : State} {x : Option (State × Option SendResult)} {suspend : State → State}
    {finish : SendResult → State → State} (hx : ∀ y, x = some y → Touches a s y.1)
    (hs : ∀ u, Touches a u (suspend u)) (hf : ∀ r u, Touches a u (finish r u))
    (h : afterSend x suspend finish = .next t) : Touches a s t := by
  unfold afterSend at h
  split at h
  · cases h
  · cases h; exact (hx _ rfl).trans (hs _)
  · cases h; exact (hx _ rfl).trans (hf _ _)

end Sys2Proof.Machine
end

