-- ==== Sys2Proof/Laws/PerInstr.lean ====
section
/-! SUPPORT. The per-instruction family `EncodeShape`: the request frame of every operation has its format's length, address and
command, and its checksum verifies. -/

namespace Sys2Proof.Laws.EncodeShape

open Sys2Proof Sys2Proof.Machine

/-- The bytes of a row's request frame with its checksum: F2 three, F3 four, F7 eight (30_encoding.md R71, R72, R74, R82). -/
def frameLength : Row → Nat
  | .readPosition | .readEncoder | .readPulses | .readAngleError | .readDriverState | .readBlockFlag | .stop => 3
  | .setEnable | .start | .rtzSetPoint | .rtzMode | .rtzSpeed | .rtzDirection | .rtzGoto | .calibrate => 4
  | .movePulses => 8

/-- Under every configuration the request frame has its format's length, begins with the index's wire address and the row's
command, verifies, and is matched by its own index. -/
def Statement (i : Instr) : Prop :=
  ∀ cfg : Config,
    (encode cfg i).length = frameLength i.row
    ∧ (encode cfg i).take 2 = [wireAddr cfg i.index, cfg.cmdByte i.row]
    ∧ verifyChecksum (encode cfg i) = true
    ∧ matchesIndex cfg (encode cfg i) i.index = true

/-- A frame that begins with its index's address and some byte is matched by it and verifies once its checksum is appended. -/
theorem of_body (i : Instr) (rest : Config → List Byte)
    (hb : ∀ cfg, requestBody cfg i.index (cfg.cmdByte i.row) (i.value cfg)
      = wireAddr cfg i.index :: cfg.cmdByte i.row :: rest cfg)
    (hl : ∀ cfg, (rest cfg).length + 3 = frameLength i.row) : Statement i := by
  intro cfg
  have he : encode cfg i = appendChecksum (wireAddr cfg i.index :: cfg.cmdByte i.row :: rest cfg) := by
    rw [encode, requestFrame, hb]
  rw [he]
  exact ⟨by simp [appendChecksum, ← hl cfg], by simp [appendChecksum], verify_appendChecksum _ (by simp),
    matches_own cfg i.index _ _⟩

theorem readPosition (a : Index) : Statement (.readPosition a) := of_body _ (fun _ => []) (fun _ => rfl) (fun _ => rfl)
theorem readEncoder (a : Index) : Statement (.readEncoder a) := of_body _ (fun _ => []) (fun _ => rfl) (fun _ => rfl)
theorem readPulses (a : Index) : Statement (.readPulses a) := of_body _ (fun _ => []) (fun _ => rfl) (fun _ => rfl)
theorem readAngleError (a : Index) : Statement (.readAngleError a) :=
  of_body _ (fun _ => []) (fun _ => rfl) (fun _ => rfl)
theorem readDriverState (a : Index) : Statement (.readDriverState a) :=
  of_body _ (fun _ => []) (fun _ => rfl) (fun _ => rfl)
theorem readBlockFlag (a : Index) : Statement (.readBlockFlag a) :=
  of_body _ (fun _ => []) (fun _ => rfl) (fun _ => rfl)
theorem setEnable (a : Index) (e : Bool) : Statement (.setEnable a e) :=
  of_body _ (fun cfg => [enableByte cfg e]) (fun _ => rfl) (fun _ => rfl)
theorem start (a : Index) (dir : Direction) (speed : Int) : Statement (.start a dir speed) :=
  of_body _ (fun _ => [speedByte speed (isForward dir)]) (fun _ => rfl) (fun _ => rfl)
theorem stop (a : Index) : Statement (.stop a) := of_body _ (fun _ => []) (fun _ => rfl) (fun _ => rfl)
theorem movePulses (a : Index) (dir : Direction) (speed pulses : Int) : Statement (.movePulses a dir speed pulses) :=
  of_body _ (fun _ => speedByte speed (isForward dir) :: be32 pulses.toNat) (fun _ => rfl) (fun _ => rfl)
theorem rtzSetPoint (a : Index) : Statement (.rtzSetPoint a) :=
  of_body _ (fun cfg => [cfg.actionArg]) (fun _ => rfl) (fun _ => rfl)
theorem rtzMode (a : Index) (m : RtzApproach) : Statement (.rtzMode a m) :=
  of_body _ (fun cfg => [rtzModeByte cfg m]) (fun _ => rfl) (fun _ => rfl)
theorem rtzSpeed (a : Index) (speed : Int) : Statement (.rtzSpeed a speed) :=
  of_body _ (fun cfg => [rtzSpeedWire cfg speed]) (fun _ => rfl) (fun _ => rfl)
theorem rtzDirection (a : Index) (dir : Direction) : Statement (.rtzDirection a dir) :=
  of_body _ (fun cfg => [rtzDirByte cfg dir]) (fun _ => rfl) (fun _ => rfl)
theorem rtzGoto (a : Index) : Statement (.rtzGoto a) :=
  of_body _ (fun cfg => [cfg.actionArg]) (fun _ => rfl) (fun _ => rfl)
theorem calibrate (a : Index) : Statement (.calibrate a) :=
  of_body _ (fun cfg => [cfg.actionArg]) (fun _ => rfl) (fun _ => rfl)

end Sys2Proof.Laws.EncodeShape
end

