-- ==== Sys2Proof/Laws/Port.lean ====
section
/-! SUPPORT. What a submission, a caller's next issue and the engine phase can do, said once. -/

namespace Sys2Proof.Machine

/-- A submission ends in one of the four ways of 60_exceptions.md R223 and 41_dispatcher.md R144. -/
theorem submit_cases (d : Descriptor) (s : State) :
    submit d s = markRefused s
    ∨ (∃ v : Int, indexOf s.cfg v = none ∧ submit d s = deliverPort v (.fault .badAddress) { s with faulted := true })
    ∨ (∃ (v : Int) (a : Index) (ops : Ops), readDescriptor d = some (v, ops) ∧ indexOf s.cfg v = some a
        ∧ (s.ch a).seq = .idle ∧ submit d s = acceptOps a ops s)
    ∨ (∃ a : Index, (s.ch a).seq ≠ .idle ∧ submit d s = overlap a s) := by
  unfold submit
  split
  · exact .inl rfl
  · rename_i v ops hd
    split
    · exact .inr (.inl ⟨v, ‹_›, rfl⟩)
    · rename_i a ha
      by_cases h : (s.ch a).seq = .idle
      · exact .inr (.inr (.inl ⟨v, a, ops, hd, ha, h, by simp [h]⟩))
      · exact .inr (.inr (.inr ⟨a, h, by simp [h]⟩))

/-- Every operation a row gives is for the index it is given. -/
theorem rowOps_index {r : Row} {args : List Arg} {ops : Ops} (h : rowOps r args = some ops) (op : Index → Instr)
    (ho : op ∈ ops) (a : Index) : (op a).index = a := by
  unfold rowOps at h
  split at h
  all_goals first
    | (cases h; simp only [List.mem_singleton] at ho; subst ho; rfl)
    | (obtain ⟨_, _, rfl⟩ := Option.map_eq_some_iff.mp h; simp only [List.mem_singleton] at ho; subst ho; rfl)
    | cases h

/-- Every operation a descriptor gives is for the index it is given. -/
theorem readDescriptor_index {d : Descriptor} {v : Int} {ops : Ops} (h : readDescriptor d = some (v, ops))
    (op : Index → Instr) (ho : op ∈ ops) (a : Index) : (op a).index = a := by
  unfold readDescriptor at h
  split at h
  · rename_i w args hargs
    obtain ⟨ops', hn, he⟩ := Option.map_eq_some_iff.mp h
    cases he
    unfold nameOps at hn
    split at hn
    · exact rowOps_index hn op ho a
    · cases hn; simp only [List.mem_singleton] at ho; subst ho; rfl
    · cases hn; simp only [List.mem_singleton] at ho; subst ho; rfl
    · obtain ⟨_, _, rfl⟩ := Option.map_eq_some_iff.mp hn
      simp only [List.mem_cons, List.not_mem_nil, or_false] at ho
      rcases ho with rfl | rfl | rfl <;> rfl
    · cases hn; simp only [List.mem_singleton] at ho; subst ho; rfl
    · cases hn
  · cases h

/-- A caller issues its next operation at an idle port, or nothing happens. -/
theorem issueNext_cases (s : State) (a : Index) :
    issueNext s a = s
    ∨ ∃ (i : Instr) (rest : List Instr), (s.ch a).seq = .idle ∧ (s.ch a).script = i :: rest
        ∧ issueNext s a = setSeq a (.run i .start {}) (setScript a rest s) := by
  unfold issueNext
  split
  · exact .inr ⟨_, _, ‹_›, ‹_›, rfl⟩
  · exact .inl rfl

/-- An engine phase that answers a next state did so at its first index, and went on from there. -/
theorem enginePhase_cons {a : Index} {order : List Index} {s t : State} (h : enginePhase (a :: order) s = .next t) :
    ∃ u : State, indexStep a s = .next u ∧ enginePhase order u = .next t := by
  simp only [enginePhase] at h
  split at h
  · exact ⟨_, ‹_›, h⟩
  · cases h
  · cases h

theorem mem_allIndices (cfg : Config) (a : Index) : a ∈ allIndices cfg ↔ cfg.hasIndex a = true := by
  simp [allIndices]

/-- Every index of the build takes its step exactly once, whatever order was drawn, and no other does. -/
theorem mem_stepOrder (cfg : Config) (order : List Index) (a : Index) :
    a ∈ stepOrder cfg order ↔ cfg.hasIndex a = true := by
  by_cases h : a ∈ order <;> simp [stepOrder, mem_allIndices, h]

theorem nodup_stepOrder (cfg : Config) (order : List Index) : (stepOrder cfg order).Nodup := by
  unfold stepOrder
  refine List.Nodup.append ((List.nodup_dedup _).filter _) (((List.nodup_finRange _).filter _).filter _) ?_
  intro a h1 h2
  simp at h1 h2
  exact h2.2 h1.1

/-- The port takes exactly the indices of the build. -/
theorem indexOf_val {cfg : Config} {a : Index} (h : cfg.hasIndex a = true) : indexOf cfg (a.val : Int) = some a := by
  simp only [Config.hasIndex, decide_eq_true_eq] at h
  simp [indexOf, h]

theorem indexOf_hasIndex {cfg : Config} {v : Int} {a : Index} (h : indexOf cfg v = some a) :
    cfg.hasIndex a = true ∧ v = a.val := by
  unfold indexOf at h
  split at h
  · cases h
    simp only [Config.hasIndex, decide_eq_true_eq]
    omega
  · cases h

end Sys2Proof.Machine
end

