-- ==== Sys2Proof/Tests/Slice0.lean ====
section
/-! SUPPORT. The model's own tests: expected results are the words, frames and outcomes that spec/ writes out (30_encoding.md,
95_test_vectors.md), and a witness for the hypotheses of every statement that has some. -/

namespace Sys2Proof.Tests

open Sys2Proof Sys2Proof.Machine Sys2Proof.Safety

/-! ### Well-formedness: an ill-formed term for each check -/

theorem test_speed_above_127_ill_formed :
    (Instr.start 0 .fwd 128).wellFormed Config.standard = false
    ∧ (Instr.start 0 .fwd 127).wellFormed Config.standard = true := by decide

theorem test_speed_negative_ill_formed :
    (Instr.start 0 .rev (-1)).wellFormed Config.standard = false
    ∧ (Instr.movePulses 0 .rev (-1) 0).wellFormed Config.standard = false := by decide

theorem test_pulses_out_of_range_ill_formed :
    (Instr.movePulses 0 .fwd 5 (-1)).wellFormed Config.standard = false
    ∧ (Instr.movePulses 0 .fwd 5 4294967296).wellFormed Config.standard = false
    ∧ (Instr.movePulses 0 .fwd 5 4294967295).wellFormed Config.standard = true := by decide

theorem test_rtz_speed_clamped_ill_formed :
    (Instr.rtzSpeed 0 5).wellFormed Config.standard = false
    ∧ (Instr.rtzSpeed 0 (-1)).wellFormed Config.standard = false
    ∧ (Instr.rtzSpeed 0 4).wellFormed Config.standard = true := by decide

theorem test_index_outside_build_ill_formed :
    (Instr.stop 16).wellFormed Config.standard = false
    ∧ (Instr.stop 15).wellFormed Config.standard = true
    ∧ (Instr.stop 16).wellFormed { Config.standard with nAddr := 17 } = true := by decide

theorem test_config_not_encodable :
    ({ Config.standard with baseAddr := 0xF1#8 } : Config).encodable = false
    ∧ ({ Config.standard with speedMax := 128 } : Config).encodable = false
    ∧ ({ Config.standard with rtzSpeedMax := 256 } : Config).encodable = false
    ∧ ({ Config.standard with cmdStop := 0x36#8 } : Config).encodable = false
    ∧ ({ Config.standard with enOff := 0x01#8 } : Config).encodable = false
    ∧ ({ Config.standard with rtzModeNear := 0x01#8 } : Config).encodable = false
    ∧ ({ Config.standard with rtzDirRev := 0x00#8 } : Config).encodable = false := by decide

theorem test_config_not_wf :
    Config.standard.wf = true
    ∧ ({ Config.standard with tCalibrate := 9 } : Config).wf = false
    ∧ ({ Config.standard with tRtzGoto := 9 } : Config).wf = false
    ∧ ({ Config.standard with tRtzSetPoint := 9 } : Config).wf = false
    ∧ ({ Config.standard with enableAttempts := 0 } : Config).wf = false
    ∧ ({ Config.standard with pollTick := 0 } : Config).wf = false := by decide

/-! ### Decoding: every operation's frame as the spec writes it -/

/-- The decoding of a frame under the configuration after reset. -/
def dec (f : Frame) : Except DecodeReject Instr := decodeFrame Config.standard f

/-- 42_reads.md R161 and R162, 95_test_vectors.md X12. -/
theorem test_decode_reads_1 :
    dec [0xE3#8, 0x36#8, 0x19#8] = .ok (.readPosition 3)
    ∧ dec [0xE0#8, 0x30#8, 0x10#8] = .ok (.readEncoder 0)
    ∧ dec [0xE0#8, 0x33#8, 0x13#8] = .ok (.readPulses 0) := by decide

/-- 95_test_vectors.md X14, X16, X17. -/
theorem test_decode_reads_2 :
    dec [0xE0#8, 0x39#8, 0x19#8] = .ok (.readAngleError 0)
    ∧ dec [0xE0#8, 0x3A#8, 0x1A#8] = .ok (.readDriverState 0)
    ∧ dec [0xE0#8, 0x3E#8, 0x1E#8] = .ok (.readBlockFlag 0) := by decide

/-- 95_test_vectors.md Y1, Y10, Y13, Y15, Y20. -/
theorem test_decode_driver :
    dec [0xE0#8, 0xF3#8, 0x01#8, 0xD4#8] = .ok (.setEnable 0 true)
    ∧ dec [0xE0#8, 0xF3#8, 0x00#8, 0xD3#8] = .ok (.setEnable 0 false)
    ∧ dec [0xE0#8, 0xF6#8, 0x05#8, 0xDB#8] = .ok (.start 0 .fwd 5)
    ∧ dec [0xE0#8, 0xF6#8, 0xFF#8, 0xD5#8] = .ok (.start 0 .rev 127)
    ∧ dec [0xEF#8, 0xF7#8, 0xE6#8] = .ok (.stop 15) := by decide

/-- 95_test_vectors.md Y21, Y22, V14. -/
theorem test_decode_move :
    dec [0xE0#8, 0xFD#8, 0x05#8, 0x00#8, 0x00#8, 0x0C#8, 0x80#8, 0x6E#8] = .ok (.movePulses 0 .fwd 5 3200)
    ∧ dec [0xE0#8, 0xFD#8, 0x7F#8, 0xFF#8, 0xFF#8, 0xFF#8, 0xFF#8, 0x58#8] = .ok (.movePulses 0 .fwd 127 4294967295)
    ∧ dec [0xE3#8, 0xFD#8, 0x94#8, 0x00#8, 0x00#8, 0x06#8, 0x40#8, 0xBA#8] = .ok (.movePulses 3 .rev 20 1600) := by
  decide

/-- 95_test_vectors.md Z1, Z3, Z4. -/
theorem test_decode_rtz_1 :
    dec [0xE0#8, 0x91#8, 0x00#8, 0x71#8] = .ok (.rtzSetPoint 0)
    ∧ dec [0xE0#8, 0x90#8, 0x01#8, 0x71#8] = .ok (.rtzMode 0 .dir)
    ∧ dec [0xE0#8, 0x90#8, 0x02#8, 0x72#8] = .ok (.rtzMode 0 .near)
    ∧ dec [0xE0#8, 0x92#8, 0x04#8, 0x76#8] = .ok (.rtzSpeed 0 0) := by decide

/-- 95_test_vectors.md Z6, Z10; 44_rtz_calibrate.md R204. -/
theorem test_decode_rtz_2 :
    dec [0xE0#8, 0x93#8, 0x00#8, 0x73#8] = .ok (.rtzDirection 0 .fwd)
    ∧ dec [0xE0#8, 0x93#8, 0x01#8, 0x74#8] = .ok (.rtzDirection 0 .rev)
    ∧ dec [0xE2#8, 0x94#8, 0x00#8, 0x76#8] = .ok (.rtzGoto 2)
    ∧ dec [0xE0#8, 0x80#8, 0x00#8, 0x60#8] = .ok (.calibrate 0) := by decide

theorem test_decode_rejects_by_name :
    dec [] = .error .badChecksum
    ∧ dec [0xE0#8, 0xE0#8] = .error .tooShort
    ∧ dec [0xDF#8, 0x36#8, 0x15#8] = .error .noSuchAddress
    ∧ dec [0xF0#8, 0x36#8, 0x26#8] = .error .noSuchAddress
    ∧ dec [0xE0#8, 0xFF#8, 0xDF#8] = .error .noSuchCommand
    ∧ dec [0xE0#8, 0xF3#8, 0x02#8, 0xD5#8] = .error .badValue
    ∧ dec [0xE0#8, 0xF3#8, 0xD3#8] = .error .tooShort
    ∧ dec [0xE0#8, 0x36#8, 0x00#8, 0x16#8] = .error .tooLong := by decide

/-- The words of opcode_table.json for address 0 with operands of zeros: byte 0 in bits 15..8, byte 1 in bits 7..0. -/
theorem test_table_words :
    decodeTableWord 16 0xE036 = some (.readPosition 0)
    ∧ decodeTableWord 16 0xEF36 = some (.readPosition 15)
    ∧ decodeTableWord 16 0xE0FD = some (.movePulses 0 .fwd 0 0)
    ∧ decodeTableWord 24 0x01E090 = some (.rtzMode 0 .dir)
    ∧ decodeTableWord 16 0xE090 = none
    ∧ decodeTableWord 16 0xE035 = none := by decide

/-! ### One step of the machine -/

/-- The state after reset with the transport open. -/
def openState : State := { State.reset with txOpen := true }

theorem ch_openState (a : Index) : openState.ch a = Channel.reset := by
  simp [openState, State.reset, State.resetWith, State.ch]

theorem consistent_openState : Consistent openState :=
  ⟨by decide, fun a => by rw [ch_openState]; exact channelOk_reset _ a⟩

theorem allIdle_openState : AllIdle openState :=
  fun a => by rw [ch_openState]; rfl

/-- Index `a` in state `c`, with a frame in the slot. -/
def withIndex (a : Index) (c : Channel) (slot : Option Frame) : State :=
  { openState.setCh a c with rxSlot := slot }

/-- Operation `i` at the poll `t` of `T` of its own command, with a frame in the slot. -/
def pollAt (i : Instr) (loc : Locals) (cmd : Byte) (timeout t : Nat) (slot : Option Frame) : State :=
  withIndex i.index { Channel.reset with pending := some cmd, dsp := .await cmd timeout t, seq := .run i .inSend loc } slot

/-- The enable of index `a` at the poll `t` of a position read. -/
def readAt (a : Index) (loc : Locals) (t : Nat) (slot : Option Frame) : State :=
  withIndex a { Channel.reset with
    pending := some 0x36#8, dsp := .await 0x36#8 10 t, seq := .run (.setEnable a true) .inRead loc } slot

/-- A property of the next state; false of a stop. -/
def holdsAfter (o : Host.Outcome State Fault Refusal) (p : State → Bool) : Bool :=
  match o with
  | .next t => p t
  | .fault _ => false
  | .refused _ => false

/-- The outcome delivered last. -/
def lastOutcome (s : State) : Option OpOutcome := s.delivered.getLast?.map Delivery.outcome

/-- Operation `i`, polled at `t = 0` with this slot, ends with this outcome. -/
def endsWith (i : Instr) (cmd : Byte) (slot : Frame) (o : OpOutcome) : Bool :=
  holdsAfter (exec i (pollAt i {} cmd 10 0 (some slot))) (fun t => decide (lastOutcome t = some o))

/-- Operation `i`, from idle, writes exactly this frame. -/
def writes (i : Instr) (f : Frame) : Bool :=
  holdsAfter (exec i openState) (fun t => decide (t.txLog = [f]) && t.delivered.isEmpty)

/-- X1, X3, X5. -/
theorem test_readPosition_value :
    endsWith (.readPosition 0) 0x36#8 [0xE0#8, 0x00#8, 0x00#8, 0x30#8, 0x39#8, 0x49#8] (.value 12345) = true
    ∧ endsWith (.readPosition 0) 0x36#8 [0xE0#8, 0xFF#8, 0xFF#8, 0xFF#8, 0x9C#8, 0x79#8] (.value (-100)) = true
    ∧ endsWith (.readPosition 0) 0x36#8 [0xE0#8, 0x7F#8, 0xFF#8, 0xFF#8, 0xFF#8, 0x5C#8] (.value 2147483647) = true := by
  decide

/-- X8, X9, W10. -/
theorem test_readPosition_failures :
    endsWith (.readPosition 0) 0x36#8 [0xE0#8, 0x30#8, 0x39#8, 0x49#8] (.fault .shortPayload) = true
    ∧ endsWith (.readPosition 0) 0x36#8 [0xE0#8, 0xE0#8] (.fault .shortPayload) = true
    ∧ endsWith (.readPosition 0) 0x36#8 [0xE0#8, 0x00#8, 0x00#8, 0x30#8, 0x39#8, 0x48#8] (.absent .checksumMismatch) = true := by
  decide

/-- X10, X11. -/
theorem test_readEncoder :
    writes (.readEncoder 0) [0xE0#8, 0x30#8, 0x10#8] = true
    ∧ endsWith (.readEncoder 0) 0x30#8 [0xE0#8, 0xFF#8, 0xFF#8, 0xDE#8] (.value 65535) = true := by decide

/-- X12, X13. -/
theorem test_readPulses :
    endsWith (.readPulses 0) 0x33#8 [0xE0#8, 0xFF#8, 0xFF#8, 0xFF#8, 0xFF#8, 0xDC#8] (.value (-1)) = true
    ∧ endsWith (.readPulses 0) 0x33#8 [0xE0#8, 0x12#8, 0x34#8, 0x56#8, 0x78#8, 0xF4#8] (.value 305419896) = true := by
  decide

/-- X14, X15. -/
theorem test_readAngleError :
    endsWith (.readAngleError 0) 0x39#8 [0xE0#8, 0xFF#8, 0xFE#8, 0xDD#8] (.value (-2)) = true
    ∧ endsWith (.readAngleError 0) 0x39#8 [0xE0#8, 0x80#8, 0x00#8, 0x60#8] (.value (-32768)) = true := by decide

/-- X16. -/
theorem test_readDriverState :
    endsWith (.readDriverState 0) 0x3A#8 [0xE0#8, 0x02#8, 0xE2#8] (.value 2) = true := by decide

/-- X18. -/
theorem test_readBlockFlag :
    endsWith (.readBlockFlag 0) 0x3E#8 [0xE0#8, 0x00#8, 0xE0#8] (.value 0) = true := by decide

/-- Y1 at tick 2: raw 100 is captured and nothing is committed yet; Y11: a disable is sent from the disabled shadow. -/
theorem test_setEnable_begins :
    holdsAfter (exec (.setEnable 0 true) (readAt 0 ⟨1, none⟩ 0 (some [0xE0#8, 0x00#8, 0x00#8, 0x00#8, 0x64#8, 0x44#8])))
      (fun t => decide ((t.ch 0).seq = .run (.setEnable 0 true) .enableDue ⟨1, some 100⟩) && !(t.ch 0).isEnabled) = true
    ∧ writes (.setEnable 0 true) [0xE0#8, 0x36#8, 0x16#8] = true
    ∧ writes (.setEnable 0 false) [0xE0#8, 0xF3#8, 0x00#8, 0xD3#8] = true := by decide

/-- Y1 and Y2 at tick 5. -/
theorem test_setEnable_commits :
    holdsAfter (exec (.setEnable 0 true) (pollAt (.setEnable 0 true) ⟨1, some 100⟩ 0xF3#8 10 0 (some [0xE0#8, 0x01#8, 0xE1#8])))
      (fun t => (t.ch 0).isEnabled && decide ((t.ch 0).offset = 100) && decide (lastOutcome t = some (.ok true))) = true
    ∧ holdsAfter (exec (.setEnable 0 true) (pollAt (.setEnable 0 true) ⟨1, some 100⟩ 0xF3#8 10 0 (some [0xE0#8, 0x00#8, 0xE0#8])))
      (fun t => !(t.ch 0).isEnabled && decide ((t.ch 0).offset = 0) && decide (lastOutcome t = some (.ok false))) = true := by
  decide

/-- Y13, Y15. -/
theorem test_start_writes :
    writes (.start 0 .fwd 5) [0xE0#8, 0xF6#8, 0x05#8, 0xDB#8] = true
    ∧ writes (.start 0 .rev 127) [0xE0#8, 0xF6#8, 0xFF#8, 0xD5#8] = true := by decide

/-- Y17, Y18. -/
theorem test_start_range_and_status :
    holdsAfter (exec (.start 0 .rev (-1)) State.reset)
      (fun t => decide (lastOutcome t = some (.abort .outOfRange)) && decide (t.diag = [⟨0, 0, .outOfRange⟩])) = true
    ∧ endsWith (.start 0 .fwd 5) 0xF6#8 [0xE0#8, 0x02#8, 0xE2#8] (.ok false) = true := by decide

/-- Y20. -/
theorem test_stop :
    writes (.stop 15) [0xEF#8, 0xF7#8, 0xE6#8] = true
    ∧ endsWith (.stop 15) 0xF7#8 [0xEF#8, 0x01#8, 0xF0#8] (.ok true) = true := by decide

/-- Y22, Y23, Y24. -/
theorem test_movePulses :
    writes (.movePulses 0 .fwd 127 4294967295) [0xE0#8, 0xFD#8, 0x7F#8, 0xFF#8, 0xFF#8, 0xFF#8, 0xFF#8, 0x58#8] = true
    ∧ writes (.movePulses 0 .rev 0 0) [0xE0#8, 0xFD#8, 0x80#8, 0x00#8, 0x00#8, 0x00#8, 0x00#8, 0x5D#8] = true
    ∧ holdsAfter (exec (.movePulses 0 .fwd 5 4294967296) openState)
      (fun t => decide (lastOutcome t = some (.abort .outOfRange)) && t.txLog.isEmpty) = true := by decide

/-- Z1, with its own timeout. -/
theorem test_rtzSetPoint :
    holdsAfter (exec (.rtzSetPoint 0) openState) (fun t => decide (t.txLog = [[0xE0#8, 0x91#8, 0x00#8, 0x71#8]])
      && decide ((t.ch 0).dsp = .settle 0x91#8 500 2)) = true := by decide

/-- Z3. -/
theorem test_rtzMode :
    writes (.rtzMode 0 .dir) [0xE0#8, 0x90#8, 0x01#8, 0x71#8] = true
    ∧ writes (.rtzMode 0 .near) [0xE0#8, 0x90#8, 0x02#8, 0x72#8] = true := by decide

/-- S6, Z4, Z5. -/
theorem test_rtzSpeed :
    writes (.rtzSpeed 0 (-1)) [0xE0#8, 0x92#8, 0x04#8, 0x76#8] = true
    ∧ writes (.rtzSpeed 0 1) [0xE0#8, 0x92#8, 0x03#8, 0x75#8] = true
    ∧ writes (.rtzSpeed 0 9) [0xE0#8, 0x92#8, 0x00#8, 0x72#8] = true := by decide

/-- Z6. -/
theorem test_rtzDirection :
    writes (.rtzDirection 0 .fwd) [0xE0#8, 0x93#8, 0x00#8, 0x73#8] = true
    ∧ writes (.rtzDirection 0 .rev) [0xE0#8, 0x93#8, 0x01#8, 0x74#8] = true := by decide

/-- Z7, Z8 at tick 2. -/
theorem test_rtzGoto :
    holdsAfter (exec (.rtzGoto 0) (setOffset 0 100 (pollAt (.rtzGoto 0) {} 0x94#8 500 0 (some [0xE0#8, 0x01#8, 0xE1#8]))))
      (fun t => decide ((t.ch 0).offset = 0) && decide (lastOutcome t = some (.ok true))) = true
    ∧ holdsAfter (exec (.rtzGoto 0) (setOffset 0 100 (pollAt (.rtzGoto 0) {} 0x94#8 500 0 (some [0xE0#8, 0x00#8, 0xE0#8]))))
      (fun t => decide ((t.ch 0).offset = 100) && decide (lastOutcome t = some (.ok false))) = true := by decide

/-- Z10. -/
theorem test_calibrate :
    writes (.calibrate 0) [0xE0#8, 0x80#8, 0x00#8, 0x60#8] = true
    ∧ endsWith (.calibrate 0) 0x80#8 [0xE0#8, 0x01#8, 0xE1#8] (.ok true) = true := by decide

/-- W11 as the first instruction after reset: the operation runs and aborts, because no transport is open. -/
theorem test_first_word_runs :
    holdsAfter (step (State.reset.withFetchWord 16 0xE036))
      (fun t => decide (lastOutcome t = some (.abort .transportNotOpen)) && decide (t.diag = [⟨0, 0, .transportNotOpen⟩])
        && t.txLog.isEmpty && decide (t.now = 1)) = true := by decide

/-- Y12, Q7, Q5: the port. -/
theorem test_port_refuses :
    (submit ⟨.op .setEnable, [.int 0, .int 2]⟩ openState).refused = true
    ∧ (submit ⟨.unknown 0, [.int 0]⟩ openState).refused = true
    ∧ lastOutcome (submit ⟨.op .readPosition, [.int 16]⟩ openState) = some (.fault .badAddress) := by decide

/-! ### Witnesses: for every statement with hypotheses, a state and operands that meet all of them -/

theorem witness_VerifyComparesLastByteWithSum :
    ([0xE0#8] : Frame).length < 2 ∧ 1 ≤ ([0xE0#8] : Frame).length := by decide

theorem witness_OneChangedByteFailsChecksum :
    1 ≤ ([0xE0#8] : Frame).length ∧ (0x16#8 ≠ 0x17#8 ∧ verifyChecksum ([0xE0#8, 0x36#8] ++ 0x16#8 :: []) = true)
    ∧ (0xE0#8 ≠ 0xE1#8 ∧ verifyChecksum ([] ++ 0xE0#8 :: [0x36#8, 0x16#8]) = true) := by decide

/-- At the highest base address whose sixteen wire addresses fit a byte. -/
theorem witness_BuildersLayOutTheFormats :
    ({ Config.standard with baseAddr := 0xF0#8 } : Config).baseAddr.toNat + (15 : Index).val < 256 := by decide

theorem witness_FixOverflowInvertsWraparound :
    Config.standard.overflowThreshold = 2147483647 ∧ (-2147483648 : Int) ≤ -2147483648
    ∧ (-2147483648 : Int) ≤ 2147483647 := by decide

theorem witness_EncodeSpeedFoldsDirection :
    (Config.standard.speedMax ≤ 127 ∧ (0 : Int) ≤ 127 ∧ (127 : Int) ≤ Config.standard.speedMax)
    ∧ ((-1 : Int) < 0 ∨ (Config.standard.speedMax : Int) < -1) ∧ ((128 : Int) < 0 ∨ (Config.standard.speedMax : Int) < 128)
    ∧ Config.standard.speedMax = 127 := by decide

theorem witness_SpeedByteRoundTrip :
    Config.standard.speedMax ≤ 127 ∧ encodeSpeed Config.standard (127 : Nat) false = some 0xFF#8
    ∧ Config.standard.speedMax = 127 := by decide

theorem witness_RtzSpeedIsInvertedAndClamped :
    ({ Config.standard with rtzSpeedMax := 255 } : Config).rtzSpeedMax ≤ 255 ∧ Config.standard.rtzSpeedMax = 4 := by decide

theorem witness_MatchesComparesFirstByte : (15 : Index) ≠ 0 := by decide

/-- An operation with every operand form, at a bound of its range. -/
theorem witness_DecodeOfEncodeIsOperation :
    Config.standard.encodable = true
    ∧ ∀ i ∈ [Instr.readPosition 15, .setEnable 0 false, .start 15 .rev 127, .movePulses 0 .fwd 0 4294967295, .rtzMode 0 .near,
        .rtzSpeed 0 0, .rtzSpeed 0 4, .rtzDirection 0 .rev, .calibrate 0], i.wellFormed Config.standard = true := by decide

theorem witness_DecodedFrameIsItsEncoding :
    decodeFrame Config.standard [0xE3#8, 0xFD#8, 0x94#8, 0x00#8, 0x00#8, 0x06#8, 0x40#8, 0xBA#8]
      = .ok (.movePulses 3 .rev 20 1600) := by decide

/-- Each way in which a descriptor is undecodable, and a decodable one. -/
theorem witness_UndecodableDescriptorIsRefused :
    (∀ d ∈ [Descriptor.mk (.unknown 0) [.int 0], ⟨.op .start, [.int 0, .dir, .int 5]⟩, ⟨.op .start, [.int 0, .fwd, .rev]⟩,
        ⟨.op .movePulses, [.int 0, .fwd, .int 5, .unknown 0]⟩, ⟨.op .rtzDirection, [.int 0, .int 1]⟩,
        ⟨.op .stop, [.fwd]⟩, ⟨.op .stop, [.int 0, .int 0]⟩, ⟨.op .start, [.int 0, .fwd]⟩, ⟨.enable, [.int 0, .int 1]⟩,
        ⟨.configRtzDir, [.int 0, .fwd, .int 2]⟩], decodable d = false)
    ∧ decodable ⟨.op .start, [.int 16, .rev, .int (-1)]⟩ = true
    ∧ ((2 : Int) ≠ 0 ∧ (2 : Int) ≠ 1) ∧ (Arg.fwd ≠ .dir ∧ Arg.fwd ≠ .near) := by decide

/-- Every form at an index just outside the build. -/
theorem witness_BadAddressFaultsAtPort :
    (∀ d ∈ [Descriptor.mk (.op .stop) [.int 16], ⟨.op .setEnable, [.int 16, .int 1]⟩, ⟨.op .start, [.int 16, .fwd, .int 5]⟩,
        ⟨.op .movePulses, [.int 16, .rev, .int 5, .int 0]⟩, ⟨.op .rtzMode, [.int 16, .near]⟩,
        ⟨.op .rtzSpeed, [.int 16, .int 9]⟩, ⟨.op .rtzDirection, [.int 16, .rev]⟩, ⟨.enable, [.int 16]⟩, ⟨.disable, [.int 16]⟩,
        ⟨.configRtzDir, [.int 16, .int 2, .fwd]⟩, ⟨.configRtzNear, [.int 16]⟩], decodable d = true)
    ∧ decodable ⟨.op .stop, .int (-1) :: []⟩ = true ∧ (-1 : Int) < 0 ∧ (openState.cfg.nAddr : Int) ≤ 16 := by decide

theorem witness_IdlePortAcceptsOperation :
    openState.cfg.hasIndex (Instr.stop 15).index = true ∧ (openState.ch (Instr.stop 15).index).seq = .idle := by decide

/-- Index 0 polls a position read and an encoder read is submitted, under each policy. -/
theorem witness_BusyPortTurnsSubmissionAway :
    openState.cfg.hasIndex (Instr.readEncoder 0).index = true ∧
    ((pollAt (.readPosition 0) {} 0x36#8 10 0 none).ch (Instr.readEncoder 0).index).seq = .run (.readPosition 0) .inSend {}
    ∧ (pollAt (.readPosition 0) {} 0x36#8 10 0 none).cfg.overlapPolicy = .fault
    ∧ ({ pollAt (.readPosition 0) {} 0x36#8 10 0 none with cfg := { Config.standard with overlapPolicy := .busy } } : State).cfg.overlapPolicy
        = .busy
    ∧ Instr.readPosition 0 ≠ .readEncoder 0 := by decide

theorem witness_PseudoOperationsExpand :
    openState.cfg.hasIndex 0 = true ∧
    ((setScript 0 [.rtzSpeed 0 2, .rtzDirection 0 .fwd] openState).ch 0).seq = .idle
    ∧ ((setScript 0 [.rtzSpeed 0 2, .rtzDirection 0 .fwd] openState).ch 0).script = .rtzSpeed 0 2 :: [.rtzDirection 0 .fwd] := by
  decide

theorem witness_StepRunsSubmittedOperation :
    (let s : State := { openState with inputs := [{ calls := [descriptorOf (.stop 15)] }, {}] }
     s.inputs = { calls := [descriptorOf (.stop 15)] } :: [{}] ∧ s.cfg.hasIndex 15 = true ∧ AllIdle s)
    ∧ (let s : State := { pollAt (.stop 15) {} 0xF7#8 10 0 none with inputs := [{}] }
       s.inputs = {} :: [] ∧ ({} : TickInput).calls = [] ∧ (s.ch 15).seq = .run (.stop 15) .inSend {}
       ∧ s.cfg.hasIndex 15 = true
       ∧ ∀ b : Index, b ≠ 15 → (s.ch b).seq = .idle ∧ (s.ch b).script = []) :=
  ⟨⟨rfl, by decide, allIdle_openState⟩, rfl, rfl, by decide, by decide, fun b hb => by
    have h : State.ch { pollAt (.stop 15) {} 0xF7#8 10 0 none with inputs := [{}] } b = Channel.reset :=
      (ch_setCh_ne openState _ hb).trans (ch_openState b)
    rw [h]
    exact ⟨rfl, rfl⟩⟩

theorem witness_StepRunsTableWord :
    decodeTableWord 16 0xE0F7 = some (.stop 0) ∧ openState.cfg.hasIndex 0 = true ∧ AllIdle openState ∧ openState.inputs = [] :=
  ⟨by decide, by decide, allIdle_openState, rfl⟩

theorem witness_StepAdvancesTimeAndKeepsMarks :
    ∃ t, step { openState with faulted := true, refused := true, inputs := [{ link := some .closed }] } = .next t := ⟨_, rfl⟩

theorem witness_StepOnlyAppendsToLogs :
    ∃ t, step (pollAt (.readPosition 0) {} 0x36#8 10 10 none) = .next t := ⟨_, rfl⟩

theorem witness_ReadsWriteTheirRequest :
    Ready 15 openState ∧ openState.txOpen = true ∧ 1 ≤ openState.cfg.settleTicks := by decide

/-- The hypotheses on the state are those of the reads; a speed at its bound. -/
theorem witness_MotionWritesItsRequest :
    Ready 15 openState ∧ openState.txOpen = true ∧ 1 ≤ openState.cfg.settleTicks
    ∧ 127 ≤ openState.cfg.speedMax ∧ openState.cfg.speedMax ≤ 127 := by decide

theorem witness_RtzAndCalibrateWriteTheirRequest :
    Ready 0 openState ∧ openState.txOpen = true ∧ 1 ≤ openState.cfg.settleTicks := by decide

/-- From each shadow, and at both later positions of an enable. -/
theorem witness_SetEnableWritesItsRequest :
    ((openState.ch 0).dsp = .idle ∧ openState.txOpen = true ∧ 1 ≤ openState.cfg.settleTicks
      ∧ (openState.ch 0).seq = .idle ∧ (openState.ch 0).isEnabled = false)
    ∧ (((setEnabled 0 true openState).ch 0).dsp = .idle ∧ (setEnabled 0 true openState).txOpen = true
      ∧ ((setEnabled 0 true openState).ch 0).seq = .idle ∧ ((setEnabled 0 true openState).ch 0).isEnabled = true)
    ∧ (let s := setSeq 0 (.run (.setEnable 0 true) .readDue ⟨2, none⟩) openState
       (s.ch 0).dsp = .idle ∧ s.txOpen = true ∧ 1 ≤ s.cfg.settleTicks
       ∧ (s.ch 0).seq = .run (.setEnable 0 true) .readDue ⟨2, none⟩)
    ∧ (let s := setSeq 0 (.run (.setEnable 0 true) .enableDue ⟨1, some 100⟩) openState
       (s.ch 0).dsp = .idle ∧ s.txOpen = true ∧ 1 ≤ s.cfg.settleTicks
       ∧ (s.ch 0).seq = .run (.setEnable 0 true) .enableDue ⟨1, some 100⟩) := by decide

theorem witness_ClosedTransportAborts :
    (Ready (Instr.start 0 .rev 127).index State.reset ∧ State.reset.txOpen = false
      ∧ outOfRange State.reset.cfg (.start 0 .rev 127) = false)
    ∧ (let s := setSeq 0 (.run (.setEnable 0 true) .enableDue ⟨1, some 100⟩) State.reset
       (s.ch 0).seq = .run (.setEnable 0 true) .enableDue ⟨1, some 100⟩ ∧ (s.ch 0).dsp = .idle ∧ s.txOpen = false) := by
  decide

theorem witness_OutOfRangeArgumentAborts :
    Ready 0 State.reset ∧ outOfRange State.reset.cfg (.start 0 .fwd 128) = true
    ∧ outOfRange State.reset.cfg (.movePulses 0 .fwd 5 4294967296) = true
    ∧ outOfRange State.reset.cfg (.movePulses 0 .fwd 5 (-1)) = true := by decide

/-- The state with no settle delay. -/
def noSettle : State := { openState with cfg := { Config.standard with settleTicks := 0 } }

theorem witness_NoSettleDelayPollsAtOnce :
    (oneSendOp (.stop 0) = true ∨ Instr.stop 0 = .setEnable 0 false
      ∨ (Instr.stop 0 = .setEnable 0 true ∧ (noSettle.ch 0).isEnabled = true))
    ∧ ((setEnabled 0 true noSettle).ch 0).isEnabled = true
    ∧ Ready 0 noSettle ∧ Ready 0 (setEnabled 0 true noSettle) ∧ noSettle.txOpen = true ∧ noSettle.cfg.settleTicks = 0
    ∧ outOfRange noSettle.cfg (.stop 0) = false ∧ outOfRange noSettle.cfg (.setEnable 0 true) = false := by decide

theorem witness_EnableWithNoSettleDelayPollsAtOnce :
    ((noSettle.ch 0).dsp = .idle ∧ noSettle.txOpen = true ∧ noSettle.cfg.settleTicks = 0 ∧ (noSettle.ch 0).seq = .idle
      ∧ (noSettle.ch 0).isEnabled = false)
    ∧ (let s := setSeq 0 (.run (.setEnable 0 true) .readDue ⟨2, none⟩) noSettle
       (s.ch 0).dsp = .idle ∧ s.txOpen = true ∧ s.cfg.settleTicks = 0
       ∧ (s.ch 0).seq = .run (.setEnable 0 true) .readDue ⟨2, none⟩)
    ∧ (let s := setSeq 0 (.run (.setEnable 0 true) .enableDue ⟨1, some 100⟩) noSettle
       (s.ch 0).dsp = .idle ∧ s.txOpen = true ∧ s.cfg.settleTicks = 0
       ∧ (s.ch 0).seq = .run (.setEnable 0 true) .enableDue ⟨1, some 100⟩) := by decide

theorem witness_SettleDelayDoesNotPoll :
    (({ Config.standard with pollTick := 3 } : Config).pollTick > 2 ∧ 1 * 3 + 2 < 10 ∧ Config.standard.pollTick = 1)
    ∧ (let s := setDsp 0 (.settle 0x36#8 10 2) (pollAt (.readPosition 0) {} 0x36#8 10 0 none)
       (s.ch 0).seq = .run (.readPosition 0) .inSend {} ∧ (s.ch 0).dsp = .settle 0x36#8 10 (0 + 2))
    ∧ (let s := setDsp 0 (.settle 0x36#8 10 1) (readAt 0 ⟨1, none⟩ 0 none)
       oneSendOp (.setEnable 0 true) = false ∧ (s.ch 0).seq = .run (.setEnable 0 true) .inRead ⟨1, none⟩
       ∧ (s.ch 0).dsp = .settle 0x36#8 10 1) := by decide

/-- W8 and W9: a short frame, and a frame for another address, at the poll before the last; and a tick between two polls. -/
theorem witness_UnmatchedPollOnlyCounts :
    (pollDue { Config.standard with pollTick := 3 } 10 4 = false ∧ 4 < 10)
    ∧ (slotMatches 0 (pollAt (.readPosition 0) {} 0x36#8 10 9 (some [0xE0#8])) = false ∧ 9 < 10
      ∧ Polling (.readPosition 0) {} 0x36#8 10 9 (pollAt (.readPosition 0) {} 0x36#8 10 9 (some [0xE0#8])))
    ∧ (slotMatches 0 (readAt 0 ⟨1, none⟩ 9 (some [0xE1#8, 0x01#8, 0xE2#8])) = false
      ∧ PollingRead 0 ⟨1, none⟩ 0x36#8 10 9 (readAt 0 ⟨1, none⟩ 9 (some [0xE1#8, 0x01#8, 0xE2#8]))) := by decide

/-- The last poll, and with a timeout of zero the only one (W12). -/
theorem witness_LastUnmatchedPollTimesOut :
    (Polling (.readPosition 0) {} 0x36#8 10 10 (pollAt (.readPosition 0) {} 0x36#8 10 10 none)
      ∧ slotMatches 0 (pollAt (.readPosition 0) {} 0x36#8 10 10 none) = false ∧ 10 ≤ 10)
    ∧ (Polling (.stop 15) {} 0xF7#8 0 0 (pollAt (.stop 15) {} 0xF7#8 0 0 none)
      ∧ slotMatches 15 (pollAt (.stop 15) {} 0xF7#8 0 0 none) = false) := by decide

/-- W10, at the last poll. -/
theorem witness_WrongChecksumEndsOperation :
    let r : Frame := [0xE0#8, 0x00#8, 0x00#8, 0x30#8, 0x39#8, 0x48#8]
    let s := pollAt (.readPosition 0) {} 0x36#8 10 10 (some r)
    Polling (.readPosition 0) {} 0x36#8 10 10 s ∧ s.rxSlot = some r ∧ matchesIndex s.cfg r 0 = true
    ∧ verifyChecksum r = false := by decide

/-- Three payload bytes for a position, and none for an action. -/
theorem witness_ShortPayloadFaults :
    (let s := pollAt (.readPosition 0) {} 0x36#8 10 0 (some [0xE0#8, 0x00#8, 0x30#8, 0x39#8, 0x49#8])
     Polling (.readPosition 0) {} 0x36#8 10 0 s ∧ Response 0 [0x00#8, 0x30#8, 0x39#8] s ∧ 3 < s.cfg.shapePosition.len)
    ∧ (let s := pollAt (.stop 0) {} 0xF7#8 10 0 (some [0xE0#8, 0xE0#8])
       Polling (.stop 0) {} 0xF7#8 10 0 s ∧ Response 0 [] s) := by decide

/-- X5 at the largest positive raw value; the standard build is unbounded. -/
theorem witness_ReadPositionAddsOffset :
    (let s := pollAt (.readPosition 0) {} 0x36#8 10 10 (some [0xE0#8, 0x7F#8, 0xFF#8, 0xFF#8, 0xFF#8, 0x5C#8])
     Polling (.readPosition 0) {} 0x36#8 10 10 s ∧ Response 0 (0x7F#8 :: 0xFF#8 :: 0xFF#8 :: 0xFF#8 :: []) s
     ∧ s.cfg.shapePosition.len = 4 ∧ s.cfg.overflowThreshold = 2147483647)
    ∧ InWidth Config.standard 2147483647 := ⟨by decide, fun _ h => by simp [Config.standard] at h⟩

/-- A thirty-two-bit build with offset 1 and the largest raw position: one above the largest value. -/
theorem witness_FixedWidthOverflowFaults :
    let wide : State → State := fun s => setOffset 0 1 { s with cfg := { Config.standard with offsetWidth := some 32 } }
    let p : List Byte := [0x7F#8, 0xFF#8, 0xFF#8, 0xFF#8]
    let s := wide (pollAt (.readPosition 0) {} 0x36#8 10 0 (some [0xE0#8, 0x7F#8, 0xFF#8, 0xFF#8, 0xFF#8, 0x5C#8]))
    let r := wide (readAt 0 ⟨1, none⟩ 0 (some [0xE0#8, 0x7F#8, 0xFF#8, 0xFF#8, 0xFF#8, 0x5C#8]))
    Response 0 p s ∧ Response 0 p r ∧ s.cfg.shapePosition.len ≤ p.length ∧ s.cfg.offsetWidth = some 32
    ∧ r.cfg.offsetWidth = some 32
    ∧ Polling (.readPosition 0) {} 0x36#8 10 0 s ∧ PollingRead 0 ⟨1, none⟩ 0x36#8 10 0 r
    ∧ (2 ^ 32 : Int) ≤ 2 * (rawOfPayload s.cfg (p.take s.cfg.shapePosition.len) + (s.ch 0).offset)
    ∧ (2 ^ 32 : Int) ≤ 2 * captureOffset r.cfg (rawOfPayload r.cfg (p.take r.cfg.shapePosition.len)) (r.ch 0).offset := by
  decide

/-- X11 and X15, the bounds of the two ranges. -/
theorem witness_SixteenBitReadsDecode :
    (let s := pollAt (.readEncoder 0) {} 0x30#8 10 0 (some [0xE0#8, 0xFF#8, 0xFF#8, 0xDE#8])
     Response 0 (0xFF#8 :: 0xFF#8 :: []) s ∧ s.cfg.shapeEncoder = ⟨2, false⟩ ∧ Polling (.readEncoder 0) {} 0x30#8 10 0 s)
    ∧ (let s := pollAt (.readAngleError 0) {} 0x39#8 10 0 (some [0xE0#8, 0x80#8, 0x00#8, 0x60#8])
       Response 0 (0x80#8 :: 0x00#8 :: []) s ∧ s.cfg.shapeAngleError = ⟨2, true⟩
       ∧ Polling (.readAngleError 0) {} 0x39#8 10 0 s) := by decide

/-- X12. -/
theorem witness_ReadPulsesIsSignedWithoutOffset :
    let s := pollAt (.readPulses 0) {} 0x33#8 10 0 (some [0xE0#8, 0xFF#8, 0xFF#8, 0xFF#8, 0xFF#8, 0xDC#8])
    Polling (.readPulses 0) {} 0x33#8 10 0 s ∧ Response 0 (0xFF#8 :: 0xFF#8 :: 0xFF#8 :: 0xFF#8 :: []) s
    ∧ s.cfg.shapePulses = ⟨4, true⟩ := by decide

/-- X16 and X18. -/
theorem witness_ByteReadsAreRaw :
    (let s := pollAt (.readDriverState 0) {} 0x3A#8 10 0 (some [0xE0#8, 0x02#8, 0xE2#8])
     Response 0 (0x02#8 :: []) s ∧ s.cfg.shapeDriverState = ⟨1, false⟩ ∧ Polling (.readDriverState 0) {} 0x3A#8 10 0 s)
    ∧ (let s := pollAt (.readBlockFlag 0) {} 0x3E#8 10 0 (some [0xE0#8, 0x00#8, 0xE0#8])
       Response 0 (0x00#8 :: []) s ∧ s.cfg.shapeBlockFlag = ⟨1, false⟩ ∧ Polling (.readBlockFlag 0) {} 0x3E#8 10 0 s) := by
  decide

/-- Y20, with a status that is success. -/
theorem witness_PlainActionReportsStatus :
    let s := pollAt (.stop 15) {} 0xF7#8 10 0 (some [0xEF#8, 0x01#8, 0xF0#8])
    plainAction (.stop 15) = true ∧ Polling (.stop 15) {} 0xF7#8 10 0 s ∧ Response 15 (0x01#8 :: []) s
    ∧ 0x01#8 = s.cfg.statusOk := by decide

/-- Z7 and Z8. -/
theorem witness_RtzGotoResetsOffsetOnSuccess :
    (let s := setOffset 0 100 (pollAt (.rtzGoto 0) {} 0x94#8 500 0 (some [0xE0#8, 0x01#8, 0xE1#8]))
     Polling (.rtzGoto 0) {} 0x94#8 500 0 s ∧ Response 0 (0x01#8 :: []) s ∧ 0x01#8 = s.cfg.statusOk)
    ∧ (let s := setOffset 0 100 (pollAt (.rtzGoto 0) {} 0x94#8 500 0 (some [0xE0#8, 0x00#8, 0xE0#8]))
       Polling (.rtzGoto 0) {} 0x94#8 500 0 s ∧ Response 0 (0x00#8 :: []) s ∧ 0x00#8 ≠ s.cfg.statusOk) := by decide

/-- Y1, Y2 and Y10 at their last tick. -/
theorem witness_SetEnableCommitsOnSuccess :
    (let s := pollAt (.setEnable 0 true) ⟨1, some 100⟩ 0xF3#8 10 0 (some [0xE0#8, 0x01#8, 0xE1#8])
     Polling (.setEnable 0 true) ⟨1, some 100⟩ 0xF3#8 10 0 s ∧ Response 0 (0x01#8 :: []) s ∧ 0x01#8 = s.cfg.statusOk)
    ∧ (let s := pollAt (.setEnable 0 true) ⟨1, some 100⟩ 0xF3#8 10 0 (some [0xE0#8, 0x00#8, 0xE0#8])
       Polling (.setEnable 0 true) ⟨1, some 100⟩ 0xF3#8 10 0 s ∧ Response 0 (0x00#8 :: []) s ∧ 0x00#8 ≠ s.cfg.statusOk)
    ∧ (let s := setEnabled 0 true (pollAt (.setEnable 0 false) {} 0xF3#8 10 0 (some [0xE0#8, 0x01#8, 0xE1#8]))
       Polling (.setEnable 0 false) {} 0xF3#8 10 0 s ∧ Response 0 (0x01#8 :: []) s ∧ 0x01#8 = s.cfg.statusOk
       ∧ ({} : Locals).raw = none) := by decide

/-- Y1 at tick 2. -/
theorem witness_EnableReadKeepsRawPosition :
    (let s := readAt 0 ⟨1, none⟩ 0 (some [0xE0#8, 0x00#8, 0x00#8, 0x00#8, 0x64#8, 0x44#8])
     PollingRead 0 ⟨1, none⟩ 0x36#8 10 0 s ∧ Response 0 (0x00#8 :: 0x00#8 :: 0x00#8 :: 0x64#8 :: []) s
     ∧ s.cfg.shapePosition.len = 4 ∧ s.cfg.overflowThreshold = 2147483647)
    ∧ InWidth Config.standard (captureOffset Config.standard 100 0) :=
  ⟨by decide, fun _ h => by simp [Config.standard] at h⟩

/-- Y4: an attempt before the last, and the last. -/
theorem witness_EnableReadIsRetriedThenAborts :
    (let s := readAt 0 ⟨9, none⟩ 10 none
     PollingRead 0 ⟨9, none⟩ 0x36#8 10 10 s ∧ slotMatches 0 s = false ∧ (10 : Nat) ≤ 10 ∧ 9 ≠ s.cfg.enableAttempts)
    ∧ (let s := readAt 0 ⟨10, none⟩ 10 none
       PollingRead 0 ⟨10, none⟩ 0x36#8 10 10 s ∧ slotMatches 0 s = false ∧ 10 = s.cfg.enableAttempts) := by decide

/-- Y6 and Y7. -/
theorem witness_EnableReadFailures :
    (let r : Frame := [0xE0#8, 0x00#8, 0x00#8, 0x00#8, 0x64#8, 0x45#8]
     let s := readAt 0 ⟨1, none⟩ 0 (some r)
     PollingRead 0 ⟨1, none⟩ 0x36#8 10 0 s ∧ s.rxSlot = some r ∧ matchesIndex s.cfg r 0 = true ∧ verifyChecksum r = false
     ∧ 1 ≠ s.cfg.enableAttempts ∧ ({ attempt := 10 } : Locals).attempt = s.cfg.enableAttempts
     ∧ PollingRead 0 ⟨10, none⟩ 0x36#8 10 0 (readAt 0 ⟨10, none⟩ 0 (some r)))
    ∧ (let s := readAt 0 ⟨1, none⟩ 0 (some [0xE0#8, 0x01#8, 0xE1#8])
       PollingRead 0 ⟨1, none⟩ 0x36#8 10 0 s ∧ Response 0 [0x01#8] s ∧ 1 < s.cfg.shapePosition.len) := by decide

theorem witness_OperationTouchesOnlyItsIndex : ∃ t, exec (.stop 15) openState = .next t := ⟨_, rfl⟩

/-- Y1: the offset and the shadow both change. -/
theorem witness_OffsetChangesInTwoPlaces :
    let s := pollAt (.setEnable 0 true) ⟨1, some 100⟩ 0xF3#8 10 0 (some [0xE0#8, 0x01#8, 0xE1#8])
    ∃ t, exec (.setEnable 0 true) s = .next t ∧ (t.ch 0).offset ≠ (s.ch 0).offset := ⟨_, rfl, by decide⟩

/-- Z7: the offset changes. -/
theorem witness_OffsetChangesInTwoPlaces_goto :
    let s := setOffset 0 100 (pollAt (.rtzGoto 0) {} 0x94#8 500 0 (some [0xE0#8, 0x01#8, 0xE1#8]))
    ∃ t, exec (.rtzGoto 0) s = .next t ∧ (t.ch 0).offset ≠ (s.ch 0).offset := ⟨_, rfl, by decide⟩

theorem witness_OnlySetEnableChangesShadow :
    let s := pollAt (.setEnable 0 true) ⟨1, some 100⟩ 0xF3#8 10 0 (some [0xE0#8, 0x01#8, 0xE1#8])
    ∃ t, exec (.setEnable 0 true) s = .next t ∧ (t.ch 0).isEnabled ≠ (s.ch 0).isEnabled := ⟨_, rfl, by decide⟩

/-- W9, with another index's frame in the slot. -/
theorem witness_OtherFramesStayInSlot :
    let s := pollAt (.readPosition 0) {} 0x36#8 10 0 (some [0xE1#8, 0x01#8, 0xE2#8])
    ∃ t, exec (.readPosition 0) s = .next t ∧ slotMatches 0 s = false ∧ t.txLog = s.txLog := ⟨_, rfl, by decide⟩

theorem witness_FrameMatchesAtMostOneIndex :
    matchesIndex Config.standard [0xE1#8, 0x01#8, 0xE2#8] 1 = true := by decide

theorem witness_OtherFramesDoNotShow :
    let s := pollAt (.readPosition 0) {} 0x36#8 10 0 none
    slotMatches 0 { s with rxSlot := none } = false
    ∧ slotMatches 0 { s with rxSlot := some [0xE1#8, 0x01#8, 0xE2#8] } = false
    ∧ ∃ t, exec (.readPosition 0) { s with rxSlot := none } = .next t := ⟨by decide, by decide, _, rfl⟩

/-- W17 at tick 2: indices 0 and 1 both poll, and the slot holds the response of index 0. -/
def bothPoll : State :=
  { (openState.setCh 0 { Channel.reset with
      pending := some 0x36#8, dsp := .await 0x36#8 10 0, seq := .run (.readPosition 0) .inSend {} }).setCh 1
    { Channel.reset with pending := some 0x36#8, dsp := .await 0x36#8 10 0, seq := .run (.readPosition 1) .inSend {} }
    with rxSlot := some [0xE0#8, 0x00#8, 0x00#8, 0x30#8, 0x39#8, 0x49#8] }

theorem consistent_bothPoll : Consistent bothPoll :=
  consistent_setCh (consistent_setCh consistent_openState (by decide)) (by decide)

theorem witness_PollingIndicesCommute :
    (0 : Index) ≠ 1 ∧ Consistent bothPoll ∧ (bothPoll.ch 0).dsp ≠ .idle ∧ (bothPoll.ch 1).dsp ≠ .idle
    ∧ ∃ s1 s12 s2 s21, indexStep 0 bothPoll = .next s1 ∧ indexStep 1 s1 = .next s12
        ∧ indexStep 1 bothPoll = .next s2 ∧ indexStep 0 s2 = .next s21 :=
  ⟨by decide, consistent_bothPoll, by decide, by decide, _, _, _, _, rfl, rfl, rfl, rfl⟩

theorem witness_StepKeepsConsistent : Consistent bothPoll ∧ ∃ t, step bothPoll = .next t := ⟨consistent_bothPoll, _, rfl⟩

theorem witness_ResetIsConsistent : 1 ≤ ({ Config.standard with enableAttempts := 1 } : Config).enableAttempts := by decide

theorem witness_ConsistentStateNeverStops : Consistent bothPoll := consistent_bothPoll

/-- The poll before the last, with a frame of index 1 on its way. -/
theorem witness_UnansweredSendTimesOutOnTime :
    let s : State := { pollAt (.readPosition 0) {} 0x36#8 10 9 none with
      inputs := [{ rx := some [0xE1#8, 0x01#8, 0xE2#8] }, {}] }
    Consistent s ∧ Waiting (.readPosition 0) {} 0x36#8 10 9 s ∧ slotMatches 0 s = false
    ∧ NoMatchArrives 0 (10 - 9 + 1) s := by
  refine ⟨consistent_setCh (s := openState) consistent_openState (by decide), by decide, by decide, ?_⟩
  intro inp h f hf
  simp only [List.take_succ_cons, List.take_zero, List.mem_cons, List.not_mem_nil, or_false] at h
  rcases h with rfl | rfl
  · cases hf; decide
  · cases hf

theorem witness_EveryOperationEnds :
    Consistent (readAt 0 ⟨1, none⟩ 0 none) ∧ ((readAt 0 ⟨1, none⟩ 0 none).ch 0).seq ≠ .idle :=
  ⟨consistent_setCh (s := openState) consistent_openState (by decide), by decide⟩

end Sys2Proof.Tests
end

section
/-! PROOFS of the statements about the state (10_state.md). -/

namespace Sys2Proof.Proofs.Reset

open Sys2Proof Sys2Proof.Machine

/-- The draws that the reset action keeps are no index's: the index's state is that of `State.resetWith`. -/
@[simp] theorem ch_resetEngine (s : State) (a : Index) : (resetEngine s).ch a = Channel.reset :=
  ch_resetWith s.cfg a

/-- Settles O59: the fields outside the indices are those `State.resetWith` writes out, and every index is `Channel.reset`. -/
theorem resetLeavesTheRulesValues : Obligations.ResetLeavesTheRulesValues := by
  intro s
  refine ⟨rfl, rfl, rfl, rfl, rfl, rfl, rfl, rfl, fun a => ?_⟩
  rw [ch_resetEngine]
  exact ⟨rfl, rfl, rfl, rfl, rfl⟩

end Sys2Proof.Proofs.Reset
end

section
/-! PROOFS of the statements about the codec (40_codec.md): the checksum, the frame builders, the big-endian values, the speed
bytes and the correlation predicate. -/

namespace Sys2Proof.Proofs.Codec

open Sys2Proof Sys2Proof.Machine

/-! ### Checksum and correlation (R100 to R102, R116) -/

/-- Settles O1: the checksum's number is the reduced byte sum. -/
theorem checksumIsSumModulo256 : Obligations.ChecksumIsSumModulo256 :=
  ⟨checksum_toNat, checksum_nil, by decide⟩

/-- Every builder puts at least the address and the command before the checksum. -/
theorem two_le_length_requestBody (cfg : Config) (a : Index) (cmd : Byte) (val : Val) :
    2 ≤ (requestBody cfg a cmd val).length := by
  cases val <;> simp [requestBody, buildF2, buildF3, buildF4, buildF7]

theorem verifyChecksum_of_length_lt_two {f : Frame} (h : f.length < 2) : verifyChecksum f = false := by
  simp [verifyChecksum, h]

theorem matchesIndex_of_length_lt_two {f : Frame} (h : f.length < 2) (cfg : Config) (a : Index) :
    matchesIndex cfg f a = false := by
  simp [matchesIndex, h]

theorem matchesIndex_cons_cons (cfg : Config) (a : Index) (A b : Byte) (rest : List Byte) :
    matchesIndex cfg (A :: b :: rest) a = true ↔ A = wireAddr cfg a := by
  simp [matchesIndex]

/-- A frame that bears one index's wire address matches no other index, because wire addresses are distinct. -/
theorem matchesIndex_other (cfg : Config) {a b : Index} (h : b ≠ a) (rest : List Byte) :
    matchesIndex cfg (wireAddr cfg b :: rest) a = false := by
  cases rest with
  | nil => exact matchesIndex_of_length_lt_two (by simp) cfg a
  | cons c rest =>
    rw [← Bool.not_eq_true, matchesIndex_cons_cons]
    exact fun heq => h (wireAddr_inj cfg heq)

/-- Settles O2: a frame with a last byte verifies by `verify_concat`; a shorter one neither verifies nor matches. -/
theorem verifyComparesLastByteWithSum : Obligations.VerifyComparesLastByteWithSum := by
  refine ⟨fun _ => rfl, rfl, two_le_length_requestBody, by decide, ?_, ?_, by decide, by decide⟩
  · intro f hf
    exact ⟨verifyChecksum_of_length_lt_two hf, matchesIndex_of_length_lt_two hf⟩
  · intro f k hf
    rw [verify_concat f k hf, decide_eq_true_iff]

/-- Settles O10: two bytes are compared by the first, fewer are none's, and wire addresses tell indices apart. -/
theorem matchesComparesFirstByte : Obligations.MatchesComparesFirstByte := by
  refine ⟨matchesIndex_cons_cons, ?_, fun cfg _ _ rest hne => matchesIndex_other cfg hne rest,
    by decide, by decide, by decide⟩
  intro cfg a A
  exact ⟨matchesIndex_of_length_lt_two (by simp) cfg a, matchesIndex_of_length_lt_two (by simp) cfg a⟩

/-! ### Big-endian values (R9) -/

/-- Bytes shifted off above the lowest eight bits do not show in a byte. -/
theorem ofNat_mul_256_add (n : Nat) (b : Byte) : BitVec.ofNat 8 (n * 256 + b.toNat) = b := by
  apply BitVec.eq_of_toNat_eq
  have hb := b.isLt
  rw [BitVec.toNat_ofNat]
  omega

/-- Dividing by 256 drops the last byte of a big-endian value. -/
theorem mul_256_add_div (n : Nat) (b : Byte) : (n * 256 + b.toNat) / 256 = n := by
  have hb := b.isLt
  omega

theorem be16_of_bytes (b1 b0 : Byte) : be16 (b1.toNat * 256 + b0.toNat) = [b1, b0] := by
  simp [be16, ofNat_mul_256_add, mul_256_add_div]

theorem be32_of_bytes (b3 b2 b1 b0 : Byte) :
    be32 (((b3.toNat * 256 + b2.toNat) * 256 + b1.toNat) * 256 + b0.toNat) = [b3, b2, b1, b0] := by
  have h16 (v : Nat) : v / 65536 = v / 256 / 256 := (Nat.div_div_eq_div_mul v 256 256).symm
  have h24 (v : Nat) : v / 16777216 = v / 256 / 256 / 256 := by simp only [Nat.div_div_eq_div_mul]
  simp [be32, h16, h24, ofNat_mul_256_add, mul_256_add_div]

/-! ### Frame builders (R103 to R106, R115) -/

/-- The wire address is the plain sum wherever that fits a byte. -/
theorem wireAddr_toNat_of_fits {cfg : Config} {a : Index} (h : cfg.baseAddr.toNat + a.val < 256) :
    (wireAddr cfg a).toNat = cfg.baseAddr.toNat + a.val := by
  rw [wireAddr_toNat, Nat.mod_eq_of_lt h]

theorem buildF4_of_bytes (cfg : Config) (a : Index) (cmd b1 b0 : Byte) :
    buildF4 cfg a cmd (b1.toNat * 256 + b0.toNat) = [wireAddr cfg a, cmd, b1, b0] := by
  rw [buildF4, be16_of_bytes]; rfl

theorem buildF7_of_bytes (cfg : Config) (a : Index) (cmd s b3 b2 b1 b0 : Byte) :
    buildF7 cfg a cmd s (((b3.toNat * 256 + b2.toNat) * 256 + b1.toNat) * 256 + b0.toNat)
      = [wireAddr cfg a, cmd, s, b3, b2, b1, b0] := by
  rw [buildF7, be32_of_bytes]; rfl

/-- Settles O4: F2 and F3 as defined, F4 and F7 by the big-endian bytes of their values. -/
theorem buildersLayOutTheFormats : Obligations.BuildersLayOutTheFormats :=
  ⟨fun _ _ _ _ => ⟨rfl, rfl⟩, buildF4_of_bytes, buildF7_of_bytes, fun _ _ => wireAddr_toNat_of_fits,
    by decide, by decide, by decide, by decide, by decide, by decide⟩

/-! ### Payload decoders (R107 to R110) -/

theorem decodeU16_bytes (b1 b0 : Byte) : decodeU16 [b1, b0] = b1.toNat * 256 + b0.toNat := by
  simp [decodeU16, beNat]

theorem decodeU32_bytes (b3 b2 b1 b0 : Byte) :
    decodeU32 [b3, b2, b1, b0] = ((b3.toNat * 256 + b2.toNat) * 256 + b1.toNat) * 256 + b0.toNat := by
  simp [decodeU32, beNat]

/-- The sign of a two's complement value is bit 7 of its first byte: two bytes. -/
theorem decodeS16_bytes (b1 b0 : Byte) :
    decodeS16 [b1, b0] = if b1.toNat < 128 then (decodeU16 [b1, b0] : Int) else (decodeU16 [b1, b0] : Int) - 65536 := by
  have hsign : 2 * decodeU16 [b1, b0] < 2 ^ 16 ↔ b1.toNat < 128 := by
    have h0 := b0.isLt
    rw [decodeU16_bytes]
    omega
  simp [decodeS16, sext, ← hsign]

/-- The sign of a two's complement value is bit 7 of its first byte: four bytes. -/
theorem decodeS32_bytes (b3 b2 b1 b0 : Byte) :
    decodeS32 [b3, b2, b1, b0] = if b3.toNat < 128 then (decodeU32 [b3, b2, b1, b0] : Int)
      else (decodeU32 [b3, b2, b1, b0] : Int) - 4294967296 := by
  have hsign : 2 * decodeU32 [b3, b2, b1, b0] < 2 ^ 32 ↔ b3.toNat < 128 := by
    have h0 := b0.isLt
    have h1 := b1.isLt
    have h2 := b2.isLt
    rw [decodeU32_bytes]
    omega
  simp [decodeS32, sext, ← hsign]

/-- Settles O5: the big-endian value of each payload, and its sign by the first byte. -/
theorem decodersReadBigEndian : Obligations.DecodersReadBigEndian := by
  refine ⟨fun b1 b0 => ⟨decodeU16_bytes b1 b0, ?_⟩,
    fun b3 b2 b1 b0 => ⟨decodeU32_bytes b3 b2 b1 b0, decodeS32_bytes b3 b2 b1 b0⟩, ?_⟩
  · rw [decodeS16_bytes, decodeU16_bytes]
  · decide

/-! ### Speed bytes (R112, R114) -/

theorem speedInRange_iff (cfg : Config) (speed : Int) :
    speedInRange cfg speed = true ↔ 0 ≤ speed ∧ speed ≤ cfg.speedMax := by
  simp [speedInRange]

theorem encodeSpeed_of_inRange {cfg : Config} {speed : Int} (forward : Bool) (h0 : 0 ≤ speed) (h1 : speed ≤ cfg.speedMax) :
    encodeSpeed cfg speed forward = some (speedByte speed forward) :=
  if_pos ((speedInRange_iff cfg speed).2 ⟨h0, h1⟩)

theorem encodeSpeed_of_outOfRange {cfg : Config} {speed : Int} (forward : Bool) (h : speed < 0 ∨ (cfg.speedMax : Int) < speed) :
    encodeSpeed cfg speed forward = none := by
  refine if_neg fun hin => ?_
  obtain ⟨h0, h1⟩ := (speedInRange_iff cfg speed).1 hin
  omega

/-- The encoder reads one parameter only, so a corner case can be evaluated under any configuration that has its value. -/
theorem encodeSpeed_congr {cfg cfg' : Config} (h : cfg.speedMax = cfg'.speedMax) (speed : Int) (forward : Bool) :
    encodeSpeed cfg speed forward = encodeSpeed cfg' speed forward := by
  have hrange : speedInRange cfg speed = speedInRange cfg' speed := by simp only [speedInRange, h]
  rw [encodeSpeed, hrange, encodeSpeed]

/-- A number that fits a byte is read back from the byte it is put into. -/
theorem toNat_ofInt_of_byte {v : Int} (h0 : 0 ≤ v) (h1 : v < 256) : ((BitVec.ofInt 8 v).toNat : Int) = v := by
  rw [BitVec.toNat_ofInt]
  omega

/-- A magnitude of seven bits leaves bit 7 to the direction. -/
theorem speedByte_toNat {speed : Int} (forward : Bool) (h0 : 0 ≤ speed) (h1 : speed ≤ 127) :
    ((speedByte speed forward).toNat : Int) = (if forward then 0x00 else 0x80) + speed := by
  cases forward <;> exact toNat_ofInt_of_byte (by simp; omega) (by simp; omega)

/-- Settles O7: in range the speed byte, whose number is the magnitude with the direction's bit; outside none; the corner
cases by evaluation at a configuration with `speedMax = 127`. -/
theorem encodeSpeedFoldsDirection : Obligations.EncodeSpeedFoldsDirection := by
  refine ⟨?_, fun _ _ forward => encodeSpeed_of_outOfRange forward, ?_⟩
  · intro cfg speed forward hmax h0 h1
    exact ⟨_, encodeSpeed_of_inRange forward h0 h1, speedByte_toNat forward h0 (by omega)⟩
  · intro cfg hmax
    simp only [encodeSpeed_congr (show cfg.speedMax = Config.standard.speedMax from hmax)]
    decide

/-- Clamping to `[0, hi]` by cases: below, above, inside. -/
theorem clamp_zero {hi : Int} (h : 0 ≤ hi) (x : Int) : clamp x 0 hi = if x < 0 then 0 else if hi < x then hi else x := by
  unfold clamp
  split
  · omega
  · split <;> omega

/-- A largest speed of one byte leaves every inverted, clamped speed in a byte. -/
theorem rtzSpeedWire_toNat {cfg : Config} (h : cfg.rtzSpeedMax ≤ 255) (speed : Int) :
    ((rtzSpeedWire cfg speed).toNat : Int) = cfg.rtzSpeedMax - clamp speed 0 cfg.rtzSpeedMax := by
  have hc : 0 ≤ clamp speed 0 cfg.rtzSpeedMax ∧ clamp speed 0 cfg.rtzSpeedMax ≤ cfg.rtzSpeedMax := by
    unfold clamp
    omega
  exact toNat_ofInt_of_byte (by omega) (by omega)

theorem rtzSpeedWire_congr {cfg cfg' : Config} (h : cfg.rtzSpeedMax = cfg'.rtzSpeedMax) (speed : Int) :
    rtzSpeedWire cfg speed = rtzSpeedWire cfg' speed := by
  simp only [rtzSpeedWire, h]

/-- Settles O9: the wire byte's number is the difference, with the clamp by cases; the corner cases by evaluation at a
configuration with `rtzSpeedMax = 4`. -/
theorem rtzSpeedIsInvertedAndClamped : Obligations.RtzSpeedIsInvertedAndClamped := by
  constructor
  · intro cfg speed hmax
    rw [rtzSpeedWire_toNat hmax, clamp_zero (Int.natCast_nonneg _)]
  · intro cfg hmax
    simp only [rtzSpeedWire_congr (show cfg.rtzSpeedMax = Config.standard.rtzSpeedMax from hmax)]
    decide

end Sys2Proof.Proofs.Codec
end

section
/-! PROOFS of the statements about the dispatcher (41_dispatcher.md): how an operation's own `Send` ends. -/

namespace Sys2Proof.Proofs.Dispatcher

open Sys2Proof Sys2Proof.Machine Sys2Proof.Safety

/-! ### The end of a transaction (R139 to R141) -/

/-- The transaction ends in one write of its index. -/
theorem endTransaction_eq (a : Index) (s : State) :
    endTransaction a s = s.setCh a { s.ch a with pending := none, dsp := .idle } := by
  simp [endTransaction, setDsp, setPending, State.setCh, State.ch]

/-- From the timeout on, a poll without a matching frame is the last. -/
theorem poll_timeout {a : Index} {timeout t : Nat} {s : State} (hm : slotMatches a s = false) (ht : timeout ≤ t) (cmd : Byte) :
    poll a cmd timeout t s = (logEvent a .timeout (endTransaction a s), some (.absent .timeout)) := by
  rw [poll_miss hm, missPoll, if_pos ht]

/-! ### An operation inside the `Send` of its own command (R144, Progress) -/

/-- The pseudocode of an operation after the `Send` of its own command: a read decodes the payload, an action its status byte
(42_reads.md R160, 43_driver_motion.md R180, R181, 44_rtz_calibrate.md R204). -/
def afterOwnSend (cfg : Config) (loc : Locals) : Instr → SendResult → State → State
  | .readPosition a => finishRead a cfg.shapePosition.len (logicalPosition a)
  | .readEncoder a => finishRead a cfg.shapeEncoder.len (plainValue Config.shapeEncoder)
  | .readPulses a => finishRead a cfg.shapePulses.len (plainValue Config.shapePulses)
  | .readAngleError a => finishRead a cfg.shapeAngleError.len (plainValue Config.shapeAngleError)
  | .readDriverState a => finishRead a cfg.shapeDriverState.len (plainValue Config.shapeDriverState)
  | .readBlockFlag a => finishRead a cfg.shapeBlockFlag.len (plainValue Config.shapeBlockFlag)
  | .setEnable a e => finishAction a (commitEnable a e loc)
  | .rtzGoto a => finishAction a (setOffset a 0)
  | .start a _ _ | .stop a | .movePulses a _ _ _ | .rtzSetPoint a | .rtzMode a _ | .rtzSpeed a _ | .rtzDirection a _
  | .calibrate a => finishAction a id

/-- The request of an operation's own command, or none where START or MOVE_PULSES has an operand out of range (R187). -/
def ownRequest : Instr → Config → Option Request
  | .start _ dir speed => startRequest dir speed
  | .movePulses _ dir speed pulses => moveRequest dir speed pulses
  | i => fun cfg => some (rowRequest cfg i.row (i.value cfg))

/-- Every operation but SET_ENABLE is the one `Send` of its own command, and reads no locals after it. -/
theorem exec_eq_oneSend {i : Instr} (hi : oneSendOp i = true) (loc : Locals) (s : State) :
    exec i s = oneSend i (ownRequest i) (afterOwnSend s.cfg loc i) s := by
  cases i with
  | setEnable a e => cases hi
  | _ => rfl

/-- An operation suspended in the `Send` of its own command takes that `Send`'s step, and its pseudocode follows. -/
theorem exec_inSend {i : Instr} {loc : Locals} {s : State} (h : (s.ch i.index).seq = .run i .inSend loc) :
    exec i s = afterSend (continueSend i.index s) (suspendAt i .inSend loc) (afterOwnSend s.cfg loc i) := by
  cases i with
  | setEnable a e => rw [exec, execSetEnable, onSequencer_run h]; rfl
  | _ => rw [exec_eq_oneSend rfl loc s, oneSend_continue h (by decide)]

/-- No operation repeats its own command: an absent response is its outcome (R146). -/
theorem afterOwnSend_absent (cfg : Config) (loc : Locals) (i : Instr) (r : AbsentReason) (s : State) :
    afterOwnSend cfg loc i (.absent r) s = endOp i.index (.absent r) s := by
  cases i <;> rfl

/-- An operation whose own command's `Send` ends absent ends in that tick. -/
theorem exec_absent {i : Instr} {loc : Locals} {s t : State} {r : AbsentReason}
    (hseq : (s.ch i.index).seq = .run i .inSend loc) (hsend : continueSend i.index s = some (t, some (.absent r))) :
    exec i s = .next (endOp i.index (.absent r) t) := by
  rw [exec_inSend hseq, hsend, afterSend, afterOwnSend_absent]

/-! ### The end of an operation (R224) -/

/-- Ending an operation does not look at the diagnostic log, so an event logged before it stands beside it. -/
theorem endOp_logEvent (a b : Index) (k : DiagKind) (o : OpOutcome) (s : State) :
    endOp a o (logEvent b k s) = { endOp a o s with diag := s.diag ++ [⟨s.now, b, k⟩] } := by
  rw [endOp_eq, endOp_eq]; rfl

/-- A transaction and its operation end together with an event logged between them. -/
theorem endOp_logEvent_end (a : Index) (k : DiagKind) (o : OpOutcome) (s : State) :
    endOp a o (logEvent a k (endTransaction a s)) = { ended a o id s with diag := s.diag ++ [⟨s.now, a, k⟩] } := by
  rw [endOp_logEvent, endOp_end]; rfl

/-- Settles O33: the last poll without a match ends the transaction, and the operation with it. -/
theorem lastUnmatchedPollTimesOut : Obligations.LastUnmatchedPollTimesOut := by
  constructor
  · intro s a cmd timeout hm
    rw [poll_timeout hm (le_refl timeout) cmd, endTransaction_eq]
    rfl
  · intro s i loc cmd timeout t ⟨hseq, hdsp⟩ hm ht
    have hsend : continueSend i.index s
        = some (logEvent i.index .timeout (endTransaction i.index s), some (.absent .timeout)) := by
      rw [continueSend_await hdsp, poll_timeout hm ht cmd]
    rw [exec_absent hseq hsend, endOp_logEvent_end]

end Sys2Proof.Proofs.Dispatcher
end

section
/-! PROOFS of the statements about driver motion (43_driver_motion.md): an argument out of range aborts in the tick of
acceptance. -/

namespace Sys2Proof.Proofs.DriverMotion

open Sys2Proof Sys2Proof.Machine Sys2Proof.Safety Sys2Proof.Proofs.Codec Sys2Proof.Proofs.Dispatcher

/-! ### Operands out of range (R184, R186) -/

/-- Outside the range a speed has no speed byte. -/
theorem encodeSpeed_of_speedInRange_false {cfg : Config} {speed : Int} (h : speedInRange cfg speed = false) (forward : Bool) :
    encodeSpeed cfg speed forward = none := by
  have hout : ¬ (0 ≤ speed ∧ speed ≤ cfg.speedMax) := by
    rw [← speedInRange_iff, h]
    exact Bool.false_ne_true
  exact encodeSpeed_of_outOfRange forward (by omega)

theorem startRequest_eq_none {cfg : Config} {speed : Int} (h : speedInRange cfg speed = false) (dir : Direction) :
    startRequest dir speed cfg = none := by
  rw [startRequest, encodeSpeed_of_speedInRange_false h]

/-- The speed is checked first; the count matters only where the speed byte exists. -/
theorem moveRequest_eq_none {cfg : Config} {speed pulses : Int} (h : (speedInRange cfg speed && pulsesInRange pulses) = false)
    (dir : Direction) : moveRequest dir speed pulses cfg = none := by
  unfold moveRequest
  cases hs : speedInRange cfg speed with
  | false => rw [encodeSpeed_of_speedInRange_false hs]
  | true =>
    have hp : pulsesInRange pulses = false := by rwa [hs, Bool.true_and] at h
    split
    · rfl
    · rw [if_neg (by simp [hp])]

/-- Only START and MOVE_PULSES can have an operand out of range: both are one `Send`, and neither then has a request. -/
theorem ownRequest_of_outOfRange {cfg : Config} {i : Instr} (h : outOfRange cfg i = true) :
    oneSendOp i = true ∧ ownRequest i cfg = none := by
  cases i with
  | start a dir speed => exact ⟨rfl, startRequest_eq_none ((Bool.not_eq_true' _).mp h) dir⟩
  | movePulses a dir speed pulses => exact ⟨rfl, moveRequest_eq_none ((Bool.not_eq_true' _).mp h) dir⟩
  | _ => cases h

/-! ### The abort in the tick of acceptance (R187) -/

/-- An operation of one `Send` without a request aborts where an idle index accepts it: no `Send` begins. -/
theorem oneSend_abort {i : Instr} {s : State} {rq : Config → Option Request} (hseq : (s.ch i.index).seq = .idle)
    (hrq : rq s.cfg = none) (finish : SendResult → State → State) :
    oneSend i rq finish s = .next (abortOp i.index .outOfRange .outOfRange (accept i s)) := by
  have hcfg : rq (accept i s).cfg = none := hrq
  rw [oneSend, onSequencer_idle hseq, if_pos rfl, hcfg]

/-- Acceptance and the abort of one tick leave the sequencer idle as it was; the caller's script ends. -/
theorem abortOp_accept {i : Instr} {s : State} (hseq : (s.ch i.index).seq = .idle) (k : DiagKind) (r : AbortReason) :
    abortOp i.index k r (accept i s) =
      { s with
        diag := s.diag ++ [⟨s.now, i.index, k⟩]
        delivered := s.delivered ++ [⟨s.now, (i.index.val : Int), .abort r, true⟩]
        chans := s.chans.set i.index.val { s.ch i.index with script := [] } } := by
  rw [abortOp, endOp_logEvent, endOp_eq]
  rw [State.ch] at hseq
  simp [accept, setSeq, State.setCh, State.ch, deliveryOf, hseq]

/-- Settles O28: out of range there is no request, so the operation aborts where it is accepted, and the transport, looked
at only by a `Send`, plays no part. -/
theorem outOfRangeArgumentAborts : Obligations.OutOfRangeArgumentAborts := by
  intro s i ⟨hseq, _⟩ hout
  obtain ⟨hone, hrq⟩ := ownRequest_of_outOfRange hout
  rw [exec_eq_oneSend hone {}, oneSend_abort hseq hrq, abortOp_accept hseq]

end Sys2Proof.Proofs.DriverMotion
end

section
/-! PROOFS of the statements about the request frames (30_encoding.md) and the codec's laws (40_codec.md): the decoder reads
back what the encoder writes, and accepts nothing else. -/

namespace Sys2Proof.Proofs.Encoding

open Sys2Proof Sys2Proof.Machine Sys2Proof.Proofs.Codec

/-! ### Checksums (R100 to R102, R117) -/

theorem checksum_append (xs ys : List Byte) : checksum (xs ++ ys) = checksum xs + checksum ys := by
  apply BitVec.eq_of_toNat_eq
  simp [byteSum_append]

/-- Reducing after each addition from any start adds the checksum to it. -/
theorem foldl_add_eq (bs : List Byte) (start : Byte) :
    bs.foldl (fun acc b => acc + b) start = start + checksum bs := by
  induction bs generalizing start with
  | nil => simp
  | cons b bs ih => rw [List.foldl_cons, ih, checksum_cons, BitVec.add_assoc]

/-- A frame that verifies is a frame of at least one byte with its checksum appended. -/
theorem verifyChecksum_iff (f : Frame) :
    verifyChecksum f = true ↔ ∃ body : Frame, 1 ≤ body.length ∧ f = appendChecksum body := by
  constructor
  · intro h
    have hlen : 2 ≤ f.length := by
      by_contra hlt
      rw [verifyChecksum_of_length_lt_two (by omega)] at h
      cases h
    have hne : f ≠ [] := by rintro rfl; simp at hlen
    have hbody : 1 ≤ f.dropLast.length := by rw [List.length_dropLast]; omega
    have hf := List.dropLast_concat_getLast hne
    rw [← hf, verify_concat _ _ hbody, decide_eq_true_iff] at h
    exact ⟨f.dropLast, hbody, by rw [appendChecksum, ← h, hf]⟩
  · rintro ⟨body, hlen, rfl⟩
    exact verify_appendChecksum body hlen

/-- A frame verifies if and only if the bytes before the last add up to it: one changed byte moves one side only. -/
theorem not_verify_of_changed_byte {before after : List Byte} {x y : Byte} (hxy : x ≠ y)
    (h : verifyChecksum (before ++ x :: after) = true) : verifyChecksum (before ++ y :: after) = false := by
  rcases List.eq_nil_or_concat after with rfl | ⟨mid, k, rfl⟩
  · by_cases hb : 1 ≤ before.length
    · rw [verify_concat _ _ hb, decide_eq_true_iff] at h
      rw [verify_concat _ _ hb, decide_eq_false_iff_not, ← h]
      exact hxy.symm
    · exact verifyChecksum_of_length_lt_two (by rw [List.length_append, List.length_singleton]; omega)
  · have hsplit (z : Byte) : before ++ z :: (mid ++ [k]) = (before ++ z :: mid) ++ [k] := by simp
    have hlen (z : Byte) : 1 ≤ (before ++ z :: mid).length := by simp; omega
    rw [List.concat_eq_append, hsplit, verify_concat _ _ (hlen x), decide_eq_true_iff, checksum_append,
      checksum_cons] at h
    rw [List.concat_eq_append, hsplit, verify_concat _ _ (hlen y), decide_eq_false_iff_not, checksum_append,
      checksum_cons, h]
    exact fun heq => hxy (by simpa using heq)

/-- Settles O3: the checksum adds up byte by byte, so a change in one byte shows. -/
theorem oneChangedByteFailsChecksum : Obligations.OneChangedByteFailsChecksum := by
  refine ⟨fun bs => ?_, fun A => ?_, verify_appendChecksum, fun _ _ _ _ => not_verify_of_changed_byte, by decide, by decide⟩
  · rw [foldl_add_eq, BitVec.zero_add]
  · have h := verify_concat [A] A (by simp)
    rw [checksum_cons, checksum_nil, BitVec.add_zero, decide_eq_true rfl] at h
    exact h

/-! ### Positions (R111, R118) -/

/-- Settles O6: the threshold parts the range where two's complement changes sign. -/
theorem fixOverflowInvertsWraparound : Obligations.FixOverflowInvertsWraparound := by
  intro cfg hthr
  refine ⟨fun b3 b2 b1 b0 => ?_, fun d hlo hhi => ?_, ?_⟩
  · have h := decodeU32_bytes b3 b2 b1 b0
    have h3 := b3.isLt
    have h2 := b2.isLt
    have h1 := b1.isLt
    have h0 := b0.isLt
    rw [decodeS32_bytes, fixOverflow, hthr]
    by_cases hneg : b3.toNat < 128
    · rw [if_pos hneg, if_neg (by omega)]
    · rw [if_neg hneg, if_pos (by omega)]
  · rw [fixOverflow, hthr]
    split <;> omega
  · rw [fixOverflow, hthr]
    decide

/-! ### Speed bytes (R112, R113) -/

theorem decodeSpeedByte_speedByte {speed : Nat} (forward : Bool) (h : speed ≤ 127) :
    decodeSpeedByte (speedByte speed forward) = (speed, forward) := by
  have hbyte := speedByte_toNat forward (Int.natCast_nonneg speed) (by omega)
  cases forward with
  | true =>
    have hnat : (speedByte speed true).toNat = speed := by simpa using hbyte
    simp only [decodeSpeedByte, hnat, Prod.mk.injEq, decide_eq_true_eq]
    omega
  | false =>
    have hnat : (speedByte speed false).toNat = 128 + speed := by
      simp only [Bool.false_eq_true, if_false] at hbyte
      omega
    simp only [decodeSpeedByte, hnat, Prod.mk.injEq, decide_eq_false_iff_not]
    omega

/-- Every byte is the speed byte of what it reads as. -/
theorem speedByte_decodeSpeedByte (b : Byte) : speedByte (decodeSpeedByte b).1 (decodeSpeedByte b).2 = b := by
  have hb := b.isLt
  apply BitVec.eq_of_toNat_eq
  have hbyte := speedByte_toNat (decodeSpeedByte b).2 (Int.natCast_nonneg (decodeSpeedByte b).1)
    (by simp only [decodeSpeedByte]; omega)
  have hmag : (decodeSpeedByte b).1 = b.toNat % 128 := rfl
  by_cases hfwd : b.toNat / 128 = 0
  · have hdir : (decodeSpeedByte b).2 = true := decide_eq_true hfwd
    rw [hdir] at hbyte ⊢
    simp only [if_true] at hbyte
    omega
  · have hdir : (decodeSpeedByte b).2 = false := decide_eq_false hfwd
    rw [hdir] at hbyte ⊢
    simp only [Bool.false_eq_true, if_false] at hbyte
    omega

/-- Settles O8: seven bits of magnitude and the direction's bit are read back, both ways. -/
theorem speedByteRoundTrip : Obligations.SpeedByteRoundTrip := by
  constructor
  · intro cfg speed forward b hmax henc
    by_cases hin : speedInRange cfg (speed : Int) = true
    · have hle := ((speedInRange_iff cfg speed).mp hin).2
      rw [encodeSpeed, if_pos hin] at henc
      cases henc
      exact decodeSpeedByte_speedByte forward (by omega)
    · rw [encodeSpeed, if_neg hin] at henc
      cases henc
  · intro cfg b hmax
    have hmag : (decodeSpeedByte b).1 ≤ 127 := by simp only [decodeSpeedByte]; omega
    rw [encodeSpeed_of_inRange _ (Int.natCast_nonneg _) (by omega), speedByte_decodeSpeedByte]

/-! ### Addresses and commands (R76, R82) -/

/-- What the frame formats need of the parameters, taken apart. -/
theorem encodable_iff (cfg : Config) : cfg.encodable = true ↔
    cfg.baseAddr.toNat + cfg.nAddr ≤ 256 ∧ cfg.speedMax ≤ 127 ∧ cfg.rtzSpeedMax ≤ 255 ∧ cfg.commandsDistinct = true
      ∧ cfg.enOn ≠ cfg.enOff ∧ cfg.rtzModeDir ≠ cfg.rtzModeNear ∧ cfg.rtzDirFwd ≠ cfg.rtzDirRev := by
  simp only [Config.encodable, Bool.and_eq_true, decide_eq_true_eq, and_assoc]

theorem addrIndex_wireAddr {cfg : Config} {a : Index} (hfit : cfg.baseAddr.toNat + cfg.nAddr ≤ 256)
    (ha : cfg.hasIndex a = true) : addrIndex cfg (wireAddr cfg a) = some a := by
  have hlt : a.val < cfg.nAddr := of_decide_eq_true ha
  have haddr := wireAddr_toNat_of_fits (cfg := cfg) (a := a) (by omega)
  rw [addrIndex, if_pos (by omega)]
  congr 1
  exact Fin.ext (by simp only; omega)

theorem of_addrIndex {cfg : Config} {A : Byte} {a : Index} (h : addrIndex cfg A = some a) :
    wireAddr cfg a = A ∧ cfg.hasIndex a = true := by
  unfold addrIndex at h
  split at h
  · next hin =>
    cases h
    have hA := A.isLt
    refine ⟨BitVec.eq_of_toNat_eq ?_, decide_eq_true hin.2⟩
    rw [wireAddr_toNat]
    simp only
    omega
  · cases h

theorem mem_all_rows (r : Row) : r ∈ Row.all := by
  cases r <;> decide

theorem rowOfCommand_cmdByte {cfg : Config} (hd : cfg.commandsDistinct = true) (r : Row) :
    rowOfCommand cfg (cfg.cmdByte r) = some r := by
  have hinj := List.inj_on_of_nodup_map (of_decide_eq_true hd)
  cases hfind : rowOfCommand cfg (cfg.cmdByte r) with
  | none => exact absurd (List.find?_eq_none.mp hfind r (mem_all_rows r)) (by simp)
  | some q =>
    have hq : cfg.cmdByte q = cfg.cmdByte r := by simpa using List.find?_some hfind
    rw [hinj (mem_all_rows q) (mem_all_rows r) hq]

theorem of_rowOfCommand {cfg : Config} {C : Byte} {r : Row} (h : rowOfCommand cfg C = some r) : cfg.cmdByte r = C := by
  simpa using List.find?_some h

/-! ### Value bytes (R79 to R81): each reader reads its writer's byte, and no other -/

theorem decodeEnable_enableByte {cfg : Config} (h : cfg.enOn ≠ cfg.enOff) (e : Bool) :
    decodeEnable cfg (enableByte cfg e) = .ok e := by
  cases e with
  | true => simp [decodeEnable, enableByte]
  | false => simp [decodeEnable, enableByte, h.symm]

theorem of_decodeEnable {cfg : Config} {v : Byte} {e : Bool} (h : decodeEnable cfg v = .ok e) : enableByte cfg e = v := by
  unfold decodeEnable at h
  split at h
  · next hv => cases h; exact hv.symm
  · split at h
    · next hv => cases h; exact hv.symm
    · cases h

theorem decodeMode_rtzModeByte {cfg : Config} (h : cfg.rtzModeDir ≠ cfg.rtzModeNear) (m : RtzApproach) :
    decodeMode cfg (rtzModeByte cfg m) = .ok m := by
  cases m with
  | dir => simp [decodeMode, rtzModeByte]
  | near => simp [decodeMode, rtzModeByte, h.symm]

theorem of_decodeMode {cfg : Config} {v : Byte} {m : RtzApproach} (h : decodeMode cfg v = .ok m) :
    rtzModeByte cfg m = v := by
  unfold decodeMode at h
  split at h
  · next hv => cases h; exact hv.symm
  · split at h
    · next hv => cases h; exact hv.symm
    · cases h

theorem decodeDir_rtzDirByte {cfg : Config} (h : cfg.rtzDirFwd ≠ cfg.rtzDirRev) (d : Direction) :
    decodeDir cfg (rtzDirByte cfg d) = .ok d := by
  cases d with
  | fwd => simp [decodeDir, rtzDirByte]
  | rev => simp [decodeDir, rtzDirByte, h.symm]

theorem of_decodeDir {cfg : Config} {v : Byte} {d : Direction} (h : decodeDir cfg v = .ok d) : rtzDirByte cfg d = v := by
  unfold decodeDir at h
  split at h
  · next hv => cases h; exact hv.symm
  · split at h
    · next hv => cases h; exact hv.symm
    · cases h

theorem rtzSpeedInRange_iff (cfg : Config) (speed : Int) :
    rtzSpeedInRange cfg speed = true ↔ 0 ≤ speed ∧ speed ≤ cfg.rtzSpeedMax := by
  simp [rtzSpeedInRange]

/-- A return-to-zero speed in range is not clamped. -/
theorem clamp_of_inRange {cfg : Config} {speed : Int} (h : rtzSpeedInRange cfg speed = true) :
    clamp speed 0 cfg.rtzSpeedMax = speed := by
  obtain ⟨h0, h1⟩ := (rtzSpeedInRange_iff cfg speed).mp h
  unfold clamp
  omega

theorem decodeRtzSpeed_rtzSpeedWire {cfg : Config} {speed : Int} (hmax : cfg.rtzSpeedMax ≤ 255)
    (h : rtzSpeedInRange cfg speed = true) : decodeRtzSpeed cfg (rtzSpeedWire cfg speed) = .ok speed := by
  obtain ⟨h0, h1⟩ := (rtzSpeedInRange_iff cfg speed).mp h
  have hbyte := rtzSpeedWire_toNat hmax speed
  rw [clamp_of_inRange h] at hbyte
  rw [decodeRtzSpeed, if_pos (by omega)]
  congr 1
  omega

theorem of_decodeRtzSpeed {cfg : Config} {v : Byte} {speed : Int} (h : decodeRtzSpeed cfg v = .ok speed) :
    rtzSpeedInRange cfg speed = true ∧ rtzSpeedWire cfg speed = v := by
  unfold decodeRtzSpeed at h
  split at h
  · next hle =>
    cases h
    have hin : rtzSpeedInRange cfg ((cfg.rtzSpeedMax : Int) - v.toNat) = true := by
      rw [rtzSpeedInRange_iff]
      omega
    refine ⟨hin, ?_⟩
    rw [rtzSpeedWire, clamp_of_inRange hin, Int.sub_sub_self, BitVec.ofInt_natCast, BitVec.ofNat_toNat, BitVec.setWidth_eq]
  · cases h

theorem decodeArg_actionArg (cfg : Config) : decodeArg cfg cfg.actionArg = .ok () :=
  if_pos rfl

theorem of_decodeArg {cfg : Config} {v : Byte} {u : Unit} (h : decodeArg cfg v = .ok u) : cfg.actionArg = v := by
  unfold decodeArg at h
  split at h
  · next hv => exact hv.symm
  · cases h

/-- The speed byte of a speed in range reads as its magnitude and its direction. -/
theorem magnitudeOf_speedByte {cfg : Config} {speed : Int} (hmax : cfg.speedMax ≤ 127)
    (h : speedInRange cfg speed = true) (d : Direction) :
    magnitudeOf cfg (speedByte speed (isForward d)) = .ok speed ∧ directionOf (speedByte speed (isForward d)) = d := by
  obtain ⟨h0, h1⟩ := (speedInRange_iff cfg speed).mp h
  obtain ⟨n, rfl⟩ := Int.eq_ofNat_of_zero_le h0
  have hread := decodeSpeedByte_speedByte (speed := n) (isForward d) (by omega)
  constructor
  · rw [magnitudeOf, hread, if_pos (by simp only; omega)]
  · rw [directionOf, hread]
    cases d <;> rfl

theorem isForward_directionOf (s : Byte) : isForward (directionOf s) = (decodeSpeedByte s).2 := by
  cases h : (decodeSpeedByte s).2 <;> simp [directionOf, isForward, h]

theorem of_magnitudeOf {cfg : Config} {s : Byte} {speed : Int} (h : magnitudeOf cfg s = .ok speed) :
    speedInRange cfg speed = true ∧ speedByte speed (isForward (directionOf s)) = s := by
  unfold magnitudeOf at h
  split at h
  · next hle =>
    cases h
    refine ⟨(speedInRange_iff cfg _).mpr (by omega), ?_⟩
    rw [isForward_directionOf, speedByte_decodeSpeedByte]
  · cases h

theorem of_takeByte {bs rest : List Byte} {b : Byte} (h : takeByte bs = .ok (b, rest)) : bs = b :: rest := by
  cases bs with
  | nil => cases h
  | cons c cs => cases h; rfl

/-- A number below 2^32 is the big-endian value of its four bytes. -/
theorem beNat_be32 {n : Nat} (h : n ≤ 4294967295) : beNat (be32 n) = n := by
  simp only [be32, beNat, List.foldl_cons, List.foldl_nil, BitVec.toNat_ofNat]
  omega

theorem takeCount_be32 {n : Nat} (h : n ≤ 4294967295) (rest : List Byte) : takeCount (be32 n ++ rest) = .ok (n, rest) := by
  have hn := beNat_be32 h
  rw [be32] at hn
  simp [be32, takeCount, hn]

theorem of_takeCount {bs rest : List Byte} {n : Nat} (h : takeCount bs = .ok (n, rest)) :
    n ≤ 4294967295 ∧ bs = be32 n ++ rest := by
  unfold takeCount at h
  split at h
  · next p3 p2 p1 p0 tail =>
    cases h
    have hval : beNat [p3, p2, p1, p0] = ((p3.toNat * 256 + p2.toNat) * 256 + p1.toNat) * 256 + p0.toNat := by
      simp [beNat]
    rw [hval]
    have h3 := p3.isLt
    have h2 := p2.isLt
    have h1 := p1.isLt
    have h0 := p0.isLt
    exact ⟨by omega, by rw [be32_of_bytes]; rfl⟩
  · cases h

theorem pulsesInRange_iff (pulses : Int) : pulsesInRange pulses = true ↔ 0 ≤ pulses ∧ pulses ≤ 4294967295 := by
  simp [pulsesInRange]

/-! ### Rows (R82) -/

/-- The bytes of a request's value, between the command and the checksum (R71 to R74). -/
def valueBytes : Val → List Byte
  | .none => []
  | .v1 b => [b]
  | .v2 v => be16 v
  | .v7 s p => s :: be32 p

theorem requestBody_eq (cfg : Config) (a : Index) (cmd : Byte) (val : Val) :
    requestBody cfg a cmd val = wireAddr cfg a :: cmd :: valueBytes val := by
  cases val <;> rfl

theorem encode_eq (cfg : Config) (i : Instr) :
    encode cfg i = appendChecksum (wireAddr cfg i.index :: cfg.cmdByte i.row :: valueBytes (i.value cfg)) := by
  rw [encode, requestFrame, requestBody_eq]

theorem ok_bind {α β : Type} (x : α) (f : α → Except DecodeReject β) : ((Except.ok x : Except DecodeReject α) >>= f) = f x :=
  rfl

/-- A reader's steps one after another succeed only if each does. -/
theorem of_bind_eq_ok {α β : Type} {x : Except DecodeReject α} {f : α → Except DecodeReject β} {b : β}
    (h : (x >>= f) = .ok b) : ∃ a : α, x = .ok a ∧ f a = .ok b := by
  cases x with
  | error r => cases h
  | ok a => exact ⟨a, rfl, h⟩

/-- The row of an operation reads its value bytes back as the operation, and leaves the bytes after them. -/
theorem decodeRow_valueBytes {cfg : Config} {i : Instr} (hc : cfg.encodable = true) (hi : i.operandsInRange cfg = true) :
    decodeRow cfg i.index (valueBytes (i.value cfg)) i.row = .ok (i, []) := by
  obtain ⟨_, hspeed, hrtz, _, hen, hmode, hdir⟩ := (encodable_iff cfg).mp hc
  cases i with
  | setEnable a e =>
    simp only [Instr.index, Instr.row, Instr.value, valueBytes, decodeRow, takeByte, ok_bind, decodeEnable_enableByte hen]
  | start a d speed =>
    obtain ⟨hm, hd⟩ := magnitudeOf_speedByte hspeed hi d
    simp only [Instr.index, Instr.row, Instr.value, valueBytes, decodeRow, takeByte, ok_bind, hm, hd]
  | movePulses a d speed pulses =>
    obtain ⟨hs, hp⟩ := (Bool.and_eq_true _ _).mp hi
    obtain ⟨hm, hd⟩ := magnitudeOf_speedByte hspeed hs d
    obtain ⟨hp0, hp1⟩ := (pulsesInRange_iff pulses).mp hp
    have hcount := takeCount_be32 (n := pulses.toNat) (by omega) []
    rw [List.append_nil] at hcount
    simp only [Instr.index, Instr.row, Instr.value, valueBytes, decodeRow, takeByte, ok_bind, hm, hd, hcount,
      Int.toNat_of_nonneg hp0]
  | rtzMode a m =>
    simp only [Instr.index, Instr.row, Instr.value, valueBytes, decodeRow, takeByte, ok_bind, decodeMode_rtzModeByte hmode]
  | rtzSpeed a speed =>
    simp only [Instr.index, Instr.row, Instr.value, valueBytes, decodeRow, takeByte, ok_bind,
      decodeRtzSpeed_rtzSpeedWire hrtz hi]
  | rtzDirection a d =>
    simp only [Instr.index, Instr.row, Instr.value, valueBytes, decodeRow, takeByte, ok_bind, decodeDir_rtzDirByte hdir]
  | rtzSetPoint a | rtzGoto a | calibrate a =>
    simp only [Instr.index, Instr.row, Instr.value, valueBytes, decodeRow, takeByte, ok_bind, decodeArg_actionArg]
  | readPosition a | readEncoder a | readPulses a | readAngleError a | readDriverState a | readBlockFlag a | stop a => rfl

/-- What a row reads is an operation of that row and index, its operands in range, and the bytes read are its value's. -/
structure ReadBack (cfg : Config) (a : Index) (r : Row) (bytes left : List Byte) (i : Instr) : Prop where
  index : i.index = a
  row : i.row = r
  inRange : i.operandsInRange cfg = true
  bytes : bytes = valueBytes (i.value cfg) ++ left

theorem of_decodeRow {cfg : Config} {a : Index} {bytes left : List Byte} {r : Row} {i : Instr}
    (h : decodeRow cfg a bytes r = .ok (i, left)) : ReadBack cfg a r bytes left i := by
  cases r with
  | readPosition | readEncoder | readPulses | readAngleError | readDriverState | readBlockFlag | stop =>
    cases h
    exact ⟨rfl, rfl, rfl, rfl⟩
  | setEnable =>
    obtain ⟨⟨v, rest⟩, hv, h⟩ := of_bind_eq_ok h
    obtain ⟨e, he, h⟩ := of_bind_eq_ok h
    cases h
    exact ⟨rfl, rfl, rfl, by rw [of_takeByte hv, ← of_decodeEnable he]; rfl⟩
  | start =>
    obtain ⟨⟨s, rest⟩, hs, h⟩ := of_bind_eq_ok h
    obtain ⟨speed, hm, h⟩ := of_bind_eq_ok h
    cases h
    obtain ⟨hin, hbyte⟩ := of_magnitudeOf hm
    exact ⟨rfl, rfl, hin, by simp only [of_takeByte hs, Instr.value, hbyte]; rfl⟩
  | movePulses =>
    obtain ⟨⟨s, rest⟩, hs, h⟩ := of_bind_eq_ok h
    obtain ⟨speed, hm, h⟩ := of_bind_eq_ok h
    obtain ⟨⟨n, rest'⟩, hn, h⟩ := of_bind_eq_ok h
    cases h
    obtain ⟨hin, hbyte⟩ := of_magnitudeOf hm
    obtain ⟨hle, hcount⟩ := of_takeCount hn
    refine ⟨rfl, rfl, ?_, ?_⟩
    · exact (Bool.and_eq_true _ _).mpr ⟨hin, (pulsesInRange_iff _).mpr (by omega)⟩
    · simp only [of_takeByte hs, Instr.value, hbyte, hcount, Int.toNat_natCast]; rfl
  | rtzMode =>
    obtain ⟨⟨v, rest⟩, hv, h⟩ := of_bind_eq_ok h
    obtain ⟨m, hm, h⟩ := of_bind_eq_ok h
    cases h
    exact ⟨rfl, rfl, rfl, by rw [of_takeByte hv, ← of_decodeMode hm]; rfl⟩
  | rtzSpeed =>
    obtain ⟨⟨v, rest⟩, hv, h⟩ := of_bind_eq_ok h
    obtain ⟨speed, hs, h⟩ := of_bind_eq_ok h
    cases h
    obtain ⟨hin, hbyte⟩ := of_decodeRtzSpeed hs
    exact ⟨rfl, rfl, hin, by rw [of_takeByte hv, ← hbyte]; rfl⟩
  | rtzDirection =>
    obtain ⟨⟨v, rest⟩, hv, h⟩ := of_bind_eq_ok h
    obtain ⟨d, hd, h⟩ := of_bind_eq_ok h
    cases h
    exact ⟨rfl, rfl, rfl, by rw [of_takeByte hv, ← of_decodeDir hd]; rfl⟩
  | rtzSetPoint | rtzGoto | calibrate =>
    obtain ⟨⟨v, rest⟩, hv, h⟩ := of_bind_eq_ok h
    obtain ⟨u, hu, h⟩ := of_bind_eq_ok h
    cases h
    exact ⟨rfl, rfl, rfl, by rw [of_takeByte hv, ← of_decodeArg hu]; rfl⟩

/-! ### Whole frames (R77, R84, R85) -/

/-- A frame of a body and its checksum decodes as the body does, with nothing left over. -/
theorem decodeFrame_appendChecksum {cfg : Config} {body : Frame} {i : Instr} (hlen : 1 ≤ body.length)
    (h : decodeBody cfg body = .ok (i, [])) : decodeFrame cfg (appendChecksum body) = .ok i := by
  have hdrop : (appendChecksum body).dropLast = body := List.dropLast_concat
  rw [decodeFrame, if_pos (verify_appendChecksum body hlen), hdrop, h]

theorem of_decodeFrame {cfg : Config} {f : Frame} {i : Instr} (h : decodeFrame cfg f = .ok i) :
    ∃ body : Frame, f = appendChecksum body ∧ decodeBody cfg body = .ok (i, []) := by
  unfold decodeFrame at h
  split at h
  · next hv =>
    obtain ⟨body, _, rfl⟩ := (verifyChecksum_iff f).mp hv
    have hdrop : (appendChecksum body).dropLast = body := List.dropLast_concat
    rw [hdrop] at h
    split at h
    · cases h
    · next hbody => cases h; exact ⟨body, rfl, hbody⟩
    · cases h
  · cases h

theorem of_decodeBody {cfg : Config} {body left : List Byte} {i : Instr} (h : decodeBody cfg body = .ok (i, left)) :
    ∃ (A C : Byte) (rest : List Byte) (a : Index) (r : Row), body = A :: C :: rest ∧ addrIndex cfg A = some a
      ∧ rowOfCommand cfg C = some r ∧ decodeRow cfg a rest r = .ok (i, left) := by
  unfold decodeBody at h
  split at h
  · split at h
    · cases h
    · next ha =>
      split at h
      · cases h
      · next hr => exact ⟨_, _, _, _, _, rfl, ha, hr, h⟩
  · cases h

/-- Settles O12: the address, the command and the value bytes are each read back, and the checksum verifies. -/
theorem decodeOfEncodeIsOperation : Obligations.DecodeOfEncodeIsOperation := by
  intro cfg i hc hi
  obtain ⟨hindex, hrange⟩ := (Bool.and_eq_true _ _).mp hi
  obtain ⟨hfit, _, _, hdistinct, _⟩ := (encodable_iff cfg).mp hc
  rw [encode_eq]
  refine decodeFrame_appendChecksum (by simp) ?_
  simp only [decodeBody, addrIndex_wireAddr hfit hindex, rowOfCommand_cmdByte hdistinct, decodeRow_valueBytes hc hrange]

/-- Settles O13: the address, the command and the value bytes that were read are those the operation sends. -/
theorem decodedFrameIsItsEncoding : Obligations.DecodedFrameIsItsEncoding := by
  intro cfg f i h
  obtain ⟨body, rfl, hbody⟩ := of_decodeFrame h
  obtain ⟨A, C, rest, a, r, rfl, ha, hr, hrow⟩ := of_decodeBody hbody
  obtain ⟨rfl, rfl, hrange, hbytes⟩ := of_decodeRow hrow
  obtain ⟨hA, hindex⟩ := of_addrIndex ha
  refine ⟨(Bool.and_eq_true _ _).mpr ⟨hindex, hrange⟩, ?_⟩
  rw [encode_eq, hA, of_rowOfCommand hr, hbytes, List.append_nil]

/-- Settles O11: each frame is decoded by evaluation. -/
theorem writtenOutWordsDecode : Obligations.WrittenOutWordsDecode := by
  unfold Obligations.WrittenOutWordsDecode
  decide

/-- Settles O60: the code of each outcome by its definition. -/
theorem outcomeCodesAreTheRules : Obligations.OutcomeCodesAreTheRules :=
  ⟨fun _ => rfl, rfl, rfl, rfl, rfl, rfl, rfl, rfl, rfl, rfl, rfl, rfl⟩

end Sys2Proof.Proofs.Encoding
end

section
/-! SUPPORT for the proofs about operations: the step of every operation as one `Send` that begins or goes on, followed by a
suspension or by the pseudocode after the `Send` (41_dispatcher.md R144, 43_driver_motion.md R181, R182). -/

namespace Sys2Proof.Proofs.Operation

open Sys2Proof Sys2Proof.Machine Sys2Proof.Safety Sys2Proof.Proofs.Codec Sys2Proof.Proofs.Dispatcher
open Sys2Proof.Proofs.DriverMotion

/-! ### Which `Send` an operation is at -/

/-- The two kinds of `Send` an operation makes: the one of its own command, and an enable's position read (R27). -/
inductive Leg where
  | own
  | read

/-- The position of an operation suspended in the `Send`. -/
def Leg.pc : Leg → Pc
  | .own => .inSend
  | .read => .inRead

/-- The request of the `Send`, or none for an operand out of range. -/
def Leg.request (i : Instr) (cfg : Config) : Leg → Option Request
  | .own => ownRequest i cfg
  | .read => some (positionRequest cfg)

/-- The command and the timeout of the `Send`. -/
def Leg.send (i : Instr) (cfg : Config) : Leg → Byte × Nat
  | .own => (cfg.cmdByte i.row, rowTimeout cfg i.row)
  | .read => (cfg.cmdReadPosition, cfg.tDefault)

/-- The pseudocode after the `Send`. -/
def Leg.finish (i : Instr) (cfg : Config) (loc : Locals) : Leg → SendResult → State → State
  | .own => afterOwnSend cfg loc i
  | .read => finishAttempt i.index loc

/-- The forms of the pseudocode after an operation's own `Send`: a position, a read of no engine state, an action that writes
nothing of its own, a return-to-zero, a SET_ENABLE. -/
inductive OwnFinish (i : Instr) (loc : Locals) : (SendResult → State → State) → Prop
  | position (len : Nat) : OwnFinish i loc (finishRead i.index len (logicalPosition i.index))
  | plainRead (len : Nat) (sh : Config → ReadShape) : OwnFinish i loc (finishRead i.index len (plainValue sh))
  | plainAction : OwnFinish i loc (finishAction i.index id)
  | goto {a : Index} (hi : i = .rtzGoto a) : OwnFinish i loc (finishAction i.index (setOffset i.index 0))
  | enable {a : Index} {e : Bool} (hi : i = .setEnable a e) :
      OwnFinish i loc (finishAction i.index (commitEnable i.index e loc))

theorem afterOwnSend_form (cfg : Config) (loc : Locals) (i : Instr) : OwnFinish i loc (afterOwnSend cfg loc i) := by
  cases i with
  | readPosition => exact .position _
  | readEncoder | readPulses | readAngleError | readDriverState | readBlockFlag => exact .plainRead _ _
  | setEnable => exact .enable rfl
  | rtzGoto => exact .goto rfl
  | start | stop | movePulses | rtzSetPoint | rtzMode | rtzSpeed | rtzDirection | calibrate => exact .plainAction

/-- What holds of the attempt's pseudocode and of every form after an operation's own `Send` holds of what follows any. -/
theorem Leg.finish_induction {i : Instr} {loc : Locals} {P : Leg → (SendResult → State → State) → Prop}
    (read : P .read (finishAttempt i.index loc)) (own : ∀ f, OwnFinish i loc f → P .own f) (leg : Leg) (cfg : Config) :
    P leg (leg.finish i cfg loc) := by
  cases leg with
  | read => exact read
  | own => exact own _ (afterOwnSend_form cfg loc i)

/-- The `Send` an operation is at: an enable reads the position from the disabled shadow and at its read positions. -/
def legAt (i : Instr) (pc : Pc) (c : Channel) : Leg :=
  match i, pc with
  | .setEnable _ e, .start => if e && !c.isEnabled then .read else .own
  | .setEnable _ _, .readDue | .setEnable _ _, .inRead => .read
  | _, _ => .own

/-- The operation begins its `Send` at this position, and does not go on with one. -/
def begins (i : Instr) (pc : Pc) : Bool :=
  match i, pc with
  | _, .start | .setEnable _ _, .readDue | .setEnable _ _, .enableDue => true
  | _, _ => false

/-- The locals with which the `Send` is made: an enable begins with its own (R182). -/
def localsAt (i : Instr) (pc : Pc) (loc : Locals) (leg : Leg) : Locals :=
  match i, pc, leg with
  | .setEnable _ _, .start, .read => { attempt := 1 }
  | .setEnable _ _, .start, .own => {}
  | _, _, _ => loc

/-- The step of operation `i` at a position. An operand out of range is seen only where the operation begins. -/
def execAt (i : Instr) (pc : Pc) (loc : Locals) (s : State) : Host.Outcome State Fault Refusal :=
  let leg := legAt i pc (s.ch i.index)
  let loc := localsAt i pc loc leg
  let after := fun x => afterSend x (suspendAt i leg.pc loc) (leg.finish i s.cfg loc)
  if begins i pc then
    match leg.request i s.cfg with
    | none => .next (abortOp i.index .outOfRange .outOfRange s)
    | some rq => after (startSend i.index rq s)
  else after (continueSend i.index s)

theorem execSetEnable_eq (a : Index) (e : Bool) (s : State) :
    exec (.setEnable a e) s = onSequencer (.setEnable a e) (execAt (.setEnable a e)) s := by
  rw [exec, execSetEnable]
  congr
  funext pc loc u
  cases pc with
  | start => cases h : e && !(u.ch a).isEnabled <;> simp [execAt, legAt, begins, localsAt, Instr.index, h] <;> rfl
  | _ => rfl

/-! ### Entering an operation (R144) -/

/-- An idle index accepts the operation and takes its step from the start. -/
theorem exec_idle {i : Instr} {s : State} (h : (s.ch i.index).seq = .idle) :
    exec i s = execAt i .start {} (accept i s) := by
  cases hi : oneSendOp i with
  | true =>
    rw [exec_eq_oneSend hi {}, oneSend, onSequencer_idle h]
    cases i with
    | setEnable a e => cases hi
    | _ => rfl
  | false =>
    cases i with
    | setEnable a e => rw [execSetEnable_eq, onSequencer_idle h]
    | _ => cases hi

/-- An index that runs the operation takes its step at its position. -/
theorem exec_run {i : Instr} {pc : Pc} {loc : Locals} {s : State} (h : (s.ch i.index).seq = .run i pc loc) :
    exec i s = execAt i pc loc s := by
  cases hi : oneSendOp i with
  | true =>
    rw [exec_eq_oneSend hi loc, oneSend, onSequencer_run h]
    cases i with
    | setEnable a e => cases hi
    | _ => cases pc <;> rfl
  | false =>
    cases i with
    | setEnable a e => rw [execSetEnable_eq, onSequencer_run h]
    | _ => cases hi

/-- An index that runs another operation is busy. -/
theorem exec_busy {i j : Instr} {pc : Pc} {loc : Locals} {s : State} (h : (s.ch i.index).seq = .run j pc loc) (hj : j ≠ i) :
    exec i s = .next (overlap i.index s) := by
  cases hi : oneSendOp i with
  | true => rw [exec_eq_oneSend hi {}, oneSend, onSequencer_busy h hj]
  | false =>
    cases i with
    | setEnable a e => rw [execSetEnable_eq, onSequencer_busy h hj]
    | _ => cases hi

/-- The state and the position at which a step of operation `i` enters its pseudocode. -/
inductive Enters (i : Instr) (s : State) : Pc → Locals → State → Prop
  | accepted (h : (s.ch i.index).seq = .idle) : Enters i s .start {} (accept i s)
  | running {pc : Pc} {loc : Locals} (h : (s.ch i.index).seq = .run i pc loc) : Enters i s pc loc s

/-- A step is the busy port's answer, or enters the pseudocode. -/
theorem exec_enters (i : Instr) (s : State) :
    exec i s = .next (overlap i.index s) ∨ ∃ pc loc u, Enters i s pc loc u ∧ exec i s = execAt i pc loc u := by
  cases h : (s.ch i.index).seq with
  | idle => exact .inr ⟨_, _, _, .accepted h, exec_idle h⟩
  | run j pc loc =>
    by_cases hj : j = i
    · subst hj; exact .inr ⟨_, _, _, .running h, exec_run h⟩
    · exact .inl (exec_busy h hj)

/-! ### Inversion: what a step can be -/

/-- A `Send`'s step: it begins with a request, or goes on. -/
def SendStep (a : Index) (s : State) (x : State × Option SendResult) : Prop :=
  (∃ rq : Request, startSend a rq s = some x) ∨ continueSend a s = some x

/-- What follows a `Send`'s step: the suspension, or the pseudocode with the result. -/
theorem of_afterSend {x : Option (State × Option SendResult)} {suspend : State → State}
    {finish : SendResult → State → State} {t : State} (h : afterSend x suspend finish = .next t) :
    ∃ u, (x = some (u, none) ∧ t = suspend u) ∨ ∃ r, x = some (u, some r) ∧ t = finish r u := by
  unfold afterSend at h
  split at h
  · cases h
  · cases h; exact ⟨_, .inl ⟨rfl, rfl⟩⟩
  · cases h; exact ⟨_, .inr ⟨_, rfl, rfl⟩⟩

/-- A step inside the pseudocode aborts at the start, or is a `Send`'s step with what follows it. -/
theorem execAt_cases {i : Instr} {pc : Pc} {loc : Locals} {s t : State} (h : execAt i pc loc s = .next t) :
    t = abortOp i.index .outOfRange .outOfRange s
    ∨ ∃ u, (SendStep i.index s (u, none)
        ∧ t = suspendAt i (legAt i pc (s.ch i.index)).pc (localsAt i pc loc (legAt i pc (s.ch i.index))) u)
      ∨ ∃ r, SendStep i.index s (u, some r)
        ∧ t = (legAt i pc (s.ch i.index)).finish i s.cfg (localsAt i pc loc (legAt i pc (s.ch i.index))) r u := by
  have hsend {x : Option (State × Option SendResult)} (hx : ∀ y, x = some y → SendStep i.index s y) {suspend finish}
      (h : afterSend x suspend finish = .next t) :
      ∃ u, (SendStep i.index s (u, none) ∧ t = suspend u) ∨ ∃ r, SendStep i.index s (u, some r) ∧ t = finish r u := by
    obtain ⟨u, ⟨hu, ht⟩ | ⟨r, hu, ht⟩⟩ := of_afterSend h
    · exact ⟨u, .inl ⟨hx _ hu, ht⟩⟩
    · exact ⟨u, .inr ⟨r, hx _ hu, ht⟩⟩
  simp only [execAt] at h
  split at h
  · split at h
    · cases h; exact .inl rfl
    · exact .inr (hsend (fun _ hy => .inl ⟨_, hy⟩) h)
  · exact .inr (hsend (fun _ hy => .inr hy) h)

end Sys2Proof.Proofs.Operation
end

section
/-! PROOFS of the statements about a `Send` that goes on and ends (41_dispatcher.md R135 to R143), and about the results of the
reads (42_reads.md), the actions (43_driver_motion.md, 44_rtz_calibrate.md) and an enable's position read (R182). -/

namespace Sys2Proof.Proofs.Results

open Sys2Proof Sys2Proof.Machine Sys2Proof.Safety Sys2Proof.Proofs.Codec Sys2Proof.Proofs.Dispatcher
open Sys2Proof.Proofs.Operation

/-! ### An operation inside a `Send` -/

/-- Operation `i` makes this kind of `Send`: a position read is SET_ENABLE's alone. -/
def LegOf (i : Instr) (leg : Leg) : Prop :=
  match leg with
  | .own => True
  | .read => oneSendOp i = false

/-- An operation suspended in a `Send` takes that `Send`'s step, and its pseudocode follows. -/
theorem exec_inLeg {i : Instr} {leg : Leg} (hleg : LegOf i leg) {loc : Locals} {s : State}
    (h : (s.ch i.index).seq = .run i leg.pc loc) :
    exec i s = afterSend (continueSend i.index s) (suspendAt i leg.pc loc) (leg.finish i s.cfg loc) := by
  cases leg with
  | own => exact exec_inSend h
  | read =>
    cases i with
    | setEnable a e => rw [exec_run h]; rfl
    | _ => cases hleg

/-- The positions of a `Send` in the statements are those of the two kinds. -/
theorem exists_leg {i : Instr} {pc : Pc} (h : pc = .inSend ∨ (pc = .inRead ∧ oneSendOp i = false)) :
    ∃ leg : Leg, LegOf i leg ∧ pc = leg.pc := by
  obtain rfl | ⟨rfl, hi⟩ := h
  · exact ⟨.own, trivial, rfl⟩
  · exact ⟨.read, hi, rfl⟩

/-- A `Send` that goes on changes the dispatcher only, and the operation stays suspended in it. -/
theorem suspendAt_setDsp (i : Instr) (pc : Pc) (loc : Locals) (d : Dsp) (s : State) :
    suspendAt i pc loc (setDsp i.index d s) = moved i.index (.run i pc loc) d (s.ch i.index).pending s := by
  simp [suspendAt, setSeq, setDsp, moved, State.setCh, State.ch]

/-- Whatever a poll does, it writes the dispatcher anew. -/
theorem poll_setDsp (a : Index) (cmd : Byte) (timeout t : Nat) (d : Dsp) (s : State) :
    poll a cmd timeout t (setDsp a d s) = poll a cmd timeout t s := by
  have hmiss : missPoll a cmd timeout t (setDsp a d s) = missPoll a cmd timeout t s := by
    simp only [missPoll, endTransaction, setPending, setDsp, ch_setCh_same, setCh_setCh]
  have htake (r : Frame) : takeMatch a r (setDsp a d s) = takeMatch a r s := by
    simp only [takeMatch, endTransaction, setPending, setDsp, ch_setCh_same, setCh_setCh]
  simp only [poll, hmiss, htake]
  rfl

/-- A sequencer that stays where it is, with its dispatcher moved. -/
theorem moved_setDsp {a : Index} {q : Seq} {s : State} (h : (s.ch a).seq = q) (d : Dsp) :
    moved a q d (s.ch a).pending s = setDsp a d s := by
  subst h; rfl

theorem continueSend_settle {a : Index} {cmd : Byte} {timeout rem : Nat} {s : State}
    (h : (s.ch a).dsp = .settle cmd timeout (rem + 2)) :
    continueSend a s = some (setDsp a (.settle cmd timeout (rem + 1)) s, none) := by
  simp [continueSend, h]

theorem continueSend_lastSettle {a : Index} {cmd : Byte} {timeout : Nat} {s : State}
    (h : (s.ch a).dsp = .settle cmd timeout 1) : continueSend a s = some (poll a cmd timeout 0 s) := by
  simp [continueSend, h]

/-- Between the timeout's polls the interval is counted from the first. -/
theorem pollDue_iff {cfg : Config} {timeout n k : Nat} (hk : k < cfg.pollTick) (ht : n * cfg.pollTick + k < timeout) :
    pollDue cfg timeout (n * cfg.pollTick + k) = true ↔ k = 0 := by
  have hmax : max cfg.pollTick 1 = cfg.pollTick := by omega
  have hmod : (n * cfg.pollTick + k) % cfg.pollTick = k := by
    rw [Nat.mul_comm, Nat.mul_add_mod, Nat.mod_eq_of_lt hk]
  have hlate : ¬ timeout ≤ n * cfg.pollTick + k := by omega
  simp [pollDue, hmax, hmod, hlate]

/-- Settles O31: the settle rows of the dispatcher, and the schedule of the polls. -/
theorem settleDelayDoesNotPoll : Obligations.SettleDelayDoesNotPoll := by
  refine ⟨fun s i pc loc cmd timeout hpc hseq => ?_, fun cfg timeout => ⟨pollDue_zero cfg timeout, pollDue_timeout cfg le_rfl⟩,
    fun cfg timeout t h => pollDue_everyTick h timeout t, fun _ _ _ _ => pollDue_iff⟩
  obtain ⟨leg, hleg, rfl⟩ := exists_leg hpc
  refine ⟨fun rem hdsp => ?_, fun hdsp => ?_⟩
  · rw [exec_inLeg hleg hseq, continueSend_settle hdsp, afterSend, suspendAt_setDsp]
  · have hseq' : ((setDsp i.index (.await cmd timeout 0) s).ch i.index).seq = .run i leg.pc loc := by
      simpa [setDsp] using hseq
    have hdsp' : ((setDsp i.index (.await cmd timeout 0) s).ch i.index).dsp = .await cmd timeout 0 := by
      simp [setDsp]
    rw [moved_setDsp hseq, exec_inLeg hleg hseq, exec_inLeg hleg hseq', continueSend_lastSettle hdsp,
      continueSend_await hdsp', poll_setDsp]
    rfl

/-- A tick in which nothing is taken, before the timeout, only counts. -/
theorem poll_counts {a : Index} {timeout t : Nat} {s : State}
    (hm : slotMatches a s = false ∨ pollDue s.cfg timeout t = false) (ht : t < timeout) (cmd : Byte) :
    poll a cmd timeout t s = (setDsp a (.await cmd timeout (t + 1)) s, none) := by
  have hmiss : poll a cmd timeout t s = missPoll a cmd timeout t s := hm.elim poll_miss poll_notDue
  rw [hmiss, missPoll, if_neg (by omega)]

theorem exec_counts {i : Instr} {leg : Leg} (hleg : LegOf i leg) {loc : Locals} {cmd : Byte} {timeout t : Nat} {s : State}
    (hseq : (s.ch i.index).seq = .run i leg.pc loc) (hdsp : (s.ch i.index).dsp = .await cmd timeout t)
    (hm : slotMatches i.index s = false ∨ pollDue s.cfg timeout t = false) (ht : t < timeout) :
    exec i s = .next (moved i.index (.run i leg.pc loc) (.await cmd timeout (t + 1)) (s.ch i.index).pending s) := by
  rw [exec_inLeg hleg hseq, continueSend_await hdsp, poll_counts hm ht cmd, afterSend, suspendAt_setDsp]

/-- Settles O32: a poll that takes nothing before the timeout counts one tick, in both kinds of `Send`. -/
theorem unmatchedPollOnlyCounts : Obligations.UnmatchedPollOnlyCounts := by
  intro s i loc cmd timeout t hm ht
  refine ⟨fun ⟨hseq, hdsp⟩ => exec_counts (leg := .own) trivial hseq hdsp hm ht, fun hi ⟨hseq, hdsp⟩ => ?_⟩
  rw [← hi] at hseq
  have hread : LegOf i .read := by rw [hi]; rfl
  exact exec_counts hread hseq hdsp hm ht

/-! ### A wrong checksum (R140) -/

/-- A matching frame with a wrong checksum is consumed and ends the transaction. -/
theorem poll_wrongChecksum {a : Index} {timeout t : Nat} {s : State} {r : Frame} (hd : pollDue s.cfg timeout t = true)
    (hr : s.rxSlot = some r) (hm : matchesIndex s.cfg r a = true) (hv : verifyChecksum r = false) (cmd : Byte) :
    poll a cmd timeout t s
      = (logEvent a .checksumMismatch (rxClear (endTransaction a s)), some (.absent .checksumMismatch)) := by
  rw [poll_match hd hr hm, takeMatch, if_neg (by simp [hv])]

/-- A transaction that consumed its frame and its operation end together with an event logged between them. -/
theorem endOp_logEvent_reply (a : Index) (k : DiagKind) (o : OpOutcome) (s : State) :
    endOp a o (logEvent a k (rxClear (endTransaction a s))) = { replied a o id s with diag := s.diag ++ [⟨s.now, a, k⟩] } := by
  rw [endOp_logEvent, endOp_reply]; rfl

/-- Settles O34: the first matching frame decides. -/
theorem wrongChecksumEndsOperation : Obligations.WrongChecksumEndsOperation := by
  constructor
  · intro s a cmd timeout t r hd hr hm hv
    rw [poll_wrongChecksum hd hr hm hv cmd, endTransaction_eq]
    rfl
  · intro s i loc cmd timeout t r ⟨⟨hseq, hdsp⟩, hd⟩ hr hm hv
    have hsend := poll_wrongChecksum hd hr hm hv cmd
    rw [exec_absent hseq (by rw [continueSend_await hdsp, hsend]), endOp_logEvent_reply]

/-! ### A response (R139) -/

/-- A poll that finds a checksum-valid response runs the pseudocode on its frame. -/
theorem exec_response {i : Instr} {leg : Leg} (hleg : LegOf i leg) {loc : Locals} {cmd : Byte} {timeout t : Nat} {s : State}
    {p : List Byte} (hseq : (s.ch i.index).seq = .run i leg.pc loc) (hdsp : (s.ch i.index).dsp = .await cmd timeout t)
    (hd : pollDue s.cfg timeout t = true) (hr : Response i.index p s) :
    exec i s = .next (leg.finish i s.cfg loc (.frame (wireAddr s.cfg i.index :: p)) (rxClear (endTransaction i.index s))) := by
  rw [exec_inLeg hleg hseq, continueSend_await hdsp, poll_response hd hr, afterSend]

/-- The same of the `Send` of the operation's own command. -/
theorem exec_ownResponse {i : Instr} {loc : Locals} {cmd : Byte} {timeout t : Nat} {s : State} {p : List Byte}
    (h : Polling i loc cmd timeout t s) (hr : Response i.index p s) :
    exec i s
      = .next (afterOwnSend s.cfg loc i (.frame (wireAddr s.cfg i.index :: p)) (rxClear (endTransaction i.index s))) :=
  exec_response (leg := .own) trivial h.1.1 h.1.2 h.2 hr

/-- The same of an enable's position read. -/
theorem exec_readResponse {a : Index} {loc : Locals} {cmd : Byte} {timeout t : Nat} {s : State} {p : List Byte}
    (h : PollingRead a loc cmd timeout t s) (hr : Response a p s) :
    exec (.setEnable a true) s
      = .next (finishAttempt a loc (.frame (wireAddr s.cfg a :: p)) (rxClear (endTransaction a s))) :=
  exec_response (i := .setEnable a true) (leg := .read) rfl h.1.1 h.1.2 h.2 hr

/-- A fault after a response, in one record. -/
theorem faultOp_reply (a : Index) (r : FaultReason) (s : State) :
    faultOp a r (rxClear (endTransaction a s)) = { replied a (.fault r) id s with faulted := true } := by
  rw [faultOp, ← endOp_reply, endOp_eq, endOp_eq]; rfl

theorem cutPayload_short {len : Nat} {p : List Byte} (h : p.length < len) (w : Byte) : cutPayload len (w :: p) = none :=
  if_pos h

theorem cutPayload_of_le {len : Nat} {p : List Byte} (h : len ≤ p.length) (w : Byte) :
    cutPayload len (w :: p) = some (p.take len) :=
  if_neg (Nat.not_lt.mpr h)

theorem finishRead_short {len : Nat} {p : List Byte} (h : p.length < len) (a : Index)
    (value : State → List Byte → Option Int) (w : Byte) (s : State) :
    finishRead a len value (.frame (w :: p)) s = faultOp a .shortPayload s := by
  rw [finishRead, cutPayload_short h]

theorem finishRead_value {len : Nat} {p : List Byte} {value : State → List Byte → Option Int} {v : Int} {s : State}
    (h : len ≤ p.length) (hv : value s (p.take len) = some v) (a : Index) (w : Byte) :
    finishRead a len value (.frame (w :: p)) s = endOp a (.value v) s := by
  simp only [finishRead, cutPayload_of_le h, hv]

theorem finishRead_overflow {len : Nat} {p : List Byte} {value : State → List Byte → Option Int} {s : State}
    (h : len ≤ p.length) (hv : value s (p.take len) = none) (a : Index) (w : Byte) :
    finishRead a len value (.frame (w :: p)) s = faultOp a .offsetOverflow s := by
  simp only [finishRead, cutPayload_of_le h, hv]

/-- Settles O35: a payload below the read's length, or an action's empty one, ends the operation. -/
theorem shortPayloadFaults : Obligations.ShortPayloadFaults := by
  intro s i loc cmd timeout t p h hr len hshort
  rw [exec_ownResponse h hr]
  refine congrArg Host.Outcome.next (Eq.trans ?_ (faultOp_reply i.index .shortPayload s))
  cases i with
  | readPosition a | readEncoder a | readPulses a | readAngleError a | readDriverState a | readBlockFlag a =>
    rw [afterOwnSend]
    exact finishRead_short hshort a _ _ _
  | _ =>
    obtain rfl : p = [] := List.length_eq_zero_iff.mp (by simp only [len] at hshort; omega)
    rfl

/-! ### Values of the reads (R161 to R168) -/

theorem beNat_two (b1 b0 : Byte) : beNat [b1, b0] = b1.toNat * 256 + b0.toNat :=
  decodeU16_bytes b1 b0

theorem beNat_four (b3 b2 b1 b0 : Byte) :
    beNat [b3, b2, b1, b0] = ((b3.toNat * 256 + b2.toNat) * 256 + b1.toNat) * 256 + b0.toNat :=
  decodeU32_bytes b3 b2 b1 b0

/-- With four bytes and the spec's threshold both readings of a position payload are the two's complement value. -/
theorem rawOfPayload_four {cfg : Config} (hlen : cfg.shapePosition.len = 4) (hthr : cfg.overflowThreshold = 2147483647)
    (b3 b2 b1 b0 : Byte) :
    rawOfPayload cfg [b3, b2, b1, b0] =
      if 2147483647 < ((b3.toNat * 256 + b2.toNat) * 256 + b1.toNat) * 256 + b0.toNat
      then ((((b3.toNat * 256 + b2.toNat) * 256 + b1.toNat) * 256 + b0.toNat : Nat) : Int) - 4294967296
      else ((((b3.toNat * 256 + b2.toNat) * 256 + b1.toNat) * 256 + b0.toNat : Nat) : Int) := by
  generalize hu : ((b3.toNat * 256 + b2.toNat) * 256 + b1.toNat) * 256 + b0.toNat = u
  have hbe : beNat [b3, b2, b1, b0] = u := (beNat_four b3 b2 b1 b0).trans hu
  cases hs : cfg.shapePosition.signed with
  | false => simp only [rawOfPayload, hs, decodeU32, hbe, fixOverflow, hthr]; rfl
  | true =>
    simp only [rawOfPayload, hs, decodeShape, hbe, hlen, sext, if_true]
    by_cases hneg : 2147483647 < u
    · rw [if_neg (by omega), if_pos hneg]; rfl
    · rw [if_pos (by omega), if_neg hneg]

theorem fitsOffset_iff (cfg : Config) (v : Int) : fitsOffset cfg v = true ↔ InWidth cfg v := by
  cases h : cfg.offsetWidth <;> simp [fitsOffset, InWidth, h]

/-- Outside the width of a fixed-width build a value does not fit. -/
theorem fitsOffset_outside {cfg : Config} {w : Nat} {v : Int} (hw : cfg.offsetWidth = some w)
    (h : 2 * v < -(2 ^ w : Int) ∨ (2 ^ w : Int) ≤ 2 * v) : fitsOffset cfg v = false := by
  rw [← Bool.not_eq_true, fitsOffset_iff]
  intro hin
  have := hin w hw
  omega

/-- The end of the transaction leaves what the logical position is computed from. -/
theorem logicalPosition_reply (a : Index) (s : State) (p : List Byte) :
    logicalPosition a (rxClear (endTransaction a s)) p =
      if fitsOffset s.cfg (rawOfPayload s.cfg p + (s.ch a).offset) then some (rawOfPayload s.cfg p + (s.ch a).offset)
      else none := by
  simp only [logicalPosition, ch_rxClear, ch_endTransaction_same]
  rfl

/-- Settles O36: the first four payload bytes are the raw position, and the offset is added. -/
theorem readPositionAddsOffset : Obligations.ReadPositionAddsOffset := by
  intro s a loc cmd timeout t b3 b2 b1 b0 extra h hr hlen hthr u raw hin
  have hraw : rawOfPayload s.cfg ((b3 :: b2 :: b1 :: b0 :: extra).take s.cfg.shapePosition.len) = raw := by
    rw [hlen]
    exact rawOfPayload_four hlen hthr b3 b2 b1 b0
  have hvalue := logicalPosition_reply a s ((b3 :: b2 :: b1 :: b0 :: extra).take s.cfg.shapePosition.len)
  rw [hraw, if_pos ((fitsOffset_iff _ _).mpr hin)] at hvalue
  rw [exec_ownResponse h hr]
  refine congrArg Host.Outcome.next ((finishRead_value ?_ hvalue a _).trans (endOp_reply a _ s))
  rw [hlen]
  exact Nat.le_add_left 4 extra.length

/-- A read that uses no engine state ends with the value its shape gives the first bytes of the payload. -/
theorem exec_plainRead {i : Instr} {loc : Locals} {cmd : Byte} {timeout t : Nat} {s : State} {p : List Byte}
    {sh : Config → ReadShape}
    (hi : ∀ r u, afterOwnSend s.cfg loc i r u = finishRead i.index (sh s.cfg).len (plainValue sh) r u)
    (h : Polling i loc cmd timeout t s) (hr : Response i.index p s) (hlen : (sh s.cfg).len ≤ p.length) :
    exec i s = .next (replied i.index (.value (decodeShape (sh s.cfg) (p.take (sh s.cfg).len))) id s) := by
  rw [exec_ownResponse h hr, hi]
  exact congrArg Host.Outcome.next ((finishRead_value hlen rfl i.index _).trans (endOp_reply i.index _ s))

/-- Settles O38: two bytes, unsigned and in two's complement. -/
theorem sixteenBitReadsDecode : Obligations.SixteenBitReadsDecode := by
  intro s a loc cmd timeout t b1 b0 extra hr u
  constructor
  · intro hsh h
    rw [exec_plainRead (sh := Config.shapeEncoder) (fun _ _ => rfl) h hr (by simp [hsh]), hsh]
    have hv : decodeShape ⟨2, false⟩ [b1, b0] = (u : Int) := congrArg Nat.cast (beNat_two b1 b0)
    exact congrArg (fun v => Host.Outcome.next (replied a (.value v) id s)) hv
  · intro hsh h
    rw [exec_plainRead (sh := Config.shapeAngleError) (fun _ _ => rfl) h hr (by simp [hsh]), hsh]
    have hv : decodeShape ⟨2, true⟩ [b1, b0] = if u < 32768 then (u : Int) else (u : Int) - 65536 := by
      simp only [decodeShape, beNat_two, sext, if_true]
      by_cases hpos : u < 32768
      · rw [if_pos hpos, if_pos (by omega)]
      · rw [if_neg hpos, if_neg (by omega)]; rfl
    exact congrArg (fun v => Host.Outcome.next (replied a (.value v) id s)) hv

/-- Settles O39: four bytes in two's complement. -/
theorem readPulsesIsSignedWithoutOffset : Obligations.ReadPulsesIsSignedWithoutOffset := by
  intro s a loc cmd timeout t b3 b2 b1 b0 extra h hr hsh u
  rw [exec_plainRead (sh := Config.shapePulses) (fun _ _ => rfl) h hr (by simp [hsh]), hsh]
  have hv : decodeShape ⟨4, true⟩ [b3, b2, b1, b0] = if u < 2147483648 then (u : Int) else (u : Int) - 4294967296 := by
    simp only [decodeShape, beNat_four, sext, if_true]
    by_cases hpos : u < 2147483648
    · rw [if_pos hpos, if_pos (by omega)]
    · rw [if_neg hpos, if_neg (by omega)]; rfl
  exact congrArg (fun v => Host.Outcome.next (replied a (.value v) id s)) hv

/-- Settles O40: one byte as it is. -/
theorem byteReadsAreRaw : Obligations.ByteReadsAreRaw := by
  intro s a loc cmd timeout t b extra hr
  have hv : decodeShape ⟨1, false⟩ [b] = (b.toNat : Int) := by simp [decodeShape, beNat]
  constructor
  · intro hsh h
    rw [exec_plainRead (sh := Config.shapeDriverState) (fun _ _ => rfl) h hr (by simp [hsh]), hsh]
    exact congrArg (fun v => Host.Outcome.next (replied a (.value v) id s)) hv
  · intro hsh h
    rw [exec_plainRead (sh := Config.shapeBlockFlag) (fun _ _ => rfl) h hr (by simp [hsh]), hsh]
    exact congrArg (fun v => Host.Outcome.next (replied a (.value v) id s)) hv

/-! ### Results of the actions (R180) -/

theorem finishAction_ok {b : Byte} {s : State} (h : b = s.cfg.statusOk) (a : Index) (onOk : State → State) (w : Byte)
    (extra : List Byte) : finishAction a onOk (.frame (w :: b :: extra)) s = endOp a (.ok true) (onOk s) :=
  if_pos (decide_eq_true h)

theorem finishAction_notOk {b : Byte} {s : State} (h : b ≠ s.cfg.statusOk) (a : Index) (onOk : State → State) (w : Byte)
    (extra : List Byte) : finishAction a onOk (.frame (w :: b :: extra)) s = endOp a (.ok false) s :=
  if_neg (by simp [statusIsOk, h])

/-- The status byte of a response to an action's own command, any but success: nothing is written. -/
theorem exec_notOk {i : Instr} {loc : Locals} {cmd : Byte} {timeout t : Nat} {s : State} {b : Byte} {extra : List Byte}
    {onOk : State → State} (hi : afterOwnSend s.cfg loc i = finishAction i.index onOk)
    (h : Polling i loc cmd timeout t s) (hr : Response i.index (b :: extra) s) (hb : b ≠ s.cfg.statusOk) :
    exec i s = .next (replied i.index (.ok false) id s) := by
  rw [exec_ownResponse h hr, hi, finishAction_notOk (s := rxClear (endTransaction i.index s)) hb, endOp_reply]

/-- A successful status: the operation writes its index, and ends. -/
theorem exec_ok {i : Instr} {loc : Locals} {cmd : Byte} {timeout t : Nat} {s : State} {b : Byte} {extra : List Byte}
    {onOk : State → State} (hi : afterOwnSend s.cfg loc i = finishAction i.index onOk)
    (h : Polling i loc cmd timeout t s) (hr : Response i.index (b :: extra) s) (hb : b = s.cfg.statusOk) :
    exec i s = .next (endOp i.index (.ok true) (onOk (rxClear (endTransaction i.index s)))) := by
  rw [exec_ownResponse h hr, hi, finishAction_ok (s := rxClear (endTransaction i.index s)) hb]

/-- Settles O41: the first payload byte decides, and success writes nothing of its own. -/
theorem plainActionReportsStatus : Obligations.PlainActionReportsStatus := by
  intro s i loc cmd timeout t b extra hi h hr
  have hfinish : afterOwnSend s.cfg loc i = finishAction i.index id := by
    cases i with
    | readPosition | readEncoder | readPulses | readAngleError | readDriverState | readBlockFlag | setEnable | rtzGoto =>
      cases hi
    | _ => rfl
  by_cases hb : b = s.cfg.statusOk
  · rw [exec_ok hfinish h hr hb, decide_eq_true hb, id, endOp_reply]
  · rw [exec_notOk hfinish h hr hb, decide_eq_false hb]

/-- A successful operation that writes its index before it ends, in one record. -/
theorem endOp_setCh_reply {a : Index} {s : State} (edit : Channel → Channel) (h : (edit (s.ch a)).script = (s.ch a).script) :
    endOp a (.ok true) ((rxClear (endTransaction a s)).setCh a { edit (s.ch a) with pending := none, dsp := .idle })
      = replied a (.ok true) edit s := by
  have hdelivery (c : Channel) (hc : c.script = (s.ch a).script) :
      deliveryOf a (.ok true) ((rxClear (endTransaction a s)).setCh a c) = deliveryOf a (.ok true) s := by
    rw [deliveryOf, ch_setCh_same, hc]; rfl
  rw [endOp_eq, ch_setCh_same, hdelivery { edit (s.ch a) with pending := none, dsp := .idle } h]
  simp [replied, ended, endedChannel, rxClear, endTransaction_eq, State.setCh]

theorem setOffset_reply (a : Index) (v : Int) (s : State) :
    setOffset a v (rxClear (endTransaction a s))
      = (rxClear (endTransaction a s)).setCh a { s.ch a with pending := none, dsp := .idle, offset := v } := by
  rw [setOffset, ch_rxClear, ch_endTransaction_same]

/-- What a successful SET_ENABLE writes of its index (R181, R183). -/
def committed (cfg : Config) (e : Bool) (raw : Option Int) (c : Channel) : Channel :=
  match raw with
  | none => { c with isEnabled := e }
  | some raw => { c with isEnabled := e, offset := captureOffset cfg raw c.offset }

theorem commitEnable_eq (a : Index) (e : Bool) (loc : Locals) (s : State) :
    commitEnable a e loc s = s.setCh a (committed s.cfg e loc.raw (s.ch a)) := by
  cases h : loc.raw <;> simp [commitEnable, committed, h, setEnabled, setOffset]

theorem commitEnable_reply (a : Index) (e : Bool) (loc : Locals) (s : State) :
    commitEnable a e loc (rxClear (endTransaction a s))
      = (rxClear (endTransaction a s)).setCh a
          { committed s.cfg e loc.raw (s.ch a) with pending := none, dsp := .idle } := by
  rw [commitEnable_eq, ch_rxClear, ch_endTransaction_same]
  cases loc.raw <;> rfl

theorem captureOffset_eq (cfg : Config) (raw old : Int) :
    captureOffset cfg raw old = if cfg.offsetCapture = .logical then raw + old else raw := by
  cases h : cfg.offsetCapture <;> simp [captureOffset, h]

/-- Settles O42: the offset is set to 0 before the operation ends, on success only. -/
theorem rtzGotoResetsOffsetOnSuccess : Obligations.RtzGotoResetsOffsetOnSuccess := by
  intro s a loc cmd timeout t b extra h hr
  refine ⟨fun hb => ?_, exec_notOk rfl h hr⟩
  refine (exec_ok rfl h hr hb).trans (congrArg Host.Outcome.next ?_)
  exact (congrArg (endOp a (.ok true)) (setOffset_reply a 0 s)).trans
    (endOp_setCh_reply (fun c => { c with offset := 0 }) rfl)

/-- The enable command's success commits and ends, in one record. -/
theorem exec_setEnable_ok {a : Index} {e : Bool} {loc : Locals} {cmd : Byte} {timeout t : Nat} {s : State} {b : Byte}
    {extra : List Byte} (h : Polling (.setEnable a e) loc cmd timeout t s) (hr : Response a (b :: extra) s)
    (hb : b = s.cfg.statusOk) :
    exec (.setEnable a e) s = .next (replied a (.ok true) (committed s.cfg e loc.raw) s) := by
  refine (exec_ok rfl h hr hb).trans (congrArg Host.Outcome.next ?_)
  refine (congrArg (endOp a (.ok true)) (commitEnable_reply a e loc s)).trans (endOp_setCh_reply _ ?_)
  cases loc.raw <;> rfl

/-- Settles O43: the shadow, and after a position read the captured offset, are committed on success only. -/
theorem setEnableCommitsOnSuccess : Obligations.SetEnableCommitsOnSuccess := by
  intro s a e loc cmd timeout t b extra h hr
  refine ⟨exec_notOk rfl h hr, fun hb hraw => ?_, fun raw hb hraw => ?_⟩
  · rw [exec_setEnable_ok h hr hb, hraw]
    rfl
  · rw [exec_setEnable_ok h hr hb, hraw]
    simp only [← captureOffset_eq]
    rfl

/-! ### An enable's position read (R182) -/

/-- The end of a transaction leaves its operation at a position without one. -/
theorem setSeq_endTransaction (a : Index) (q : Seq) (s : State) :
    setSeq a q (endTransaction a s) = moved a q .idle none s := by
  simp [setSeq, endTransaction_eq, moved, State.setCh, State.ch]

/-- A read whose payload is whole and whose captured offset fits goes on to the enable command. -/
theorem finishAttempt_full {a : Index} {loc : Locals} {p : List Byte} {s : State}
    (hlen : s.cfg.shapePosition.len ≤ p.length)
    (hfit : fitsOffset s.cfg (captureOffset s.cfg (rawOfPayload s.cfg (p.take s.cfg.shapePosition.len)) (s.ch a).offset)
      = true) (w : Byte) :
    finishAttempt a loc (.frame (w :: p)) s = setSeq a (.run (.setEnable a true) .enableDue
      { loc with raw := some (rawOfPayload s.cfg (p.take s.cfg.shapePosition.len)) }) s := by
  simp only [finishAttempt, cutPayload_of_le hlen, hfit, if_true]

theorem finishAttempt_overflow {a : Index} {loc : Locals} {p : List Byte} {s : State}
    (hlen : s.cfg.shapePosition.len ≤ p.length)
    (hfit : fitsOffset s.cfg (captureOffset s.cfg (rawOfPayload s.cfg (p.take s.cfg.shapePosition.len)) (s.ch a).offset)
      = false) (w : Byte) : finishAttempt a loc (.frame (w :: p)) s = faultOp a .offsetOverflow s := by
  simp only [finishAttempt, cutPayload_of_le hlen, hfit, Bool.false_eq_true, if_false]

theorem finishAttempt_short {p : List Byte} {s : State} (h : p.length < s.cfg.shapePosition.len) (a : Index) (loc : Locals)
    (w : Byte) : finishAttempt a loc (.frame (w :: p)) s = faultOp a .shortPayload s := by
  simp only [finishAttempt, cutPayload_short h]

theorem finishAttempt_retry {loc : Locals} {s : State} (h : loc.attempt ≠ s.cfg.enableAttempts) (a : Index)
    (r : AbsentReason) : finishAttempt a loc (.absent r) s
      = setSeq a (.run (.setEnable a true) .readDue { loc with attempt := loc.attempt + 1 }) s :=
  if_neg h

theorem finishAttempt_last {loc : Locals} {s : State} (h : loc.attempt = s.cfg.enableAttempts) (a : Index)
    (r : AbsentReason) : finishAttempt a loc (.absent r) s = abortOp a .enableNoPosition .enableNoPosition s :=
  if_pos h

/-- The offset is not touched by the end of the transaction. -/
theorem offset_reply (a : Index) (s : State) : ((rxClear (endTransaction a s)).ch a).offset = (s.ch a).offset := by
  rw [ch_rxClear, ch_endTransaction_same]

/-- Settles O44: the raw position becomes a local, and the command is due. -/
theorem enableReadKeepsRawPosition : Obligations.EnableReadKeepsRawPosition := by
  intro s a loc cmd timeout t b3 b2 b1 b0 extra h hr hlen hthr u raw hin
  have hraw : rawOfPayload s.cfg ((b3 :: b2 :: b1 :: b0 :: extra).take s.cfg.shapePosition.len) = raw := by
    rw [hlen]
    exact rawOfPayload_four hlen hthr b3 b2 b1 b0
  have hfit : fitsOffset s.cfg (captureOffset s.cfg raw ((rxClear (endTransaction a s)).ch a).offset) = true := by
    rw [offset_reply]
    exact (fitsOffset_iff _ _).mpr hin
  rw [← hraw] at hfit ⊢
  rw [exec_readResponse h hr, finishAttempt_full (s := rxClear (endTransaction a s)) ?_ hfit]
  · exact congrArg (fun x => Host.Outcome.next (rxClear x)) (setSeq_endTransaction a _ s)
  · exact hlen ▸ Nat.le_add_left 4 extra.length

/-- Settles O37: a value that does not fit faults where it would be delivered or captured. -/
theorem fixedWidthOverflowFaults : Obligations.FixedWidthOverflowFaults := by
  intro s a loc cmd timeout t p w hr hlen hw raw outside
  refine ⟨fun h hout => ?_, fun h hout => ?_⟩
  · have hnone : logicalPosition a (rxClear (endTransaction a s)) (p.take s.cfg.shapePosition.len) = none := by
      rw [logicalPosition_reply, if_neg (by rw [fitsOffset_outside hw hout]; exact Bool.false_ne_true)]
    rw [exec_ownResponse h hr, ← faultOp_reply]
    exact congrArg Host.Outcome.next (finishRead_overflow hlen hnone a _)
  · have hfit : fitsOffset s.cfg (captureOffset s.cfg raw ((rxClear (endTransaction a s)).ch a).offset) = false := by
      rw [offset_reply]
      exact fitsOffset_outside hw hout
    rw [exec_readResponse h hr, finishAttempt_overflow (s := rxClear (endTransaction a s)) hlen hfit, faultOp_reply]

/-- A position read whose `Send` ends absent runs the pseudocode of the attempt. -/
theorem exec_read_absent {a : Index} {loc : Locals} {cmd : Byte} {timeout t : Nat} {s u : State} {r : AbsentReason}
    (h : WaitingRead a loc cmd timeout t s) (hsend : poll a cmd timeout t s = (u, some (.absent r))) :
    exec (.setEnable a true) s = .next (finishAttempt a loc (.absent r) u) := by
  obtain ⟨hseq, hdsp⟩ := h
  rw [exec_inLeg (i := .setEnable a true) (leg := .read) rfl hseq]
  exact congrArg (fun x => afterSend x _ _) ((continueSend_await hdsp).trans (congrArg some hsend))

/-- Settles O45: an absent position is read again, or at the last attempt aborts the enable. -/
theorem enableReadIsRetriedThenAborts : Obligations.EnableReadIsRetriedThenAborts := by
  intro s a loc cmd timeout t h hm ht
  rw [exec_read_absent h (poll_timeout hm ht cmd)]
  refine ⟨fun hne => ?_, fun heq => ?_⟩
  · rw [finishAttempt_retry (s := logEvent a .timeout (endTransaction a s)) hne]
    exact congrArg (fun x => Host.Outcome.next (logEvent a .timeout x)) (setSeq_endTransaction a _ s)
  · rw [finishAttempt_last (s := logEvent a .timeout (endTransaction a s)) heq, abortOp, endOp_logEvent,
      endOp_logEvent_end]
    simp [logEvent, endTransaction_eq]

/-- Settles O46: a wrong checksum is an absent position, and a short payload ends the enable. -/
theorem enableReadFailures : Obligations.EnableReadFailures := by
  intro s a loc cmd timeout t h
  refine ⟨fun r hr hm hv => ?_, fun p hr hshort => ?_⟩
  · rw [exec_read_absent h.1 (poll_wrongChecksum h.2 hr hm hv cmd)]
    refine ⟨fun hne => ?_, fun heq => ?_⟩
    · rw [finishAttempt_retry (s := logEvent a .checksumMismatch (rxClear (endTransaction a s))) hne]
      exact congrArg (fun x => Host.Outcome.next (logEvent a .checksumMismatch (rxClear x))) (setSeq_endTransaction a _ s)
    · rw [finishAttempt_last (s := logEvent a .checksumMismatch (rxClear (endTransaction a s))) heq, abortOp,
        endOp_logEvent, endOp_logEvent_reply]
      simp [logEvent, rxClear, endTransaction_eq]
  · rw [exec_readResponse h hr, finishAttempt_short (s := rxClear (endTransaction a s)) hshort, faultOp_reply]

end Sys2Proof.Proofs.Results
end

section
/-! PROOFS of the statements about a `Send` that begins (41_dispatcher.md R131 to R135, R143): the request each operation writes,
the closed transport, and the first poll where there is no settle delay. -/

namespace Sys2Proof.Proofs.Requests

open Sys2Proof Sys2Proof.Machine Sys2Proof.Safety Sys2Proof.Proofs.Codec Sys2Proof.Proofs.Dispatcher
open Sys2Proof.Proofs.DriverMotion Sys2Proof.Proofs.Encoding Sys2Proof.Proofs.Operation Sys2Proof.Proofs.Results

/-! ### An operation about to begin a `Send` -/

/-- Operation `i` begins a `Send` in its next step: it is accepted, or an enable has its next read or its command due. -/
inductive Due (i : Instr) (s : State) : Leg → Locals → Prop
  | accepted {leg : Leg} (hleg : legAt i .start (s.ch i.index) = leg) (h : (s.ch i.index).seq = .idle) :
      Due i s leg (localsAt i .start {} leg)
  | readDue {loc : Locals} (hi : oneSendOp i = false) (h : (s.ch i.index).seq = .run i .readDue loc) : Due i s .read loc
  | enableDue {loc : Locals} (hi : oneSendOp i = false) (h : (s.ch i.index).seq = .run i .enableDue loc) : Due i s .own loc

/-- Where the dispatcher is idle and there is a request, the step is the beginning of its `Send`, from the state before or with
the operation accepted in it. -/
theorem exec_due {i : Instr} {s : State} {leg : Leg} {loc : Locals} {rq : Request} (h : Due i s leg loc)
    (hdsp : (s.ch i.index).dsp = .idle) (hrq : leg.request i s.cfg = some rq) :
    ∃ u, (u = s ∨ u = accept i s)
      ∧ exec i s = afterSend (some (beginSend i.index rq u)) (suspendAt i leg.pc loc) (leg.finish i s.cfg loc) := by
  cases h with
  | accepted hleg hseq =>
    have hleg' : legAt i .start ((accept i s).ch i.index) = leg := by
      rw [← hleg, accept, setSeq, ch_setCh_same]
      cases i <;> rfl
    have hdsp' : ((accept i s).ch i.index).dsp = .idle := by rw [accept, setSeq, ch_setCh_same, hdsp]
    have hrq' : leg.request i (accept i s).cfg = some rq := hrq
    have hbegins : begins i .start = true := by cases i <;> rfl
    refine ⟨accept i s, .inr rfl, ?_⟩
    rw [exec_idle hseq]
    simp only [execAt, hleg', hbegins, if_true, hrq', startSend_idle hdsp']
    rfl
  | readDue hi hseq =>
    refine ⟨s, .inl rfl, ?_⟩
    rw [exec_run hseq]
    cases i with
    | setEnable a e =>
      cases hrq
      exact congrArg (fun x => afterSend x _ _) (startSend_idle hdsp)
    | _ => cases hi
  | enableDue hi hseq =>
    refine ⟨s, .inl rfl, ?_⟩
    rw [exec_run hseq]
    cases i with
    | setEnable a e =>
      cases hrq
      exact congrArg (fun x => afterSend x _ _) (startSend_idle hdsp)
    | _ => cases hi

/-- An operation with its operands in range has a request. -/
theorem exists_ownRequest {cfg : Config} {i : Instr} (h : outOfRange cfg i = false) :
    ownRequest i cfg = some (rowRequest cfg i.row (i.value cfg)) := by
  cases i with
  | start a dir speed =>
    have hs : speedInRange cfg speed = true := by simpa [outOfRange] using h
    simp only [ownRequest, startRequest, encodeSpeed, hs, if_true]
    rfl
  | movePulses a dir speed pulses =>
    obtain ⟨hs, hp⟩ : speedInRange cfg speed = true ∧ pulsesInRange pulses = true := by simpa [outOfRange] using h
    simp only [ownRequest, moveRequest, encodeSpeed, hs, hp, if_true]
    rfl
  | _ => rfl

/-! ### The write and the settle delay (R132 to R135) -/

/-- The write, the dispatcher's new state and the suspension, in one record. -/
theorem suspendAt_writeRequest (i : Instr) (pc : Pc) (loc : Locals) (d : Dsp) (rq : Request) (s : State) :
    suspendAt i pc loc (setDsp i.index d (writeRequest i.index rq s))
      = sent i pc loc rq.cmd d (requestFrame s.cfg i.index rq.cmd rq.val) s := by
  cases hc : s.cfg.clearBeforeSend <;>
    simp [suspendAt, setSeq, setDsp, writeRequest, clearIfConfigured, setPending, hc, sent, txWrite, rxClear, State.setCh,
      State.ch]

/-- The write does not depend on the sequencer's position before it. -/
theorem sent_accept (i : Instr) (pc : Pc) (loc : Locals) (cmd : Byte) (d : Dsp) (f : Frame) (s : State) :
    sent i pc loc cmd d f (accept i s) = sent i pc loc cmd d f s := by
  cases hc : s.cfg.clearBeforeSend <;> simp [sent, accept, setSeq, State.setCh, State.ch, hc]

theorem beginSend_settles {a : Index} {rq : Request} {s : State} (hopen : s.txOpen = true) (h : 1 ≤ s.cfg.settleTicks) :
    beginSend a rq s = (setDsp a (.settle rq.cmd rq.timeout s.cfg.settleTicks) (writeRequest a rq s), none) := by
  rw [beginSend, isOpen, hopen, if_pos rfl, if_neg (by omega)]

/-- With a settle delay the request is written and the dispatcher settles. -/
theorem exec_settles {i : Instr} {s : State} {leg : Leg} {loc : Locals} {rq : Request} (h : Due i s leg loc)
    (hdsp : (s.ch i.index).dsp = .idle) (hrq : leg.request i s.cfg = some rq) (hopen : s.txOpen = true)
    (hsettle : 1 ≤ s.cfg.settleTicks) :
    exec i s = .next (sent i leg.pc loc rq.cmd (.settle rq.cmd rq.timeout s.cfg.settleTicks)
      (requestFrame s.cfg i.index rq.cmd rq.val) s) := by
  obtain ⟨u, rfl | rfl, hexec⟩ := exec_due h hdsp hrq
  · rw [hexec, beginSend_settles hopen hsettle, afterSend, suspendAt_writeRequest]
  · rw [hexec, beginSend_settles (s := accept i s) hopen hsettle, afterSend, suspendAt_writeRequest, sent_accept]
    rfl

/-- An operation that sends its own command first writes its request in the tick of acceptance. -/
theorem exec_own_settles {i : Instr} {s : State} (hleg : legAt i .start (s.ch i.index) = .own)
    (hready : Ready i.index s) (hin : outOfRange s.cfg i = false) (hopen : s.txOpen = true)
    (hsettle : 1 ≤ s.cfg.settleTicks) :
    exec i s = .next (sent i .inSend {} (s.cfg.cmdByte i.row)
      (.settle (s.cfg.cmdByte i.row) (rowTimeout s.cfg i.row) s.cfg.settleTicks) (encode s.cfg i) s) := by
  have hloc : localsAt i .start {} .own = {} := by cases i <;> rfl
  have h := exec_settles (.accepted hleg hready.1) hready.2 (exists_ownRequest hin) hopen hsettle
  rw [hloc] at h
  exact h

/-! ### The frames (R71 to R74) -/

theorem requestFrame_none (cfg : Config) (a : Index) (cmd : Byte) : requestFrame cfg a cmd .none = frameF2 cfg a cmd := by
  simp only [requestFrame, requestBody_eq, valueBytes, appendChecksum, frameF2, checksum_cons, checksum_nil, wireAddr,
    List.cons_append, List.nil_append, BitVec.add_zero]

theorem requestFrame_v1 (cfg : Config) (a : Index) (cmd v : Byte) : requestFrame cfg a cmd (.v1 v) = frameF3 cfg a cmd v := by
  simp only [requestFrame, requestBody_eq, valueBytes, appendChecksum, frameF3, checksum_cons, checksum_nil, wireAddr,
    List.cons_append, List.nil_append, BitVec.add_zero, BitVec.add_assoc]

theorem requestFrame_v7 (cfg : Config) (a : Index) (cmd v p3 p2 p1 p0 : Byte) :
    requestFrame cfg a cmd (.v7 v (((p3.toNat * 256 + p2.toNat) * 256 + p1.toNat) * 256 + p0.toNat))
      = frameF7 cfg a cmd v p3 p2 p1 p0 := by
  simp only [requestFrame, requestBody_eq, valueBytes, be32_of_bytes, appendChecksum, frameF7, checksum_cons, checksum_nil,
    wireAddr, List.cons_append, List.nil_append, BitVec.add_zero, BitVec.add_assoc]

/-- Settles O23: a read has no value, so its request is the two-byte format. -/
theorem readsWriteTheirRequest : Obligations.ReadsWriteTheirRequest := by
  intro s a hready hopen hsettle p hp
  have hread (i : Instr) (hi : i.index = a) (hleg : legAt i .start (s.ch a) = .own) (hval : i.value s.cfg = .none)
      (hin : outOfRange s.cfg i = false) : exec i s = .next (sent i .inSend {} (s.cfg.cmdByte i.row)
        (.settle (s.cfg.cmdByte i.row) (rowTimeout s.cfg i.row) s.cfg.settleTicks)
        (frameF2 s.cfg a (s.cfg.cmdByte i.row)) s) := by
    subst hi
    rw [exec_own_settles hleg hready hin hopen hsettle, encode, hval, requestFrame_none]
  simp only [List.mem_cons, List.not_mem_nil, or_false] at hp
  obtain rfl | rfl | rfl | rfl | rfl | rfl := hp <;> exact hread _ rfl rfl rfl rfl

/-- An operation with a one-byte value writes the three-byte format. -/
theorem exec_writesF3 {i : Instr} {s : State} {v : Byte} (hval : i.value s.cfg = .v1 v)
    (hleg : legAt i .start (s.ch i.index) = .own) (hready : Ready i.index s) (hin : outOfRange s.cfg i = false)
    (hopen : s.txOpen = true) (hsettle : 1 ≤ s.cfg.settleTicks) :
    exec i s = .next (sent i .inSend {} (s.cfg.cmdByte i.row)
      (.settle (s.cfg.cmdByte i.row) (rowTimeout s.cfg i.row) s.cfg.settleTicks)
      (frameF3 s.cfg i.index (s.cfg.cmdByte i.row) v) s) := by
  rw [exec_own_settles hleg hready hin hopen hsettle, encode, hval, requestFrame_v1]

theorem speedByte_natCast (d : Direction) (speed : Nat) :
    speedByte speed (isForward d) = BitVec.ofNat 8 ((if d = .fwd then 0 else 128) + speed) := by
  have hsum : ((if isForward d then 0 else 128) + (speed : Int) : Int) = (((if d = .fwd then 0 else 128) + speed : Nat) : Int) := by
    cases d <;> simp [isForward]
  rw [speedByte, hsum, BitVec.ofInt_natCast]

/-- Settles O24: the speed byte of a natural speed, and the big-endian bytes of the count. -/
theorem motionWritesItsRequest : Obligations.MotionWritesItsRequest := by
  intro s a hready hopen hsettle
  refine ⟨?_, fun d speed hspeed _ => ?_⟩
  · have h := exec_own_settles (i := .stop a) rfl hready rfl hopen hsettle
    rw [encode, Instr.value, requestFrame_none] at h
    exact h
  · intro v
    have hin : speedInRange s.cfg (speed : Int) = true := (speedInRange_iff _ _).mpr (by omega)
    refine ⟨?_, fun p3 p2 p1 p0 => ?_⟩
    · have hval : (Instr.start a d speed).value s.cfg = .v1 v := congrArg Val.v1 (speedByte_natCast d speed)
      exact exec_writesF3 hval rfl hready (by simp [outOfRange, hin]) hopen hsettle
    · intro n
      have h3 := p3.isLt
      have h2 := p2.isLt
      have h1 := p1.isLt
      have h0 := p0.isLt
      have hp : pulsesInRange (n : Int) = true := (pulsesInRange_iff _).mpr (by omega)
      have h := exec_own_settles (i := .movePulses a d speed n) rfl hready (by simp [outOfRange, hin, hp]) hopen hsettle
      rw [encode, Instr.value, speedByte_natCast, Int.toNat_natCast, requestFrame_v7] at h
      exact h

/-- Settles O25: each is an operation of a one-byte value, always in range. -/
theorem rtzAndCalibrateWriteTheirRequest : Obligations.RtzAndCalibrateWriteTheirRequest := by
  intro s a hready hopen hsettle writes
  have hwrite (i : Instr) (v : Byte) (hi : i.index = a) (hval : i.value s.cfg = .v1 v)
      (hleg : legAt i .start (s.ch a) = .own) (hin : outOfRange s.cfg i = false) :
      writes i (s.cfg.cmdByte i.row) v (rowTimeout s.cfg i.row) := by
    subst hi
    exact exec_writesF3 hval hleg hready hin hopen hsettle
  exact ⟨hwrite (.rtzSetPoint a) _ rfl rfl rfl rfl, hwrite (.rtzMode a .dir) _ rfl rfl rfl rfl,
    hwrite (.rtzMode a .near) _ rfl rfl rfl rfl, fun speed => hwrite (.rtzSpeed a speed) _ rfl rfl rfl rfl,
    hwrite (.rtzDirection a .fwd) _ rfl rfl rfl rfl, hwrite (.rtzDirection a .rev) _ rfl rfl rfl rfl,
    hwrite (.rtzGoto a) _ rfl rfl rfl rfl, hwrite (.calibrate a) _ rfl rfl rfl rfl⟩

/-! ### SET_ENABLE (R181, R182) -/

/-- An enable of a disabled shadow reads the position first. -/
theorem legAt_enable_disabled {a : Index} {s : State} (h : (s.ch a).isEnabled = false) :
    legAt (.setEnable a true) .start (s.ch a) = .read := by
  simp [legAt, h]

/-- An enable of an enabled shadow, and every disable, send the command at once. -/
theorem legAt_setEnable_own {a : Index} {e : Bool} {s : State} (h : e = false ∨ (s.ch a).isEnabled = true) :
    legAt (.setEnable a e) .start (s.ch a) = .own := by
  obtain rfl | h := h <;> simp [legAt, *]

/-- Settles O26: the read and the command, from acceptance and from the positions between them. -/
theorem setEnableWritesItsRequest : Obligations.SetEnableWritesItsRequest := by
  intro s a hdsp hopen hsettle read command
  have hread {loc : Locals} (h : Due (.setEnable a true) s .read loc) :
      exec (.setEnable a true) s = .next (read loc) := by
    rw [exec_settles h hdsp rfl hopen hsettle, positionRequest, requestFrame_none]
    rfl
  have hcommand {e : Bool} {loc : Locals} (h : Due (.setEnable a e) s .own loc) :
      exec (.setEnable a e) s = .next (command e loc) := by
    rw [exec_settles h hdsp rfl hopen hsettle, rowRequest, Instr.value, requestFrame_v1]
    rfl
  exact ⟨fun hseq hdis => hread (.accepted (legAt_enable_disabled hdis) hseq),
    fun hseq hen => hcommand (.accepted (legAt_setEnable_own (.inr hen)) hseq),
    fun hseq => hcommand (.accepted (legAt_setEnable_own (.inl rfl)) hseq),
    fun _ hseq => hread (.readDue rfl hseq), fun _ hseq => hcommand (.enableDue rfl hseq)⟩

/-! ### The closed transport (R131) -/

/-- Whatever the `Send`, an abort in it ends the operation. -/
theorem finish_abort (leg : Leg) (i : Instr) (cfg : Config) (loc : Locals) (x : AbortReason) (s : State) :
    leg.finish i cfg loc (.abort x) s = endOp i.index (.abort x) s := by
  refine Leg.finish_induction (P := fun _ f => f (.abort x) s = endOp i.index (.abort x) s) rfl (fun f hf => ?_) leg cfg
  cases hf <;> rfl

/-- An operation about to begin a `Send` aborts where the transport is not open. -/
theorem exec_closed {i : Instr} {s : State} {leg : Leg} {loc : Locals} {rq : Request} (h : Due i s leg loc)
    (hdsp : (s.ch i.index).dsp = .idle) (hrq : leg.request i s.cfg = some rq) (hclosed : s.txOpen = false) :
    ∃ u, (u = s ∨ u = accept i s) ∧ exec i s = .next (abortOp i.index .transportNotOpen .transportNotOpen u) := by
  obtain ⟨u, hu, hexec⟩ := exec_due h hdsp hrq
  refine ⟨u, hu, ?_⟩
  have hopen : isOpen u = false := by obtain rfl | rfl := hu <;> exact hclosed
  rw [hexec, beginSend, hopen, if_neg Bool.false_ne_true, afterSend, finish_abort]
  rfl

theorem abortOp_eq (a : Index) (k : DiagKind) (r : AbortReason) (s : State) :
    abortOp a k r s =
      { s with
        diag := s.diag ++ [⟨s.now, a, k⟩]
        delivered := s.delivered ++ [⟨s.now, (a.val : Int), .abort r, true⟩]
        chans := s.chans.set a.val { s.ch a with seq := .idle, script := [] } } := by
  rw [abortOp, endOp_logEvent, endOp_eq]
  simp [deliveryOf]

/-- An operation's abort in the tick of acceptance and without it differ in nothing. -/
theorem abortOp_accept_eq (i : Instr) (k : DiagKind) (r : AbortReason) (s : State) :
    abortOp i.index k r (accept i s) = abortOp i.index k r s := by
  rw [abortOp_eq, abortOp_eq]
  simp [accept, setSeq, State.setCh, State.ch]

/-- Settles O27: there is a request, its `Send` aborts, and the operation with it. -/
theorem closedTransportAborts : Obligations.ClosedTransportAborts := by
  have habort {i : Instr} {s : State} {leg : Leg} {loc : Locals} {rq : Request} (h : Due i s leg loc)
      (hdsp : (s.ch i.index).dsp = .idle) (hrq : leg.request i s.cfg = some rq) (hclosed : s.txOpen = false) :
      exec i s = .next (abortOp i.index .transportNotOpen .transportNotOpen s) := by
    obtain ⟨u, rfl | rfl, hexec⟩ := exec_closed h hdsp hrq hclosed
    · exact hexec
    · rw [hexec, abortOp_accept_eq]
  constructor
  · intro s i ⟨hseq, hdsp⟩ hclosed hin
    obtain ⟨rq, hrq⟩ : ∃ rq, (legAt i .start (s.ch i.index)).request i s.cfg = some rq := by
      cases legAt i .start (s.ch i.index) with
      | own => exact ⟨_, exists_ownRequest hin⟩
      | read => exact ⟨_, rfl⟩
    rw [habort (.accepted rfl hseq) hdsp hrq hclosed, ← abortOp_accept_eq, abortOp_accept hseq]
  · intro s a pc loc hpc hseq hdsp hclosed
    obtain rfl | rfl := hpc
    · exact (habort (.readDue rfl hseq) hdsp rfl hclosed).trans (congrArg Host.Outcome.next (abortOp_eq a _ _ s))
    · exact (habort (.enableDue rfl hseq) hdsp rfl hclosed).trans (congrArg Host.Outcome.next (abortOp_eq a _ _ s))

/-! ### No settle delay (R143, R149) -/

/-- A poll does not look at the sequencer. -/
theorem poll_setSeq (a : Index) (cmd : Byte) (timeout t : Nat) (q : Seq) (s : State) :
    poll a cmd timeout t (setSeq a q s) = (setSeq a q (poll a cmd timeout t s).1, (poll a cmd timeout t s).2) := by
  have hend : endTransaction a (setSeq a q s) = setSeq a q (endTransaction a s) := by
    simp [endTransaction, setDsp, setPending, setSeq]
  have hmiss : missPoll a cmd timeout t (setSeq a q s)
      = (setSeq a q (missPoll a cmd timeout t s).1, (missPoll a cmd timeout t s).2) := by
    unfold missPoll
    split
    · rw [hend]; rfl
    · simp [setDsp, setSeq]
  have htake (r : Frame) : takeMatch a r (setSeq a q s) = (setSeq a q (takeMatch a r s).1, (takeMatch a r s).2) := by
    unfold takeMatch
    split <;> (rw [hend]; rfl)
  have hslot : rxPeek (setSeq a q s) = rxPeek s := rfl
  have hcfg : (setSeq a q s).cfg = s.cfg := rfl
  simp only [poll, hslot, hcfg, hmiss, htake]
  split
  · split <;> rfl
  · rfl

theorem endOp_setSeq (a : Index) (o : OpOutcome) (q : Seq) (s : State) : endOp a o (setSeq a q s) = endOp a o s := by
  rw [endOp_eq, endOp_eq]
  simp [setSeq, State.setCh, State.ch, deliveryOf]

theorem faultOp_setSeq (a : Index) (r : FaultReason) (q : Seq) (s : State) : faultOp a r (setSeq a q s) = faultOp a r s :=
  endOp_setSeq a (.fault r) q { s with faulted := true }

theorem abortOp_setSeq (a : Index) (k : DiagKind) (r : AbortReason) (q : Seq) (s : State) :
    abortOp a k r (setSeq a q s) = abortOp a k r s :=
  endOp_setSeq a (.abort r) q (logEvent a k s)

theorem setSeq_setSeq (a : Index) (q q' : Seq) (s : State) : setSeq a q' (setSeq a q s) = setSeq a q' s := by
  simp [setSeq]

theorem finishAction_setSeq {a : Index} {onOk : State → State} {q : Seq}
    (h : ∀ s, onOk (setSeq a q s) = setSeq a q (onOk s)) (r : SendResult) (s : State) :
    finishAction a onOk r (setSeq a q s) = finishAction a onOk r s := by
  have hcfg : (setSeq a q s).cfg = s.cfg := rfl
  simp only [finishAction, h, endOp_setSeq, faultOp_setSeq, hcfg]

theorem finishRead_setSeq {a : Index} {value : State → List Byte → Option Int} {q : Seq}
    (h : ∀ s p, value (setSeq a q s) p = value s p) (len : Nat) (r : SendResult) (s : State) :
    finishRead a len value r (setSeq a q s) = finishRead a len value r s := by
  simp only [finishRead, h, endOp_setSeq, faultOp_setSeq]

theorem finishAttempt_setSeq (a : Index) (loc : Locals) (r : SendResult) (q : Seq) (s : State) :
    finishAttempt a loc r (setSeq a q s) = finishAttempt a loc r s := by
  have hoff : ((setSeq a q s).ch a).offset = (s.ch a).offset := by simp [setSeq]
  have hcfg : (setSeq a q s).cfg = s.cfg := rfl
  simp only [finishAttempt, hcfg, hoff, endOp_setSeq, faultOp_setSeq, abortOp_setSeq, setSeq_setSeq]

theorem commitEnable_setSeq (a : Index) (e : Bool) (loc : Locals) (q : Seq) (s : State) :
    commitEnable a e loc (setSeq a q s) = setSeq a q (commitEnable a e loc s) := by
  simp only [commitEnable_eq, setSeq, ch_setCh_same, setCh_setCh, setCh_cfg]
  cases loc.raw <;> rfl

/-- The pseudocode after a `Send` ends the sequencer's position or sets it anew, whatever it was. -/
theorem finish_setSeq (leg : Leg) (i : Instr) (cfg : Config) (loc : Locals) (r : SendResult) (q : Seq) (s : State) :
    leg.finish i cfg loc r (setSeq i.index q s) = leg.finish i cfg loc r s := by
  refine Leg.finish_induction (P := fun _ f => f r (setSeq i.index q s) = f r s) (finishAttempt_setSeq _ _ r q s)
    (fun f hf => ?_) leg cfg
  cases hf with
  | position => exact finishRead_setSeq (fun _ _ => by simp [logicalPosition, setSeq]) _ r s
  | plainRead _ sh => exact finishRead_setSeq (value := plainValue sh) (fun _ _ => rfl) _ r s
  | plainAction => exact finishAction_setSeq (onOk := id) (fun _ => rfl) r s
  | goto => exact finishAction_setSeq (fun _ => by simp [setOffset, setSeq]) r s
  | enable => exact finishAction_setSeq (commitEnable_setSeq _ _ loc q) r s

/-- So does all that follows a `Send`'s step. -/
theorem afterSend_setSeq (leg : Leg) (i : Instr) (cfg : Config) (pc : Pc) (loc : Locals) (q : Seq)
    (x : State × Option SendResult) :
    afterSend (some (setSeq i.index q x.1, x.2)) (suspendAt i pc loc) (leg.finish i cfg loc)
      = afterSend (some x) (suspendAt i pc loc) (leg.finish i cfg loc) := by
  obtain ⟨u, _ | r⟩ := x
  · simp only [afterSend, suspendAt, setSeq_setSeq]
  · simp only [afterSend, finish_setSeq]

theorem beginSend_polls {a : Index} {rq : Request} {s : State} (hopen : s.txOpen = true) (h : s.cfg.settleTicks = 0) :
    beginSend a rq s = poll a rq.cmd rq.timeout 0 (writeRequest a rq s) := by
  rw [beginSend, isOpen, hopen, if_pos rfl, if_pos h]

/-- With no settle delay a `Send` that begins steps as one that was just written and waits at poll 0. -/
theorem exec_polls {i : Instr} {s : State} {leg : Leg} {loc : Locals} {rq : Request} (hleg : LegOf i leg)
    (h : Due i s leg loc) (hdsp : (s.ch i.index).dsp = .idle) (hrq : leg.request i s.cfg = some rq)
    (hopen : s.txOpen = true) (hsettle : s.cfg.settleTicks = 0) :
    exec i s = exec i (sent i leg.pc loc rq.cmd (.await rq.cmd rq.timeout 0) (requestFrame s.cfg i.index rq.cmd rq.val) s) := by
  have hstep (u : State) (hcfg : u.cfg = s.cfg) (htx : u.txOpen = s.txOpen) :
      afterSend (some (beginSend i.index rq u)) (suspendAt i leg.pc loc) (leg.finish i s.cfg loc)
        = exec i (sent i leg.pc loc rq.cmd (.await rq.cmd rq.timeout 0) (requestFrame u.cfg i.index rq.cmd rq.val) u) := by
    rw [← suspendAt_writeRequest]
    generalize hw : setDsp i.index (.await rq.cmd rq.timeout 0) (writeRequest i.index rq u) = w
    have hwcfg : w.cfg = s.cfg := by rw [← hcfg, ← hw]; exact (touches_writeRequest i.index rq u).cfg
    have hseq : ((suspendAt i leg.pc loc w).ch i.index).seq = .run i leg.pc loc := by simp [suspendAt, setSeq]
    have hd : ((suspendAt i leg.pc loc w).ch i.index).dsp = .await rq.cmd rq.timeout 0 := by
      simp [suspendAt, setSeq, ← hw, setDsp]
    have hcfg' : (suspendAt i leg.pc loc w).cfg = s.cfg := hwcfg
    rw [exec_inLeg hleg hseq, continueSend_await hd, hcfg', suspendAt, poll_setSeq, afterSend_setSeq, ← hw, poll_setDsp,
      beginSend_polls (htx.trans hopen) (by rw [hcfg]; exact hsettle)]
  obtain ⟨u, rfl | rfl, hexec⟩ := exec_due h hdsp hrq
  · rw [hexec, hstep u rfl rfl]
  · rw [hexec, hstep (accept i s) rfl rfl, sent_accept]
    rfl

/-- Settles O29: the operation sends its own command first, in each of the three cases. -/
theorem noSettleDelayPollsAtOnce : Obligations.NoSettleDelayPollsAtOnce := by
  intro s i hi ⟨hseq, hdsp⟩ hopen hsettle hin
  have hleg : legAt i .start (s.ch i.index) = .own := by
    obtain hone | he | ⟨he, hen⟩ := hi
    · cases i with
      | setEnable a e => cases hone
      | _ => rfl
    · rw [he]; exact legAt_setEnable_own (.inl rfl)
    · rw [he]; exact legAt_setEnable_own (.inr hen)
  have hloc : localsAt i .start {} .own = {} := by cases i <;> rfl
  have h := exec_polls (leg := .own) trivial (.accepted hleg hseq) hdsp (exists_ownRequest hin) hopen hsettle
  rw [hloc] at h
  exact h

/-- Settles O30: the first read, a retry, and the command after a read. -/
theorem enableWithNoSettleDelayPollsAtOnce : Obligations.EnableWithNoSettleDelayPollsAtOnce := by
  intro s a loc hdsp hopen hsettle read
  have hread {loc : Locals} (h : Due (.setEnable a true) s .read loc) :
      exec (.setEnable a true) s = exec (.setEnable a true) (read loc) := by
    rw [exec_polls (i := .setEnable a true) (leg := .read) rfl h hdsp rfl hopen hsettle, positionRequest, requestFrame_none]
    rfl
  refine ⟨fun hseq hdis => hread (.accepted (legAt_enable_disabled hdis) hseq), fun hseq => hread (.readDue rfl hseq),
    fun hseq => ?_⟩
  rw [exec_polls (leg := .own) trivial (.enableDue rfl hseq) hdsp rfl hopen hsettle, rowRequest, Instr.value, requestFrame_v1]
  rfl

end Sys2Proof.Proofs.Requests
end

section
/-! PROOFS of the statements about what an operation's step touches (10_state.md R28, R29, R37, 20_memory.md R57, 41_dispatcher.md
R137, R138, R145): its own index, the slot where the index matches it, and the ends of the logs. -/

namespace Sys2Proof.Proofs.Locality

open Sys2Proof Sys2Proof.Machine Sys2Proof.Safety Sys2Proof.Proofs.Codec Sys2Proof.Proofs.Dispatcher
open Sys2Proof.Proofs.Operation Sys2Proof.Proofs.Results Sys2Proof.Proofs.Requests

/-- Settles O51: a frame of two bytes begins with one wire address, and wire addresses are distinct. -/
theorem frameMatchesAtMostOneIndex : Obligations.FrameMatchesAtMostOneIndex := by
  intro cfg f a b ha hb
  simp only [matchesIndex, Bool.and_eq_true, decide_eq_true_eq] at ha hb
  exact wireAddr_inj cfg (Option.some.inj (ha.2.symm.trans hb.2))

/-! ### The frame of a step (R37, R145) -/

theorem touches_sendStep {a : Index} {s : State} {x : State × Option SendResult} (h : SendStep a s x) : Touches a s x.1 := by
  obtain ⟨rq, h⟩ | h := h
  · exact touches_startSend h
  · exact touches_continueSend h

theorem touches_finish (leg : Leg) (i : Instr) (cfg : Config) (loc : Locals) (r : SendResult) (s : State) :
    Touches i.index s (leg.finish i cfg loc r s) := by
  refine Leg.finish_induction (P := fun _ f => Touches i.index s (f r s)) (touches_finishAttempt _ loc r s)
    (fun f hf => ?_) leg cfg
  cases hf with
  | position | plainRead => exact touches_finishRead _ _ _ r s
  | plainAction => exact touches_finishAction (onOk := id) (Touches.same _) r s
  | goto => exact touches_finishAction (fun u => touches_setCh _ u _) r s
  | enable => exact touches_finishAction (touches_commitEnable _ _ loc) r s

theorem touches_enters {i : Instr} {s u : State} {pc : Pc} {loc : Locals} (h : Enters i s pc loc u) :
    Touches i.index s u := by
  cases h with
  | accepted => exact touches_setCh i.index s _
  | running => exact Touches.same i.index s

theorem touches_execAt {i : Instr} {pc : Pc} {loc : Locals} {s t : State} (h : execAt i pc loc s = .next t) :
    Touches i.index s t := by
  obtain rfl | ⟨u, ⟨hu, rfl⟩ | ⟨r, hu, rfl⟩⟩ := execAt_cases h
  · exact touches_abortOp i.index _ _ s
  · exact (touches_sendStep hu).trans (touches_setCh i.index u _)
  · exact (touches_sendStep hu).trans (touches_finish _ i _ _ r u)

theorem touches_exec {i : Instr} {s t : State} (h : exec i s = .next t) : Touches i.index s t := by
  obtain hbusy | ⟨pc, loc, u, henter, hat⟩ := exec_enters i s
  · rw [hbusy] at h
    cases h
    exact touches_overlap i.index i.index s
  · exact (touches_enters henter).trans (touches_execAt (hat ▸ h))

/-- Settles O47: the frame of every operation. -/
theorem operationTouchesOnlyItsIndex : Obligations.OperationTouchesOnlyItsIndex := by
  intro i s t h
  obtain ⟨other, cfg, txOpen, now, inputs, refused, faulted, rxSlot, txLog, diag, delivered⟩ := touches_exec h
  exact ⟨other, cfg, txOpen, now, inputs, refused, faulted, rxSlot, txLog, diag, delivered⟩

/-! ### What a `Send`'s step leaves of its index (R28, R29) -/

/-- A `Send`'s step writes of its index the pending command and the dispatcher, and delivers nothing. -/
structure KeepsOperation (a : Index) (s u : State) : Prop where
  delivered : u.delivered = s.delivered
  seq : (u.ch a).seq = (s.ch a).seq
  isEnabled : (u.ch a).isEnabled = (s.ch a).isEnabled
  offset : (u.ch a).offset = (s.ch a).offset
  script : (u.ch a).script = (s.ch a).script

theorem KeepsOperation.trans {a : Index} {s t u : State} (h : KeepsOperation a s t) (k : KeepsOperation a t u) :
    KeepsOperation a s u :=
  ⟨k.delivered.trans h.delivered, k.seq.trans h.seq, k.isEnabled.trans h.isEnabled, k.offset.trans h.offset,
    k.script.trans h.script⟩

/-- What leaves the index whole and delivers nothing. -/
theorem keepsOperation_of_ch {a : Index} {s u : State} (hd : u.delivered = s.delivered) (hc : u.ch a = s.ch a) :
    KeepsOperation a s u :=
  ⟨hd, by rw [hc], by rw [hc], by rw [hc], by rw [hc]⟩

theorem keepsOperation_setDsp (a : Index) (d : Dsp) (s : State) : KeepsOperation a s (setDsp a d s) := by
  constructor <;> simp [setDsp]

theorem keepsOperation_setPending (a : Index) (p : Option Byte) (s : State) : KeepsOperation a s (setPending a p s) := by
  constructor <;> simp [setPending]

theorem keepsOperation_endTransaction (a : Index) (s : State) : KeepsOperation a s (endTransaction a s) :=
  (keepsOperation_setPending a none s).trans (keepsOperation_setDsp a .idle _)

theorem keepsOperation_poll (a : Index) (cmd : Byte) (timeout t : Nat) (s : State) :
    KeepsOperation a s (poll a cmd timeout t s).1 := by
  have hend := keepsOperation_endTransaction a s
  have htake (r : Frame) : KeepsOperation a s (takeMatch a r s).1 := by
    unfold takeMatch
    split <;> exact hend.trans (keepsOperation_of_ch rfl rfl)
  have hmiss : KeepsOperation a s (missPoll a cmd timeout t s).1 := by
    unfold missPoll
    split
    · exact hend.trans (keepsOperation_of_ch rfl rfl)
    · exact keepsOperation_setDsp a _ s
  unfold poll
  split
  · split
    · exact htake _
    · exact hmiss
  · exact hmiss

theorem keepsOperation_writeRequest (a : Index) (rq : Request) (s : State) : KeepsOperation a s (writeRequest a rq s) := by
  unfold writeRequest clearIfConfigured
  split <;> exact (keepsOperation_setPending a _ s).trans (keepsOperation_of_ch rfl rfl)

theorem keepsOperation_beginSend (a : Index) (rq : Request) (s : State) : KeepsOperation a s (beginSend a rq s).1 := by
  unfold beginSend
  split
  · split
    · exact (keepsOperation_writeRequest a rq s).trans (keepsOperation_poll a _ _ _ _)
    · exact (keepsOperation_writeRequest a rq s).trans (keepsOperation_setDsp a _ _)
  · exact keepsOperation_of_ch rfl rfl

theorem keepsOperation_sendStep {a : Index} {s : State} {x : State × Option SendResult} (h : SendStep a s x) :
    KeepsOperation a s x.1 := by
  obtain ⟨rq, h⟩ | h := h
  · unfold startSend at h
    split at h
    · cases h; exact keepsOperation_beginSend a rq s
    · cases h
  · unfold continueSend at h
    split at h
    · cases h
    · cases h
    · cases h; exact keepsOperation_poll a _ _ _ s
    · cases h; exact keepsOperation_setDsp a _ s
    · cases h; exact keepsOperation_poll a _ _ _ s

/-! ### What the pseudocode after a `Send` writes of its index (R28, R29) -/

theorem ch_faultOp_same (a : Index) (r : FaultReason) (s : State) :
    (faultOp a r s).ch a = { s.ch a with seq := .idle, script := [] } := by
  rw [faultOp, ch_endOp_same]; rfl

theorem ch_abortOp_same (a : Index) (k : DiagKind) (r : AbortReason) (s : State) :
    (abortOp a k r s).ch a = { s.ch a with seq := .idle, script := [] } := by
  rw [abortOp, ch_endOp_same]; rfl

/-- An action ends with what it writes on success, or its shadow and offset stay. -/
theorem finishAction_writes (a : Index) (onOk : State → State) (r : SendResult) (s : State) :
    finishAction a onOk r s = endOp a (.ok true) (onOk s)
    ∨ (((finishAction a onOk r s).ch a).offset = (s.ch a).offset
      ∧ ((finishAction a onOk r s).ch a).isEnabled = (s.ch a).isEnabled) := by
  unfold finishAction
  split
  · split
    · simp [ch_faultOp_same]
    · split
      · exact .inl rfl
      · simp [ch_endOp_same]
  · simp [ch_endOp_same]
  · simp [ch_endOp_same]

theorem finishRead_writes (a : Index) (len : Nat) (value : State → List Byte → Option Int) (r : SendResult) (s : State) :
    ((finishRead a len value r s).ch a).offset = (s.ch a).offset
    ∧ ((finishRead a len value r s).ch a).isEnabled = (s.ch a).isEnabled := by
  unfold finishRead
  split
  · split
    · simp [ch_faultOp_same]
    · split
      · simp [ch_faultOp_same]
      · simp [ch_endOp_same]
  · simp [ch_endOp_same]
  · simp [ch_endOp_same]

theorem finishAttempt_writes (a : Index) (loc : Locals) (r : SendResult) (s : State) :
    ((finishAttempt a loc r s).ch a).offset = (s.ch a).offset
    ∧ ((finishAttempt a loc r s).ch a).isEnabled = (s.ch a).isEnabled := by
  unfold finishAttempt
  split
  · split
    · simp [ch_faultOp_same]
    · dsimp only
      split
      · simp [setSeq]
      · simp [ch_faultOp_same]
  · split
    · simp [ch_abortOp_same]
    · simp [setSeq]
  · simp [ch_endOp_same]

/-- The two successes that write the shadow or the offset: a SET_ENABLE's and a return-to-zero's. -/
inductive Commits (leg : Leg) (i : Instr) (loc : Locals) (s t : State) : Prop
  | enable {a : Index} {e : Bool} (hleg : leg = .own) (hi : i = .setEnable a e)
      (ht : t = endOp i.index (.ok true) (commitEnable i.index e loc s))
  | goto {a : Index} (hi : i = .rtzGoto a) (ht : t = endOp i.index (.ok true) (setOffset i.index 0 s))

theorem finish_writes (leg : Leg) (i : Instr) (cfg : Config) (loc : Locals) (r : SendResult) (s : State) :
    Commits leg i loc s (leg.finish i cfg loc r s)
    ∨ (((leg.finish i cfg loc r s).ch i.index).offset = (s.ch i.index).offset
      ∧ ((leg.finish i cfg loc r s).ch i.index).isEnabled = (s.ch i.index).isEnabled) := by
  refine Leg.finish_induction (P := fun leg f => Commits leg i loc s (f r s)
    ∨ (((f r s).ch i.index).offset = (s.ch i.index).offset ∧ ((f r s).ch i.index).isEnabled = (s.ch i.index).isEnabled))
    (.inr (finishAttempt_writes _ loc r s)) (fun f hf => ?_) leg cfg
  cases hf with
  | position | plainRead => exact .inr (finishRead_writes _ _ _ r s)
  | plainAction =>
    refine .inr ((finishAction_writes i.index id r s).elim (fun h => ?_) id)
    rw [h, ch_endOp_same]
    exact ⟨rfl, rfl⟩
  | goto hi => exact (finishAction_writes _ _ r s).imp (.goto hi) id
  | enable hi => exact (finishAction_writes _ _ r s).imp (.enable rfl hi) id

/-- An operation's step that changes the shadow or the offset is a success that commits, after a `Send`'s step. -/
theorem exec_writes {i : Instr} {s t : State} (h : exec i s = .next t) :
    (∃ pc loc u v, Enters i s pc loc u ∧ KeepsOperation i.index u v
        ∧ Commits (legAt i pc (u.ch i.index)) i (localsAt i pc loc (legAt i pc (u.ch i.index))) v t ∧ v.cfg = s.cfg)
    ∨ ((t.ch i.index).offset = (s.ch i.index).offset ∧ (t.ch i.index).isEnabled = (s.ch i.index).isEnabled) := by
  obtain hbusy | ⟨pc, loc, u, henter, hat⟩ := exec_enters i s
  · rw [hbusy] at h
    cases h
    simp
  · have hu : (u.ch i.index).offset = (s.ch i.index).offset ∧ (u.ch i.index).isEnabled = (s.ch i.index).isEnabled := by
      cases henter with
      | accepted => simp [accept, setSeq]
      | running => exact ⟨rfl, rfl⟩
    rw [← hu.1, ← hu.2]
    obtain rfl | ⟨v, ⟨hv, rfl⟩ | ⟨r, hv, rfl⟩⟩ := execAt_cases (hat ▸ h)
    · simp [ch_abortOp_same]
    · have hk := keepsOperation_sendStep hv
      refine .inr ?_
      simp only [suspendAt, setSeq, ch_setCh_same]
      exact ⟨hk.offset, hk.isEnabled⟩
    · have hk := keepsOperation_sendStep hv
      have hcfg := ((touches_enters henter).trans (touches_sendStep hv)).cfg
      refine (finish_writes _ i u.cfg _ r v).imp (fun hc => ⟨pc, loc, u, v, henter, hk, hc, hcfg⟩) (fun hs => ?_)
      exact ⟨hs.1.trans hk.offset, hs.2.trans hk.isEnabled⟩

theorem delivered_endOp (a : Index) (o : OpOutcome) (s : State) :
    (endOp a o s).delivered = s.delivered ++ [deliveryOf a o s] := by
  rw [endOp_eq]

theorem delivered_enters {i : Instr} {s u : State} {pc : Pc} {loc : Locals} (h : Enters i s pc loc u) :
    u.delivered = s.delivered := by
  cases h <;> rfl

/-- A commit, whichever it is, delivers `Ok(true)` at the end of what was delivered before the step. -/
theorem delivered_commits {i : Instr} {leg : Leg} {loc : Locals} {u v t : State} (hk : KeepsOperation i.index u v)
    (hc : Commits leg i loc v t) : ∃ d : Delivery, t.delivered = u.delivered ++ [d] ∧ d.outcome = .ok true := by
  rw [← hk.delivered]
  cases hc with
  | enable hleg hi ht =>
    subst ht
    have hcommit {a : Index} {e : Bool} : (commitEnable a e loc v).delivered = v.delivered := by rw [commitEnable_eq]; rfl
    exact ⟨_, hcommit ▸ delivered_endOp _ _ _, rfl⟩
  | goto hi ht =>
    subst ht
    exact ⟨deliveryOf _ (.ok true) _, delivered_endOp _ _ _, rfl⟩

/-- An operation that enters its pseudocode with a raw position as a local runs, and in a consistent state is an enable. -/
theorem raw_of_enters {i : Instr} {s u : State} {pc : Pc} {loc : Locals} {raw : Int} (h : Enters i s pc loc u)
    (hraw : loc.raw = some raw) :
    (s.ch i.index).seq = .run i pc loc ∧ (Consistent s → i = .setEnable i.index true) := by
  cases h with
  | accepted => cases hraw
  | running hseq =>
    refine ⟨hseq, fun hs => ?_⟩
    have hok : seqOk s.cfg i.index (.run i pc loc) = true := by
      have := hs.2 i.index
      simp only [channelOk, Bool.and_eq_true, hseq] at this
      exact this.1.1.2
    cases pc with
    | start =>
      have : loc = {} := by simpa [seqOk] using hok
      rw [this] at hraw
      cases hraw
    | inSend => simpa [seqOk, hraw] using hok
    | readDue | inRead => simp [seqOk, hraw] at hok
    | enableDue => exact (by simpa [seqOk] using hok : _ ∧ _).1

/-- The locals with which an operation's own command is sent hold a raw position only if it entered with it. -/
theorem raw_of_localsAt_own {i : Instr} {pc : Pc} {loc : Locals} {raw : Int}
    (h : (localsAt i pc loc .own).raw = some raw) : loc.raw = some raw := by
  cases i with
  | setEnable a e =>
    cases pc with
    | start => cases h
    | _ => exact h
  | _ => exact h

/-- The index after a commit of SET_ENABLE. -/
theorem ch_commitEnable_end (a : Index) (e : Bool) (loc : Locals) (s : State) :
    ((endOp a (.ok true) (commitEnable a e loc s)).ch a).offset = (committed s.cfg e loc.raw (s.ch a)).offset
    ∧ ((endOp a (.ok true) (commitEnable a e loc s)).ch a).isEnabled = e := by
  rw [ch_endOp_same, commitEnable_eq, ch_setCh_same]
  exact ⟨rfl, by cases loc.raw <;> rfl⟩

/-- Settles O48: only a commit writes the offset, and a SET_ENABLE's commit writes it after a position read only. -/
theorem offsetChangesInTwoPlaces : Obligations.OffsetChangesInTwoPlaces := by
  intro i s t h hne
  obtain ⟨pc, loc, u, v, henter, hk, hc, hcfg⟩ | ⟨hsame, -⟩ := exec_writes h
  · have hoff : (v.ch i.index).offset = (s.ch i.index).offset := by
      rw [hk.offset]
      cases henter with
      | accepted => simp [accept, setSeq]
      | running => rfl
    refine ⟨delivered_enters henter ▸ delivered_commits hk hc, ?_⟩
    cases hc with
    | @enable a e hleg hi ht =>
      rw [hleg] at ht
      have hcommit := (ch_commitEnable_end i.index e (localsAt i pc loc .own) v).1
      rw [← ht] at hcommit
      cases hraw : (localsAt i pc loc .own).raw with
      | none => rw [hcommit, hraw] at hne; exact absurd hoff hne
      | some raw =>
        have hloc := raw_of_localsAt_own hraw
        obtain ⟨hseq, hen⟩ := raw_of_enters henter hloc
        refine .inl ⟨e, pc, loc, raw, by rw [hi]; rfl, fun hs => ?_, hseq, hloc, ?_⟩
        · exact (Instr.setEnable.inj (hi.symm.trans (hen hs))).2
        · rw [hcommit, hraw, committed, hoff, hcfg]
    | goto hi ht =>
      refine .inr ⟨by rw [hi]; rfl, ?_⟩
      rw [ht, ch_endOp_same]
      simp [setOffset]
  · exact absurd hsame hne

/-- Settles O49: only a commit of SET_ENABLE writes the shadow, and it writes its argument. -/
theorem onlySetEnableChangesShadow : Obligations.OnlySetEnableChangesShadow := by
  intro i s t h hne
  obtain ⟨pc, loc, u, v, henter, hk, hc, -⟩ | ⟨-, hsame⟩ := exec_writes h
  · refine ⟨?_, delivered_enters henter ▸ delivered_commits hk hc⟩
    cases hc with
    | @enable a e hleg hi ht =>
      rw [ht, (ch_commitEnable_end _ _ _ _).2, hi]
      rfl
    | goto hi ht =>
      have hv : (v.ch i.index).isEnabled = (s.ch i.index).isEnabled := by
        rw [hk.isEnabled]
        cases henter with
        | accepted => simp [accept, setSeq]
        | running => rfl
      rw [ht, ch_endOp_same] at hne
      exact absurd hv (by simpa [setOffset] using hne)
  · exact absurd hsame hne

/-! ### Two runs side by side (R138, R145, R63) -/

/-- What index `a` sees of the slot: a frame that it matches (R137, R138). -/
def seen (a : Index) (s : State) : Option Frame :=
  s.rxSlot.filter (fun f => matchesIndex s.cfg f a)

/-- Two states that an operation on index `a` cannot tell apart. -/
structure Same (a : Index) (s s' : State) : Prop where
  cfg : s'.cfg = s.cfg
  now : s'.now = s.now
  txOpen : s'.txOpen = s.txOpen
  ch : s'.ch a = s.ch a
  slot : seen a s' = seen a s

/-- What an operation's step on an index writes. -/
structure Patch where
  chan : Channel
  cleared : Bool
  tx : List Frame
  diag : List DiagEvent
  delivered : List Delivery
  faults : Bool

def Patch.apply (a : Index) (p : Patch) (s : State) : State :=
  { s with
    chans := s.chans.set a.val p.chan
    rxSlot := if p.cleared then none else s.rxSlot
    txLog := s.txLog ++ p.tx
    diag := s.diag ++ p.diag
    delivered := s.delivered ++ p.delivered
    faulted := s.faulted || p.faults }

/-- One patch leads from `s` to `t` and from `s'` to `t'`: it clears the slot where the index matches it, or before a write, and
it writes a request only if `writes` holds. -/
def Moves (a : Index) (writes : Prop) (s s' t t' : State) : Prop :=
  ∃ p : Patch, t = p.apply a s ∧ t' = p.apply a s'
    ∧ (p.cleared = true → slotMatches a s = true ∨ (p.tx ≠ [] ∧ s.cfg.clearBeforeSend = true)) ∧ (p.tx ≠ [] → writes)

theorem seen_eq_none {a : Index} {s : State} : seen a s = none ↔ slotMatches a s = false := by
  cases h : s.rxSlot <;> simp [seen, slotMatches, h]

theorem seen_eq_some {a : Index} {s : State} {r : Frame} (h : seen a s = some r) :
    s.rxSlot = some r ∧ matchesIndex s.cfg r a = true := by
  cases hs : s.rxSlot with
  | none => simp [seen, hs] at h
  | some f =>
    rw [seen, hs, Option.filter_some] at h
    split at h
    · cases h; exact ⟨rfl, ‹_›⟩
    · cases h

theorem Patch.seen_apply (a b : Index) (p : Patch) (s : State) :
    seen b (p.apply a s) = if p.cleared then none else seen b s := by
  cases h : p.cleared <;> simp [seen, Patch.apply, h]

/-- After the same patch the two states still cannot be told apart. -/
theorem Moves.same {a : Index} {w : Prop} {s s' t t' : State} (h : Same a s s') (m : Moves a w s s' t t') : Same a t t' := by
  obtain ⟨p, rfl, rfl, -, -⟩ := m
  exact ⟨h.cfg, h.now, h.txOpen, by simp [Patch.apply, State.ch], by rw [Patch.seen_apply, Patch.seen_apply, h.slot]⟩

/-- One patch after the other. -/
def Patch.next (p q : Patch) : Patch :=
  ⟨q.chan, p.cleared || q.cleared, p.tx ++ q.tx, p.diag ++ q.diag, p.delivered ++ q.delivered, p.faults || q.faults⟩

theorem Patch.apply_next (a : Index) (p q : Patch) (s : State) : (p.next q).apply a s = q.apply a (p.apply a s) := by
  cases hp : p.cleared <;> cases hq : q.cleared <;> simp [Patch.next, Patch.apply, hp, hq, Bool.or_assoc]

theorem Moves.trans {a : Index} {w : Prop} {s s' t t' u u' : State} (m : Moves a w s s' t t') (n : Moves a w t t' u u') :
    Moves a w s s' u u' := by
  obtain ⟨p, rfl, rfl, hpc, hpw⟩ := m
  obtain ⟨q, rfl, rfl, hqc, hqw⟩ := n
  refine ⟨p.next q, (p.apply_next a q s).symm, (p.apply_next a q s').symm, fun hc => ?_, fun htx => ?_⟩
  · have hc' : p.cleared = true ∨ (p.cleared = false ∧ q.cleared = true) := by
      cases hp : p.cleared <;> simp_all [Patch.next]
    obtain hp | ⟨hp, hq⟩ := hc'
    · exact (hpc hp).imp_right fun ⟨htx, hcl⟩ => ⟨by simp [Patch.next, htx], hcl⟩
    · refine (hqc hq).imp (fun hm => ?_) (fun ⟨htx, hcl⟩ => ⟨by simp [Patch.next, htx], hcl⟩)
      rw [← Bool.not_eq_false, ← seen_eq_none, Patch.seen_apply, hp] at hm
      rwa [← Bool.not_eq_false, ← seen_eq_none]
  · by_cases hp : p.tx = []
    · exact hqw fun hq => htx (by simp [Patch.next, hp, hq])
    · exact hpw hp

theorem moves_setCh {a : Index} (w : Prop) (s s' : State) (c : Channel) : Moves a w s s' (s.setCh a c) (s'.setCh a c) :=
  ⟨⟨c, false, [], [], [], false⟩, by simp [Patch.apply, State.setCh], by simp [Patch.apply, State.setCh],
    fun h => Bool.noConfusion h, fun h => absurd rfl h⟩

section

variable {a : Index} {w : Prop} {s s' : State}

theorem Same.moves_refl (h : Same a s s') : Moves a w s s' s s' := by
  have hm := moves_setCh (a := a) w s s' (s.ch a)
  rwa [setCh_ch, ← h.ch, setCh_ch] at hm

/-- A write of the index that depends on the index alone. -/
theorem Same.moves_edit (h : Same a s s') (f : Channel → Channel) :
    Moves a w s s' (s.setCh a (f (s.ch a))) (s'.setCh a (f (s'.ch a))) := by
  rw [h.ch]
  exact moves_setCh w s s' _

theorem Same.moves_setDsp (h : Same a s s') (d : Dsp) : Moves a w s s' (setDsp a d s) (setDsp a d s') :=
  h.moves_edit (fun c => { c with dsp := d })

theorem Same.moves_setSeq (h : Same a s s') (q : Seq) : Moves a w s s' (setSeq a q s) (setSeq a q s') :=
  h.moves_edit (fun c => { c with seq := q })

/-- The ends of the logs, the faulted mark, and a slot that is cleared where the index matches it. -/
theorem Same.moves_marks (h : Same a s s') (cleared : Bool) (hc : cleared = true → slotMatches a s = true)
    (diag : List DiagEvent) (delivered : List Delivery) (faults : Bool) :
    Moves a w s s'
      { s with
        rxSlot := if cleared then none else s.rxSlot
        diag := s.diag ++ diag, delivered := s.delivered ++ delivered, faulted := s.faulted || faults }
      { s' with
        rxSlot := if cleared then none else s'.rxSlot
        diag := s'.diag ++ diag, delivered := s'.delivered ++ delivered, faulted := s'.faulted || faults } := by
  refine ⟨⟨s.ch a, cleared, [], diag, delivered, faults⟩, ?_, ?_, fun hcl => .inl (hc hcl), fun htx => absurd rfl htx⟩
  · simp [Patch.apply, State.ch]
  · rw [← h.ch]; simp [Patch.apply, State.ch]

theorem Same.moves_logEvent (h : Same a s s') (b : Index) (k : DiagKind) :
    Moves a w s s' (logEvent b k s) (logEvent b k s') := by
  have hm := h.moves_marks (w := w) false (fun hc => Bool.noConfusion hc) [⟨s.now, b, k⟩] [] false
  simpa [logEvent, h.now] using hm

theorem Same.moves_deliver (h : Same a s s') (d : Delivery) :
    Moves a w s s' { s with delivered := s.delivered ++ [d] } { s' with delivered := s'.delivered ++ [d] } := by
  have hm := h.moves_marks (w := w) false (fun hc => Bool.noConfusion hc) [] [d] false
  simpa using hm

theorem Same.moves_deliverPort (h : Same a s s') (port : Int) (o : OpOutcome) :
    Moves a w s s' (deliverPort port o s) (deliverPort port o s') := by
  have hd : deliverPort port o s' = { s' with delivered := s'.delivered ++ [⟨s.now, port, o, true⟩] } := by
    rw [deliverPort, ← h.now]
  rw [hd]
  exact h.moves_deliver ⟨s.now, port, o, true⟩

theorem Same.moves_markFaulted (h : Same a s s') : Moves a w s s' { s with faulted := true } { s' with faulted := true } := by
  have hm := h.moves_marks (w := w) false (fun hc => Bool.noConfusion hc) [] [] true
  simpa using hm

theorem Same.moves_rxClear (h : Same a s s') (hm : slotMatches a s = true) : Moves a w s s' (rxClear s) (rxClear s') := by
  have hm := h.moves_marks (w := w) true (fun _ => hm) [] [] false
  simpa [rxClear] using hm

theorem Same.moves_endTransaction (h : Same a s s') : Moves a w s s' (endTransaction a s) (endTransaction a s') := by
  rw [endTransaction_eq, endTransaction_eq]
  exact h.moves_edit (fun c => { c with pending := none, dsp := .idle })

theorem slotMatches_endTransaction (a : Index) (s : State) : slotMatches a (endTransaction a s) = slotMatches a s := rfl

/-! ### A `Send`'s step in two runs -/

theorem Same.moves_missPoll (h : Same a s s') (cmd : Byte) (timeout t : Nat) :
    Moves a w s s' (missPoll a cmd timeout t s).1 (missPoll a cmd timeout t s').1
    ∧ (missPoll a cmd timeout t s').2 = (missPoll a cmd timeout t s).2 := by
  unfold missPoll
  split
  · have hend := h.moves_endTransaction (w := w)
    exact ⟨hend.trans ((hend.same h).moves_logEvent a _), rfl⟩
  · exact ⟨h.moves_setDsp _, rfl⟩

theorem Same.moves_takeMatch (h : Same a s s') (hm : slotMatches a s = true) (r : Frame) :
    Moves a w s s' (takeMatch a r s).1 (takeMatch a r s').1 ∧ (takeMatch a r s').2 = (takeMatch a r s).2 := by
  have hend := h.moves_endTransaction (w := w)
  have hclear := hend.trans ((hend.same h).moves_rxClear (slotMatches_endTransaction a s ▸ hm))
  unfold takeMatch
  split
  · exact ⟨hclear, rfl⟩
  · exact ⟨hclear.trans ((hclear.same h).moves_logEvent a _), rfl⟩

/-- A poll sees of the slot only a frame that its index matches. -/
theorem Same.moves_poll (h : Same a s s') (cmd : Byte) (timeout t : Nat) :
    Moves a w s s' (poll a cmd timeout t s).1 (poll a cmd timeout t s').1
    ∧ (poll a cmd timeout t s').2 = (poll a cmd timeout t s).2 := by
  cases hs : seen a s with
  | none =>
    rw [poll_miss (seen_eq_none.mp hs), poll_miss (seen_eq_none.mp (h.slot.trans hs))]
    exact h.moves_missPoll cmd timeout t
  | some r =>
    obtain ⟨hr, hm⟩ := seen_eq_some hs
    obtain ⟨hr', hm'⟩ := seen_eq_some (h.slot.trans hs)
    by_cases hd : pollDue s.cfg timeout t = true
    · rw [poll_match hd hr hm, poll_match (h.cfg ▸ hd) hr' hm']
      exact h.moves_takeMatch (by simp [slotMatches, hr, hm]) r
    · rw [Bool.not_eq_true] at hd
      rw [poll_notDue hd, poll_notDue (h.cfg ▸ hd)]
      exact h.moves_missPoll cmd timeout t

theorem Same.moves_writeRequest (h : Same a s s') (hw : w) (rq : Request) :
    Moves a w s s' (writeRequest a rq s) (writeRequest a rq s') := by
  refine ⟨⟨{ s.ch a with pending := some rq.cmd }, s.cfg.clearBeforeSend, [requestFrame s.cfg a rq.cmd rq.val], [], [], false⟩,
    ?_, ?_, fun hc => .inr ⟨by simp, hc⟩, fun _ => hw⟩
  · cases hc : s.cfg.clearBeforeSend <;>
      simp [writeRequest, clearIfConfigured, setPending, txWrite, rxClear, Patch.apply, State.setCh, hc]
  · rw [← h.cfg, ← h.ch]
    cases hc : s'.cfg.clearBeforeSend <;>
      simp [writeRequest, clearIfConfigured, setPending, txWrite, rxClear, Patch.apply, State.setCh, hc]

theorem Same.moves_beginSend (h : Same a s s') (hw : w) (rq : Request) :
    Moves a w s s' (beginSend a rq s).1 (beginSend a rq s').1 ∧ (beginSend a rq s').2 = (beginSend a rq s).2 := by
  have hwrite := h.moves_writeRequest hw rq
  unfold beginSend isOpen
  rw [h.txOpen, h.cfg]
  split
  · split
    · obtain ⟨hpoll, hres⟩ := (hwrite.same h).moves_poll (w := w) rq.cmd rq.timeout 0
      exact ⟨hwrite.trans hpoll, hres⟩
    · exact ⟨hwrite.trans ((hwrite.same h).moves_setDsp _), rfl⟩
  · exact ⟨h.moves_logEvent a _, rfl⟩

/-- A `Send`'s step that one run makes, the other makes with the same result. -/
def SendMoves (a : Index) (w : Prop) (s s' : State) (x x' : Option (State × Option SendResult)) : Prop :=
  ∀ u res, x = some (u, res) → ∃ u', x' = some (u', res) ∧ Moves a w s s' u u'

theorem sendMoves_of_pair {x x' : State × Option SendResult} (hm : Moves a w s s' x.1 x'.1) (hres : x'.2 = x.2) :
    SendMoves a w s s' (some x) (some x') := by
  rintro u res ⟨⟩
  obtain ⟨u', res'⟩ := x'
  cases hres
  exact ⟨u', rfl, hm⟩

theorem Same.moves_startSend (h : Same a s s') (hw : w) (rq : Request) :
    SendMoves a w s s' (startSend a rq s) (startSend a rq s') := by
  unfold startSend
  rw [h.ch]
  split
  · exact sendMoves_of_pair (h.moves_beginSend hw rq).1 (h.moves_beginSend hw rq).2
  · intro u res hu; cases hu

theorem Same.moves_continueSend (h : Same a s s') : SendMoves a w s s' (continueSend a s) (continueSend a s') := by
  unfold continueSend
  rw [h.ch]
  split
  · intro u res hu; cases hu
  · intro u res hu; cases hu
  · exact sendMoves_of_pair (h.moves_poll _ _ _).1 (h.moves_poll (w := w) _ _ _).2
  · exact sendMoves_of_pair (h.moves_setDsp _) rfl
  · exact sendMoves_of_pair (h.moves_poll _ _ _).1 (h.moves_poll (w := w) _ _ _).2

/-! ### The pseudocode after a `Send` in two runs -/

theorem Same.moves_endOp (h : Same a s s') (o : OpOutcome) : Moves a w s s' (endOp a o s) (endOp a o s') := by
  have hedit := h.moves_edit (w := w) (fun c => { c with seq := .idle, script := if o = .ok true then c.script else [] })
  have hdelivery : deliveryOf a o s' = deliveryOf a o s := by simp only [deliveryOf, h.ch, h.now]
  rw [endOp_eq, endOp_eq, hdelivery]
  exact hedit.trans ((hedit.same h).moves_deliver _)

theorem Same.moves_faultOp (h : Same a s s') (r : FaultReason) : Moves a w s s' (faultOp a r s) (faultOp a r s') :=
  h.moves_markFaulted.trans ((h.moves_markFaulted.same (w := w) h).moves_endOp _)

theorem Same.moves_abortOp (h : Same a s s') (k : DiagKind) (r : AbortReason) :
    Moves a w s s' (abortOp a k r s) (abortOp a k r s') :=
  (h.moves_logEvent a k).trans (((h.moves_logEvent a k).same (w := w) h).moves_endOp _)

theorem Same.moves_finishAction {onOk : State → State} (h : Same a s s') (hok : Moves a w s s' (onOk s) (onOk s'))
    (r : SendResult) : Moves a w s s' (finishAction a onOk r s) (finishAction a onOk r s') := by
  unfold finishAction
  split
  · split
    · exact h.moves_faultOp _
    · rw [h.cfg]
      split
      · exact hok.trans ((hok.same h).moves_endOp _)
      · exact h.moves_endOp _
  · exact h.moves_endOp _
  · exact h.moves_endOp _

theorem Same.moves_finishRead {value : State → List Byte → Option Int} (h : Same a s s')
    (hv : ∀ p, value s' p = value s p) (len : Nat) (r : SendResult) :
    Moves a w s s' (finishRead a len value r s) (finishRead a len value r s') := by
  unfold finishRead
  split
  · split
    · exact h.moves_faultOp _
    · rw [hv]
      split
      · exact h.moves_faultOp _
      · exact h.moves_endOp _
  · exact h.moves_endOp _
  · exact h.moves_endOp _

theorem Same.moves_finishAttempt (h : Same a s s') (loc : Locals) (r : SendResult) :
    Moves a w s s' (finishAttempt a loc r s) (finishAttempt a loc r s') := by
  unfold finishAttempt
  rw [h.cfg, h.ch]
  split
  · split
    · exact h.moves_faultOp _
    · dsimp only
      split
      · exact h.moves_setSeq _
      · exact h.moves_faultOp _
  · split
    · exact h.moves_abortOp _ _
    · exact h.moves_setSeq _
  · exact h.moves_endOp _

theorem Same.moves_commitEnable (h : Same a s s') (e : Bool) (loc : Locals) :
    Moves a w s s' (commitEnable a e loc s) (commitEnable a e loc s') := by
  rw [commitEnable_eq, commitEnable_eq, h.cfg]
  exact h.moves_edit _

end

theorem moves_finish {i : Instr} {w : Prop} {s s' : State} (h : Same i.index s s') (leg : Leg) (cfg : Config) (loc : Locals)
    (r : SendResult) : Moves i.index w s s' (leg.finish i cfg loc r s) (leg.finish i cfg loc r s') := by
  refine Leg.finish_induction (P := fun _ f => Moves i.index w s s' (f r s) (f r s')) (h.moves_finishAttempt loc r)
    (fun f hf => ?_) leg cfg
  cases hf with
  | position => exact h.moves_finishRead (fun p => by simp only [logicalPosition, h.cfg, h.ch]) _ r
  | plainRead => exact h.moves_finishRead (fun p => by simp only [plainValue, h.cfg]) _ r
  | plainAction => exact h.moves_finishAction h.moves_refl r
  | goto => exact h.moves_finishAction (h.moves_edit (fun c => { c with offset := 0 })) r
  | enable => exact h.moves_finishAction (h.moves_commitEnable _ loc) r

/-! ### An operation's step in two runs -/

theorem moves_afterSend {a : Index} {w : Prop} {s s' t : State} {x x' : Option (State × Option SendResult)}
    {suspend : State → State} {finish : SendResult → State → State} (h : Same a s s') (hx : SendMoves a w s s' x x')
    (hs : ∀ u u', Same a u u' → Moves a w u u' (suspend u) (suspend u'))
    (hf : ∀ r u u', Same a u u' → Moves a w u u' (finish r u) (finish r u'))
    (ht : afterSend x suspend finish = .next t) : ∃ t', afterSend x' suspend finish = .next t' ∧ Moves a w s s' t t' := by
  obtain ⟨u, ⟨hu, rfl⟩ | ⟨r, hu, rfl⟩⟩ := of_afterSend ht
  · obtain ⟨u', rfl, hm⟩ := hx _ _ hu
    exact ⟨_, rfl, hm.trans (hs _ _ (hm.same h))⟩
  · obtain ⟨u', rfl, hm⟩ := hx _ _ hu
    exact ⟨_, rfl, hm.trans (hf _ _ _ (hm.same h))⟩

/-- Inside its pseudocode an operation makes the same step in both runs, and writes a request only where it begins a `Send`. -/
theorem moves_execAt {i : Instr} {pc : Pc} {loc : Locals} {w : Prop} {s s' t : State} (h : Same i.index s s')
    (hw : begins i pc = true → w) (ht : execAt i pc loc s = .next t) :
    ∃ t', execAt i pc loc s' = .next t' ∧ Moves i.index w s s' t t' := by
  have hafter {x x' : Option (State × Option SendResult)} (hx : SendMoves i.index w s s' x x') {leg : Leg} {loc : Locals}
      (ht : afterSend x (suspendAt i leg.pc loc) (leg.finish i s.cfg loc) = .next t) :
      ∃ t', afterSend x' (suspendAt i leg.pc loc) (leg.finish i s.cfg loc) = .next t' ∧ Moves i.index w s s' t t' :=
    moves_afterSend h hx (fun _ _ hu => hu.moves_setSeq _) (fun r _ _ hu => moves_finish hu leg s.cfg loc r) ht
  simp only [execAt, h.cfg, h.ch] at ht ⊢
  split at ht
  · next hb =>
    rw [if_pos hb]
    split at ht
    · cases ht
      exact ⟨_, rfl, h.moves_abortOp _ _⟩
    · next rq _ => exact hafter (h.moves_startSend (hw hb) rq) ht
  · next hb =>
    rw [if_neg hb]
    exact hafter h.moves_continueSend ht

/-- An operation makes the same step in both runs. -/
theorem moves_exec {i : Instr} {s s' t : State} (h : Same i.index s s') (ht : exec i s = .next t) :
    ∃ t', exec i s' = .next t' ∧ Moves i.index True s s' t t' := by
  cases hseq : (s.ch i.index).seq with
  | idle =>
    have hm : Moves i.index True s s' (accept i s) (accept i s') := h.moves_setSeq _
    rw [exec_idle hseq] at ht
    obtain ⟨t', ht', hm'⟩ := moves_execAt (hm.same h) (fun _ => trivial) ht
    exact ⟨t', by rw [exec_idle (h.ch ▸ hseq), ht'], hm.trans hm'⟩
  | run j pc loc =>
    by_cases hj : j = i
    · subst hj
      rw [exec_run hseq] at ht
      obtain ⟨t', ht', hm⟩ := moves_execAt h (fun _ => trivial) ht
      exact ⟨t', by rw [exec_run (h.ch ▸ hseq), ht'], hm⟩
    · rw [exec_busy hseq hj] at ht
      cases ht
      refine ⟨_, exec_busy (h.ch ▸ hseq) hj, ?_⟩
      have hpolicy : s'.cfg.overlapPolicy = s.cfg.overlapPolicy := by rw [h.cfg]
      unfold overlap
      rw [hpolicy]
      split
      · exact h.moves_markFaulted.trans ((h.moves_markFaulted.same (w := True) h).moves_deliverPort _ _)
      · exact h.moves_deliverPort _ _

theorem Same.refl (a : Index) (s : State) : Same a s s := ⟨rfl, rfl, rfl, rfl, rfl⟩

/-- Settles O50: a patch clears a slot that the index does not match only with a write. -/
theorem otherFramesStayInSlot : Obligations.OtherFramesStayInSlot := by
  intro i s t h hm hclear
  obtain ⟨-, -, p, rfl, -, hc, -⟩ := moves_exec (Same.refl i.index s) h
  cases hp : p.cleared with
  | false => simp [Patch.apply, hp]
  | true =>
    obtain hmatch | ⟨htx, hcfg⟩ := hc hp
    · rw [hm] at hmatch; cases hmatch
    · obtain hlog | hno := hclear
      · exact absurd (by simpa [Patch.apply] using hlog) htx
      · rw [hno] at hcfg; cases hcfg

/-- Settles O52: the two slots look the same to the index, so the steps write the same. -/
theorem otherFramesDoNotShow : Obligations.OtherFramesDoNotShow := by
  intro i s x y t hx hy h
  have hsame : Same i.index { s with rxSlot := x } { s with rxSlot := y } :=
    ⟨rfl, rfl, rfl, rfl, by rw [seen_eq_none.mpr hx, seen_eq_none.mpr hy]⟩
  obtain ⟨t', ht', p, rfl, rfl, -, -⟩ := moves_exec hsame h
  exact ⟨_, ht'⟩

end Sys2Proof.Proofs.Locality
end

section
/-! PROOFS of the statements about the caller port (30_encoding.md R84, R86, 41_dispatcher.md R144, 44_rtz_calibrate.md R206) and
about the step (20_memory.md R63). -/

namespace Sys2Proof.Proofs.Ports

open Sys2Proof Sys2Proof.Machine Sys2Proof.Safety Sys2Proof.Proofs.Dispatcher Sys2Proof.Proofs.Operation

/-! ### Descriptors (R84, R86) -/

theorem argDirection_isSome (x : Arg) : (argDirection x).isSome = isDirection x := by
  cases x <;> rfl

theorem argApproach_isSome (x : Arg) : (argApproach x).isSome = (decide (x = .dir) || decide (x = .near)) := by
  cases x <;> rfl

theorem argEnable_isSome (x : Arg) : (argEnable x).isSome = (decide (x = .int 0) || decide (x = .int 1)) := by
  cases x with
  | int v =>
    by_cases h1 : v = 1
    · subst h1; rfl
    · by_cases h0 : v = 0
      · subst h0; rfl
      · simp [argEnable, h0, h1]
  | _ => rfl

/-- A row gives operations exactly for arguments of its types: none, one, two or three after the index. -/
theorem rowOps_isSome (r : Row) (args : List Arg) : (rowOps r args).isSome = argsTyped (.op r) args := by
  match args with
  | [] => cases r <;> rfl
  | [x] =>
    cases r with
    | setEnable => simp [rowOps, argsTyped, argEnable_isSome]
    | rtzMode => simp [rowOps, argsTyped, argApproach_isSome]
    | rtzDirection => simp [rowOps, argsTyped, argDirection_isSome]
    | rtzSpeed => cases x <;> rfl
    | _ => rfl
  | [x, y] =>
    cases r with
    | start => cases y <;> simp [rowOps, argsTyped, argDirection_isSome, isInt]
    | movePulses => cases y <;> rfl
    | rtzSpeed => cases x <;> rfl
    | _ => rfl
  | [x, y, z] =>
    cases r with
    | movePulses => cases y <;> cases z <;> simp [rowOps, argsTyped, argDirection_isSome, isInt]
    | start => cases y <;> rfl
    | rtzSpeed => cases x <;> rfl
    | _ => rfl
  | x :: y :: z :: _ :: _ =>
    cases r with
    | movePulses => cases y <;> cases z <;> rfl
    | start => cases y <;> rfl
    | rtzSpeed => cases x <;> rfl
    | _ => rfl

theorem nameOps_isSome (n : CallName) (args : List Arg) : (nameOps n args).isSome = argsTyped n args := by
  cases n with
  | op r => exact rowOps_isSome r args
  | enable | disable | configRtzNear => cases args <;> rfl
  | configRtzDir =>
    match args with
    | [] => rfl
    | [x] => cases x <;> rfl
    | [x, d] => cases x <;> simp [nameOps, argsTyped, argDirection_isSome, isInt]
    | x :: _ :: _ :: _ => cases x <;> rfl
  | unknown m => rfl

theorem readDescriptor_isSome (d : Descriptor) : (readDescriptor d).isSome = decodable d := by
  obtain ⟨name, args⟩ := d
  cases args with
  | nil => rfl
  | cons v args => cases v <;> simp [readDescriptor, decodable, nameOps_isSome, isInt]

theorem submit_undecodable {d : Descriptor} (h : decodable d = false) (s : State) : submit d s = markRefused s := by
  have hd : readDescriptor d = none := by
    rw [← Option.not_isSome_iff_eq_none, readDescriptor_isSome, h]
    exact Bool.false_ne_true
  rw [submit, hd]

/-- The operations of a decodable descriptor, which stand with its index as submitted. -/
theorem exists_ops {name : CallName} {v : Int} {args : List Arg} (h : decodable ⟨name, .int v :: args⟩ = true) :
    ∃ ops, readDescriptor ⟨name, .int v :: args⟩ = some (v, ops) := by
  rw [← readDescriptor_isSome] at h
  obtain ⟨⟨w, ops⟩, hd⟩ := Option.isSome_iff_exists.mp h
  obtain ⟨_, _, heq⟩ := Option.map_eq_some_iff.mp hd
  cases heq
  exact ⟨_, hd⟩

/-! ### The four ends of a submission (60_exceptions.md R223) -/

theorem submit_badAddress {d : Descriptor} {v : Int} {ops : Ops} {s : State} (hd : readDescriptor d = some (v, ops))
    (hv : indexOf s.cfg v = none) : submit d s = deliverPort v (.fault .badAddress) { s with faulted := true } := by
  simp only [submit, hd, hv]

theorem submit_idle {d : Descriptor} {a : Index} {ops : Ops} {s : State} (hd : readDescriptor d = some ((a.val : Int), ops))
    (ha : s.cfg.hasIndex a = true) (hseq : (s.ch a).seq = .idle) : submit d s = acceptOps a ops s := by
  simp only [submit, hd, indexOf_val ha, hseq, if_true]

theorem submit_busy {d : Descriptor} {a : Index} {ops : Ops} {s : State} (hd : readDescriptor d = some ((a.val : Int), ops))
    (ha : s.cfg.hasIndex a = true) (hseq : (s.ch a).seq ≠ .idle) : submit d s = overlap a s := by
  simp only [submit, hd, indexOf_val ha, hseq, if_false]

theorem refused_acceptOps (a : Index) (ops : Ops) (s : State) : (acceptOps a ops s).refused = s.refused := by
  cases ops <;> rfl

/-- A descriptor that is read leaves the refused mark. -/
theorem refused_submit {d : Descriptor} {v : Int} {ops : Ops} (h : readDescriptor d = some (v, ops)) (s : State) :
    (submit d s).refused = s.refused := by
  simp only [submit, h]
  split
  · rfl
  · next a _ =>
    split
    · exact refused_acceptOps _ _ s
    · exact (touches_overlap a a s).refused

/-- Settles O14: a descriptor is read exactly where its arguments have their types. -/
theorem undecodableDescriptorIsRefused : Obligations.UndecodableDescriptorIsRefused := by
  refine ⟨fun s d h => submit_undecodable h s, fun s d h => ?_, fun n args => ?_, fun a e h0 h1 => ?_, fun a m hd hn => ?_,
    fun r => rfl⟩
  · rw [← readDescriptor_isSome] at h
    obtain ⟨⟨v, ops⟩, hd⟩ := Option.isSome_iff_exists.mp h
    exact refused_submit hd s
  · cases args with
    | nil => rfl
    | cons v args => simp [decodable, argsTyped]
  · simp [decodable, argsTyped, h0, h1]
  · simp [decodable, argsTyped, hd, hn]

theorem indexOf_eq_none {cfg : Config} {v : Int} (h : v < 0 ∨ (cfg.nAddr : Int) ≤ v) : indexOf cfg v = none :=
  dif_neg (by omega)

/-- Settles O15: the index is looked up before anything of the state but the configuration. -/
theorem badAddressFaultsAtPort : Obligations.BadAddressFaultsAtPort := by
  intro s name v args hd hv
  obtain ⟨ops, hops⟩ := exists_ops hd
  rw [submit_badAddress hops (indexOf_eq_none hv)]
  rfl

/-! ### Acceptance and overlap (R144) -/

/-- The descriptor of an operation reads as that operation alone. -/
theorem readDescriptor_descriptorOf (i : Instr) :
    ∃ op : Index → Instr, readDescriptor (descriptorOf i) = some ((i.index.val : Int), [op]) ∧ op i.index = i := by
  cases i with
  | setEnable a e => cases e <;> exact ⟨_, rfl, rfl⟩
  | start a d speed => cases d <;> exact ⟨_, rfl, rfl⟩
  | movePulses a d speed pulses => cases d <;> exact ⟨_, rfl, rfl⟩
  | rtzMode a m => cases m <;> exact ⟨_, rfl, rfl⟩
  | rtzDirection a d => cases d <;> exact ⟨_, rfl, rfl⟩
  | _ => exact ⟨_, rfl, rfl⟩

/-- Acceptance in one record: the first operation at its start, the others left for the caller to issue. -/
theorem setSeq_setScript (a : Index) (q : Seq) (script : List Instr) (s : State) :
    setSeq a q (setScript a script s) = { s with chans := s.chans.set a.val { s.ch a with seq := q, script := script } } := by
  simp [setSeq, setScript, State.setCh, State.ch]

theorem acceptOps_cons {a : Index} {op : Index → Instr} (h : (op a).index = a) (rest : Ops) (s : State) :
    acceptOps a (op :: rest) s
      = { s with chans :=
            s.chans.set a.val { s.ch a with seq := .run (op a) .start {}, script := rest.map (fun f => f a) } } := by
  rw [acceptOps, accept, h, setSeq_setScript]

/-- Settles O16: the descriptor reads as the operation, which the idle port accepts. -/
theorem idlePortAcceptsOperation : Obligations.IdlePortAcceptsOperation := by
  intro s i ha hseq
  obtain ⟨op, hd, hop⟩ := readDescriptor_descriptorOf i
  rw [submit_idle hd ha hseq, acceptOps_cons (congrArg Instr.index hop), hop]
  rfl

theorem overlap_fault {s : State} (h : s.cfg.overlapPolicy = .fault) (a : Index) :
    overlap a s = { s with
      faulted := true, delivered := s.delivered ++ [⟨s.now, (a.val : Int), .fault .overlapSameAddress, true⟩] } := by
  rw [overlap, h]; rfl

theorem overlap_busy {s : State} (h : s.cfg.overlapPolicy = .busy) (a : Index) :
    overlap a s = { s with delivered := s.delivered ++ [⟨s.now, (a.val : Int), .busy, true⟩] } := by
  rw [overlap, h]; rfl

/-- Settles O17: the port of a running operation answers by the policy, and so does `exec` of another one. -/
theorem busyPortTurnsSubmissionAway : Obligations.BusyPortTurnsSubmissionAway := by
  intro s i j pc loc ha hseq
  obtain ⟨op, hd, -⟩ := readDescriptor_descriptorOf i
  have hbusy : submit (descriptorOf i) s = overlap i.index s := submit_busy hd ha (by rw [hseq]; nofun)
  rw [hbusy]
  exact ⟨fun h => overlap_fault h _, fun h => overlap_busy h _, exec_busy hseq⟩

theorem issueNext_idle {s : State} {a : Index} {i : Instr} {rest : List Instr} (hseq : (s.ch a).seq = .idle)
    (hscript : (s.ch a).script = i :: rest) :
    issueNext s a = setSeq a (.run i .start {}) (setScript a rest s) := by
  simp only [issueNext, hseq, hscript]

/-- Settles O18: the operations of each name, the first of them accepted. -/
theorem pseudoOperationsExpand : Obligations.PseudoOperationsExpand := by
  intro s a ha hseq accepted
  have hsubmit {d : Descriptor} {op : Index → Instr} {rest : Ops} (hd : readDescriptor d = some ((a.val : Int), op :: rest))
      (hop : (op a).index = a) : submit d s = accepted (op a) (rest.map (fun f => f a)) := by
    rw [submit_idle hd ha hseq, acceptOps_cons hop]
  refine ⟨hsubmit (op := fun a => .setEnable a true) (rest := []) rfl rfl,
    hsubmit (op := fun a => .setEnable a false) (rest := []) rfl rfl, fun speed d => ?_,
    hsubmit (op := fun a => .rtzMode a .near) (rest := []) rfl rfl, fun i rest hscript => ?_⟩
  · have hd : readDescriptor ⟨.configRtzDir, [.int a.val, .int speed, if d = .fwd then .fwd else .rev]⟩
        = some ((a.val : Int), [fun a => .rtzMode a .dir, fun a => .rtzSpeed a speed, fun a => .rtzDirection a d]) := by
      cases d <;> rfl
    exact hsubmit hd rfl
  · rw [issueNext_idle hseq hscript, setSeq_setScript]

/-! ### The frame of the callers and of the engine (R63) -/

/-- What the caller phase and the engine phase leave: the configuration, the link, the time and the coming inputs; they clear no
mark, leave or clear the slot, and only append to the logs. -/
structure Keeps (s t : State) : Prop where
  cfg : t.cfg = s.cfg
  txOpen : t.txOpen = s.txOpen
  now : t.now = s.now
  inputs : t.inputs = s.inputs
  faulted : s.faulted = true → t.faulted = true
  refused : s.refused = true → t.refused = true
  rxSlot : t.rxSlot = s.rxSlot ∨ t.rxSlot = none
  txLog : s.txLog <+: t.txLog
  diag : s.diag <+: t.diag
  delivered : s.delivered <+: t.delivered

theorem Keeps.same (s : State) : Keeps s s :=
  ⟨rfl, rfl, rfl, rfl, id, id, .inl rfl, List.prefix_rfl, List.prefix_rfl, List.prefix_rfl⟩

theorem Keeps.trans {s t u : State} (h : Keeps s t) (k : Keeps t u) : Keeps s u where
  cfg := k.cfg.trans h.cfg
  txOpen := k.txOpen.trans h.txOpen
  now := k.now.trans h.now
  inputs := k.inputs.trans h.inputs
  faulted := k.faulted ∘ h.faulted
  refused := k.refused ∘ h.refused
  rxSlot := k.rxSlot.elim (fun e => h.rxSlot.imp e.trans e.trans) .inr
  txLog := h.txLog.trans k.txLog
  diag := h.diag.trans k.diag
  delivered := h.delivered.trans k.delivered

theorem keeps_of_touches {a : Index} {s t : State} (h : Touches a s t) : Keeps s t where
  cfg := h.cfg
  txOpen := h.txOpen
  now := h.now
  inputs := h.inputs
  faulted := h.faulted
  refused := fun hr => h.refused.trans hr
  rxSlot := h.rxSlot
  txLog := h.txLog
  diag := h.diag
  delivered := h.delivered

theorem touches_acceptOps {a : Index} {ops : Ops} (h : ∀ op ∈ ops, (op a).index = a) (s : State) :
    Touches a s (acceptOps a ops s) := by
  cases ops with
  | nil => exact Touches.same a s
  | cons op rest =>
    rw [acceptOps, accept, h op List.mem_cons_self]
    exact (touches_setCh a s _).trans (touches_setCh a _ _)

/-- A submission touches the refused mark alone, or is at one port and touches no running index. -/
theorem submit_touches (d : Descriptor) (s : State) :
    submit d s = markRefused s
    ∨ ∃ a : Index, Touches a s (submit d s) ∧ ((s.ch a).seq ≠ .idle → (submit d s).ch a = s.ch a) := by
  obtain h | ⟨v, -, h⟩ | ⟨v, a, ops, hd, -, hseq, h⟩ | ⟨a, hseq, h⟩ := submit_cases d s
  · exact .inl h
  · rw [h]
    exact .inr ⟨0, (touches_markFaulted 0 s).trans (touches_deliver 0 _ _), fun _ => rfl⟩
  · rw [h]
    exact .inr ⟨a, touches_acceptOps (fun op ho => readDescriptor_index hd op ho a) s, fun hne => absurd hseq hne⟩
  · rw [h]
    exact .inr ⟨a, touches_overlap a a s, fun _ => ch_overlap a a s⟩

theorem keeps_submit (d : Descriptor) (s : State) : Keeps s (submit d s) := by
  obtain h | ⟨a, h, -⟩ := submit_touches d s
  · rw [h]
    exact { Keeps.same s with refused := fun _ => rfl }
  · exact keeps_of_touches h

/-- No submission reaches an index that runs. -/
theorem ch_submit {a : Index} {s : State} (h : (s.ch a).seq ≠ .idle) (d : Descriptor) : (submit d s).ch a = s.ch a := by
  obtain hr | ⟨b, ht, hsame⟩ := submit_touches d s
  · rw [hr]; rfl
  · by_cases hb : a = b
    · subst hb; exact hsame h
    · exact ht.other a hb

theorem touches_issueNext (s : State) (a : Index) : Touches a s (issueNext s a) := by
  obtain h | ⟨i, rest, -, -, h⟩ := issueNext_cases s a
  · rw [h]; exact Touches.same a s
  · rw [h]; exact (touches_setCh a s _).trans (touches_setCh a _ _)

theorem ch_issueNext {a : Index} {s : State} (h : (s.ch a).seq ≠ .idle) (b : Index) : (issueNext s b).ch a = s.ch a := by
  by_cases hb : a = b
  · subst hb
    obtain he | ⟨_, _, hseq, -, -⟩ := issueNext_cases s a
    · rw [he]
    · exact absurd hseq h
  · exact (touches_issueNext s b).other a hb

/-- What every single submission or issue keeps, a list of them keeps. -/
theorem foldl_keeps {α : Type} {f : State → α → State} {R : State → State → Prop} (hrefl : ∀ s, R s s)
    (htrans : ∀ s t u, R s t → R t u → R s u) (hf : ∀ s x, R s (f s x)) (xs : List α) (s : State) : R s (xs.foldl f s) := by
  induction xs generalizing s with
  | nil => exact hrefl s
  | cons x xs ih => exact htrans _ _ _ (hf s x) (ih (f s x))

/-- What every issue and every submission keeps, the caller phase keeps. -/
theorem callerPhase_keeps {R : State → State → Prop} (hrefl : ∀ s, R s s) (htrans : ∀ s t u, R s t → R t u → R s u)
    (hissue : ∀ s a, R s (issueNext s a)) (hsubmit : ∀ s d, R s (submit d s)) (inp : TickInput) (s : State) :
    R s (callerPhase inp s) :=
  htrans _ _ _ (foldl_keeps hrefl htrans hissue _ s) (foldl_keeps hrefl htrans hsubmit _ _)

theorem keeps_callerPhase (inp : TickInput) (s : State) : Keeps s (callerPhase inp s) :=
  callerPhase_keeps Keeps.same (fun _ _ _ => Keeps.trans) (fun s a => keeps_of_touches (touches_issueNext s a))
    (fun s d => keeps_submit d s) inp s

/-- The callers do not reach an index that runs. -/
theorem ch_callerPhase {a : Index} {s : State} (h : (s.ch a).seq ≠ .idle) (inp : TickInput) :
    (callerPhase inp s).ch a = s.ch a :=
  callerPhase_keeps (R := fun s t => (s.ch a).seq ≠ .idle → t.ch a = s.ch a) (fun _ _ => rfl)
    (fun s t u hst htu hs => by rw [htu (by rw [hst hs]; exact hs), hst hs]) (fun _ b hs => ch_issueNext hs b)
    (fun _ d hs => ch_submit hs d) inp s h

theorem keeps_indexStep {a : Index} {s t : State} (h : indexStep a s = .next t) : Keeps s t := by
  unfold indexStep at h
  split at h
  · cases h; exact Keeps.same s
  · exact keeps_of_touches (Locality.touches_exec h)

theorem keeps_enginePhase {order : List Index} {s t : State} (h : enginePhase order s = .next t) : Keeps s t := by
  induction order generalizing s with
  | nil => cases h; exact Keeps.same _
  | cons a order ih =>
    obtain ⟨u, hu, ht⟩ := enginePhase_cons h
    exact (keeps_indexStep hu).trans (ih ht)

/-- The state after the environment's phase: the draw used up, its link event and its frame taken (R63, 1). -/
def afterEnvironment (s : State) : State :=
  { s with
    inputs := s.inputs.drop 1
    txOpen := linkAfter (thisInput s).link s.txOpen
    rxSlot := slotAfter (thisInput s).rx s.rxSlot }

theorem beforeEngine_eq (s : State) : beforeEngine s = callerPhase (thisInput s) (afterEnvironment s) := rfl

/-- A step that answers a next state is the engine phase from the state before it, and `now + 1`. -/
theorem of_step {s t : State} (h : step s = .next t) :
    ∃ u, enginePhase (stepOrder s.cfg (thisInput s).order) (beforeEngine s) = .next u ∧ t = advanceNow u := by
  unfold step tick at h
  split at h
  · next u hu => cases h; exact ⟨u, hu, rfl⟩
  · cases h
  · cases h

theorem keeps_step {s t : State} (h : step s = .next t) : ∃ u, Keeps (afterEnvironment s) u ∧ t = advanceNow u := by
  obtain ⟨u, hu, rfl⟩ := of_step h
  exact ⟨u, (keeps_callerPhase (thisInput s) (afterEnvironment s)).trans (keeps_enginePhase hu), rfl⟩

/-- Settles O21: the environment's phase, then phases that keep the rest, then `now + 1`. -/
theorem stepAdvancesTimeAndKeepsMarks : Obligations.StepAdvancesTimeAndKeepsMarks := by
  intro s t h
  obtain ⟨u, hk, rfl⟩ := keeps_step h
  exact ⟨congrArg (· + 1) hk.now, hk.cfg, hk.txOpen, hk.inputs, hk.faulted, hk.refused⟩

/-- Settles O22: every phase only appends. -/
theorem stepOnlyAppendsToLogs : Obligations.StepOnlyAppendsToLogs := by
  intro s t h
  obtain ⟨u, hk, rfl⟩ := keeps_step h
  exact ⟨hk.txLog, hk.diag, hk.delivered⟩

/-! ### One operation in the engine phase (R63, R144) -/

theorem indexStep_idle {a : Index} {s : State} (h : (s.ch a).seq = .idle) : indexStep a s = .next s := by
  rw [indexStep, h]

theorem indexStep_run {a : Index} {s : State} {i : Instr} {pc : Pc} {loc : Locals} (h : (s.ch a).seq = .run i pc loc) :
    indexStep a s = exec i s := by
  rw [indexStep, h]

/-- Where nothing runs the engine phase does nothing. -/
theorem enginePhase_idle {order : List Index} {s : State} (h : ∀ a ∈ order, (s.ch a).seq = .idle) :
    enginePhase order s = .next s := by
  induction order with
  | nil => rfl
  | cons a order ih =>
    rw [enginePhase, indexStep_idle (h a List.mem_cons_self)]
    exact ih fun b hb => h b (List.mem_cons_of_mem a hb)

/-- Where one operation runs the engine phase is its step. -/
theorem enginePhase_one {i : Instr} {pc : Pc} {loc : Locals} {order : List Index} {s : State} (hnodup : order.Nodup)
    (hmem : i.index ∈ order) (hseq : (s.ch i.index).seq = .run i pc loc)
    (hidle : ∀ b : Index, b ≠ i.index → (s.ch b).seq = .idle) : enginePhase order s = exec i s := by
  induction order with
  | nil => cases hmem
  | cons a order ih =>
    obtain ⟨hnot, hnodup⟩ := List.nodup_cons.mp hnodup
    by_cases ha : a = i.index
    · rw [enginePhase, ha, indexStep_run hseq]
      cases hexec : exec i s with
      | next t =>
        refine enginePhase_idle fun b hb => ?_
        have hne : b ≠ i.index := fun h => hnot (by rwa [ha, ← h])
        rw [(Locality.touches_exec hexec).other b hne]
        exact hidle b hne
      | fault | refused => rfl
    · rw [enginePhase, indexStep_idle (hidle a ha)]
      exact ih hnodup ((List.mem_cons.mp hmem).resolve_left (Ne.symm ha))

/-- A caller with nothing left to issue issues nothing. -/
theorem issueNext_of_script_nil {s : State} {a : Index} (h : (s.ch a).seq ≠ .idle ∨ (s.ch a).script = []) :
    issueNext s a = s := by
  obtain he | ⟨i, rest, hseq, hscript, -⟩ := issueNext_cases s a
  · exact he
  · obtain hne | hnil := h
    · exact absurd hseq hne
    · rw [hscript] at hnil; cases hnil

theorem foldl_issueNext {s : State} (h : ∀ a : Index, (s.ch a).seq ≠ .idle ∨ (s.ch a).script = []) (as : List Index) :
    as.foldl issueNext s = s := by
  induction as with
  | nil => rfl
  | cons a as ih => rw [List.foldl_cons, issueNext_of_script_nil (h a), ih]

/-- Where no caller has anything to issue the caller phase is the tick's submissions. -/
theorem callerPhase_of_script_nil {s : State} (h : ∀ a : Index, (s.ch a).seq ≠ .idle ∨ (s.ch a).script = [])
    (inp : TickInput) : callerPhase inp s = inp.calls.foldl (fun s d => submit d s) s := by
  rw [callerPhase, foldl_issueNext h]

/-- The state the engine starts from where one operation is submitted, or one runs: that operation alone runs, and its step is
its step from the state after the environment's phase. -/
theorem exec_beforeEngine {s : State} {i : Instr} (ha : s.cfg.hasIndex i.index = true)
    (h : ((thisInput s).calls = [descriptorOf i] ∧ AllIdle s)
      ∨ ((thisInput s).calls = [] ∧ (∃ (pc : Pc) (loc : Locals), (s.ch i.index).seq = .run i pc loc)
          ∧ ∀ b : Index, b ≠ i.index → (s.ch b).seq = .idle ∧ (s.ch b).script = [])) :
    (∃ pc loc, ((beforeEngine s).ch i.index).seq = .run i pc loc)
    ∧ (∀ b : Index, b ≠ i.index → ((beforeEngine s).ch b).seq = .idle)
    ∧ exec i (beforeEngine s) = exec i (afterEnvironment s) := by
  have hch (b : Index) : (afterEnvironment s).ch b = s.ch b := rfl
  obtain ⟨hcalls, hidle⟩ | ⟨hcalls, ⟨pc, loc, hseq⟩, hothers⟩ := h
  · have hseq (b : Index) : (s.ch b).seq = .idle := by rw [hidle b]
    have hscript (b : Index) : (s.ch b).script = [] := by rw [hidle b]
    have hbefore : beforeEngine s = accept i (afterEnvironment s) := by
      rw [beforeEngine_eq, callerPhase_of_script_nil (s := afterEnvironment s) (fun b => .inr (hscript b)), hcalls,
        List.foldl_cons, List.foldl_nil,
        idlePortAcceptsOperation (afterEnvironment s) i ha (hseq i.index), accept, setSeq, State.setCh, hch,
        ← hscript i.index]
    have hrun : ((accept i (afterEnvironment s)).ch i.index).seq = .run i .start {} := by simp [accept, setSeq]
    refine ⟨⟨_, _, by rw [hbefore]; exact hrun⟩, fun b hb => ?_, ?_⟩
    · rw [hbefore, accept, setSeq, ch_setCh_ne _ _ hb]
      exact hseq b
    · rw [hbefore, exec_run hrun, exec_idle (s := afterEnvironment s) (hseq i.index)]
  · have hbefore : beforeEngine s = afterEnvironment s := by
      rw [beforeEngine_eq, callerPhase_of_script_nil ?_, hcalls, List.foldl_nil]
      intro b
      by_cases hb : b = i.index
      · rw [hb, hch, hseq]; exact .inl nofun
      · exact .inr (hothers b hb).2
    rw [hbefore]
    exact ⟨⟨pc, loc, hseq⟩, fun b hb => (hothers b hb).1, rfl⟩

/-- The last phase of a tick (R63, 4). -/
def thenAdvance (o : Host.Outcome State Fault Refusal) : Host.Outcome State Fault Refusal :=
  match o with
  | .next t => .next (advanceNow t)
  | .fault r => .fault r
  | .refused r => .refused r

theorem step_eq (s : State) :
    step s = thenAdvance (enginePhase (stepOrder s.cfg (thisInput s).order) (beforeEngine s)) := rfl

/-- Where one operation runs before the engine phase the step is its step. -/
theorem step_one {s : State} {i : Instr} (ha : s.cfg.hasIndex i.index = true)
    (h : ((thisInput s).calls = [descriptorOf i] ∧ AllIdle s)
      ∨ ((thisInput s).calls = [] ∧ (∃ (pc : Pc) (loc : Locals), (s.ch i.index).seq = .run i pc loc)
          ∧ ∀ b : Index, b ≠ i.index → (s.ch b).seq = .idle ∧ (s.ch b).script = [])) :
    step s = thenAdvance (exec i (afterEnvironment s)) := by
  obtain ⟨⟨pc, loc, hseq⟩, hidle, hexec⟩ := exec_beforeEngine ha h
  have hmem : i.index ∈ stepOrder s.cfg (thisInput s).order := (mem_stepOrder s.cfg _ _).mpr ha
  rw [step_eq, enginePhase_one (nodup_stepOrder s.cfg _) hmem hseq hidle, hexec]

/-- Settles O19: one operation runs before the engine phase, and that phase is its step. -/
theorem stepRunsSubmittedOperation : Obligations.StepRunsSubmittedOperation := by
  intro s inp rest i hinputs ha h
  have hinp : thisInput s = inp := by rw [thisInput, hinputs]
  have henv : afterEnvironment s = { s with
      inputs := rest, txOpen := linkAfter inp.link s.txOpen, rxSlot := slotAfter inp.rx s.rxSlot } := by
    rw [afterEnvironment, hinp, hinputs]; rfl
  exact (step_one ha (hinp.symm ▸ h)).trans (congrArg (fun u => thenAdvance (exec i u)) henv)

/-- Settles O20: the word's operation is the one submission, at a port that was free already. -/
theorem stepRunsTableWord : Obligations.StepRunsTableWord := by
  intro s nbits w i hw ha hidle hinputs
  have hfree : freePort i.index s = s := by rw [freePort, ← hidle i.index, setCh_ch]
  have hplaced : s.withFetchWord nbits w = placeCalls [descriptorOf i] s := by
    rw [State.withFetchWord, placeTableWord, hw]
    exact congrArg (placeCalls [descriptorOf i]) hfree
  have henv : afterEnvironment (placeCalls [descriptorOf i] s) = s := by
    have hinp : thisInput s = {} := by rw [thisInput, hinputs]
    rw [placeCalls, hinp, afterEnvironment, hinputs]
    exact congrArg (fun x => { s with inputs := x }) hinputs.symm
  rw [hplaced]
  exact (step_one (s := placeCalls [descriptorOf i] s) ha (.inl ⟨rfl, hidle⟩)).trans
    (congrArg (fun u => thenAdvance (exec i u)) henv)

end Sys2Proof.Proofs.Ports
end

section
/-! PROOFS of the statements about consistent states (41_dispatcher.md R147, 10_state.md R26, R27,
70_reset_and_hazards.md R262): the invariant, and the progress of every operation. -/

namespace Sys2Proof.Proofs.Invariant

open Sys2Proof Sys2Proof.Machine Sys2Proof.Safety Sys2Proof.Proofs.Codec Sys2Proof.Proofs.Dispatcher
open Sys2Proof.Proofs.Operation Sys2Proof.Proofs.Results Sys2Proof.Proofs.Requests Sys2Proof.Proofs.Locality
open Sys2Proof.Proofs.Ports

/-- Settles O55: after reset every index is as the reset value, which meets the invariant. -/
theorem resetIsConsistent : Obligations.ResetIsConsistent := by
  have hreset (cfg : Config) (h : 1 ≤ cfg.enableAttempts) : Consistent (State.resetWith cfg) :=
    ⟨h, fun a => by rw [ch_resetWith]; exact channelOk_reset cfg a⟩
  exact ⟨hreset Config.standard (by decide), hreset, fun s h => hreset s.cfg h⟩

/-! ### The invariant of one index, taken apart (R147) -/

theorem channelOk_iff (cfg : Config) (a : Index) (c : Channel) : channelOk cfg a c = true ↔
    c.pending = dspCommand c.dsp ∧ dspOk cfg (currentSend cfg c.seq) c.dsp = true ∧ seqOk cfg a c.seq = true
      ∧ (∀ i ∈ c.script, i.index = a) ∧ (cfg.hasIndex a = true ∨ c = Channel.reset) := by
  simp only [channelOk, Bool.and_eq_true, Bool.or_eq_true, decide_eq_true_eq, List.all_eq_true, and_assoc]

/-- An index that runs something is one of the build's. -/
theorem hasIndex_of_running {cfg : Config} {a : Index} {c : Channel} (h : channelOk cfg a c = true) (hseq : c.seq ≠ .idle) :
    cfg.hasIndex a = true := by
  obtain ⟨-, -, -, -, hindex⟩ := (channelOk_iff cfg a c).mp h
  exact hindex.resolve_right fun hc => hseq (by rw [hc]; rfl)

/-- An operation that runs on an index acts on it. -/
theorem index_of_seqOk {cfg : Config} {a : Index} {i : Instr} {pc : Pc} {loc : Locals}
    (h : seqOk cfg a (.run i pc loc) = true) : i.index = a := by
  cases pc <;> simp only [seqOk, Bool.and_eq_true, decide_eq_true_eq] at h
  case start | inSend => exact h.1
  case readDue | inRead => rw [h.1.1.1]; rfl
  case enableDue => rw [h.1]; rfl

/-- Outside a `Send` the dispatcher is idle. -/
theorem dsp_idle_of_no_send {cfg : Config} {d : Dsp} (h : dspOk cfg none d = true) : d = .idle := by
  cases d <;> simp [dspOk] at h ⊢

/-- An idle index waits in no dispatcher state. -/
theorem channelOk_idle {cfg : Config} {a : Index} {c : Channel} (ha : cfg.hasIndex a = true) (hpending : c.pending = none)
    (hdsp : c.dsp = .idle) (hseq : c.seq = .idle) (hscript : ∀ i ∈ c.script, i.index = a) : channelOk cfg a c = true :=
  (channelOk_iff cfg a c).mpr ⟨by rw [hpending, hdsp]; rfl, by rw [hdsp, hseq]; rfl, by rw [hseq]; rfl, hscript, .inl ha⟩

/-! ### What a `Send`'s step leaves of the dispatcher (R143) -/

/-- The ticks a configuration gives every `Send`: the write or the settle delay, and the polls 0 to `T` (R261). -/
def sendTicks (cfg : Config) : Nat :=
  cfg.settleTicks + longestTimeout cfg + 1

/-- The ticks left of a `Send` in a dispatcher state. -/
def dspTicks (cfg : Config) : Dsp → Nat
  | .idle => sendTicks cfg
  | .settle _ timeout rem => rem + timeout
  | .await _ timeout t => timeout - t + 1

/-- After a `Send`'s step it waits, with fewer than `n` ticks left, or it has ended with a result. -/
inductive SendLeaves (cfg : Config) (send : Byte × Nat) (n : Nat) (c c' : Channel) : Option SendResult → Prop
  | waits {d : Dsp} (hd : dspOk cfg (some send) d = true) (hn : dspTicks cfg d < n)
      (hc : c' = { c with pending := some send.1, dsp := d }) : SendLeaves cfg send n c c' none
  | ends {r : SendResult} (hc : c' = { c with pending := none, dsp := .idle }) : SendLeaves cfg send n c c' (some r)

theorem missPoll_leaves {a : Index} {cmd : Byte} {timeout t n : Nat} {s : State} (hp : (s.ch a).pending = some cmd)
    (hn : timeout - t + 1 ≤ n) :
    SendLeaves s.cfg (cmd, timeout) n (s.ch a) ((missPoll a cmd timeout t s).1.ch a) (missPoll a cmd timeout t s).2 := by
  unfold missPoll
  split
  · exact .ends (ch_endTransaction_same a s)
  · refine .waits (d := .await cmd timeout (t + 1)) (by simp [dspOk]; omega) (by simp [dspTicks]; omega) ?_
    simp [setDsp, ← hp]

theorem poll_leaves {a : Index} {cmd : Byte} {timeout t n : Nat} {s : State} (hp : (s.ch a).pending = some cmd)
    (hn : timeout - t + 1 ≤ n) :
    SendLeaves s.cfg (cmd, timeout) n (s.ch a) ((poll a cmd timeout t s).1.ch a) (poll a cmd timeout t s).2 := by
  have htake (r : Frame) :
      SendLeaves s.cfg (cmd, timeout) n (s.ch a) ((takeMatch a r s).1.ch a) (takeMatch a r s).2 := by
    unfold takeMatch
    split <;> exact .ends (ch_endTransaction_same a s)
  unfold poll
  split
  · split
    · exact htake _
    · exact missPoll_leaves hp hn
  · exact missPoll_leaves hp hn

theorem ch_writeRequest (a : Index) (rq : Request) (s : State) :
    (writeRequest a rq s).ch a = { s.ch a with pending := some rq.cmd } := by
  simp [writeRequest, setPending]

theorem SendLeaves.of_written {cfg : Config} {send : Byte × Nat} {n : Nat} {c c' : Channel} {r : Option SendResult}
    (h : SendLeaves cfg send n { c with pending := some send.1 } c' r) : SendLeaves cfg send n c c' r := by
  cases h with
  | waits hd hn hc => exact .waits hd hn hc
  | ends hc => exact .ends hc

/-- A `Send` that begins where the dispatcher is idle. -/
theorem beginSend_leaves {a : Index} {rq : Request} {s : State} (hp : (s.ch a).pending = none)
    (hdsp : (s.ch a).dsp = .idle) (ht : rq.timeout ≤ longestTimeout s.cfg) :
    SendLeaves s.cfg (rq.cmd, rq.timeout) (sendTicks s.cfg) (s.ch a) ((beginSend a rq s).1.ch a) (beginSend a rq s).2 := by
  have hcfg : (writeRequest a rq s).cfg = s.cfg := (touches_writeRequest a rq s).cfg
  have hch := ch_writeRequest a rq s
  unfold beginSend sendTicks
  split
  · split
    · have h := poll_leaves (a := a) (cmd := rq.cmd) (timeout := rq.timeout) (t := 0) (s := writeRequest a rq s)
        (n := s.cfg.settleTicks + longestTimeout s.cfg + 1) (by rw [hch]) (by omega)
      rw [hcfg, hch] at h
      exact SendLeaves.of_written (send := (rq.cmd, rq.timeout)) h
    · refine .waits (d := .settle rq.cmd rq.timeout s.cfg.settleTicks) (by simp [dspOk]; omega)
        (by simp only [dspTicks]; omega) ?_
      simp [setDsp, hch]
  · refine .ends ?_
    rw [ch_logEvent, ← hp, ← hdsp]

/-- A `Send` that goes on. -/
theorem continueSend_leaves {a : Index} {send : Byte × Nat} {s : State} (hp : (s.ch a).pending = dspCommand (s.ch a).dsp)
    (hd : dspOk s.cfg (some send) (s.ch a).dsp = true) :
    ∃ x, continueSend a s = some x
      ∧ SendLeaves s.cfg send (dspTicks s.cfg (s.ch a).dsp) (s.ch a) (x.1.ch a) x.2 := by
  cases hdsp : (s.ch a).dsp with
  | idle => rw [hdsp] at hd; cases hd
  | settle cmd timeout rem =>
    rw [hdsp] at hd hp
    simp only [dspOk, Bool.and_eq_true, decide_eq_true_eq, Option.some.injEq] at hd
    obtain ⟨⟨rfl, hrem⟩, hmax⟩ := hd
    match rem, hrem, hmax, hdsp with
    | 1, _, _, hdsp =>
      exact ⟨_, continueSend_lastSettle hdsp, poll_leaves hp (by simp only [dspTicks]; omega)⟩
    | rem + 2, _, hmax, hdsp =>
      refine ⟨_, continueSend_settle hdsp, .waits (d := .settle cmd timeout (rem + 1)) (by simp [dspOk]; omega)
        (by simp only [dspTicks]; omega) ?_⟩
      have hp' : (s.ch a).pending = some cmd := hp
      simp [setDsp, ← hp']
  | await cmd timeout t =>
    rw [hdsp] at hd hp
    simp only [dspOk, Bool.and_eq_true, decide_eq_true_eq, Option.some.injEq] at hd
    obtain ⟨rfl, -⟩ := hd
    exact ⟨_, continueSend_await hdsp, poll_leaves hp (by simp only [dspTicks]; omega)⟩

/-! ### What the pseudocode after a `Send` leaves of the sequencer (R144, R182) -/

/-- After the pseudocode of a `Send` the operation has ended, or an enable's command or its next read is due. -/
inductive FinishLeaves (cfg : Config) (leg : Leg) (a : Index) (loc : Locals) (c c' : Channel) : Prop
  | ended (hseq : c'.seq = .idle) (hpending : c'.pending = c.pending) (hdsp : c'.dsp = c.dsp)
      (hscript : ∀ i ∈ c'.script, i ∈ c.script)
  | captured (hleg : leg = .read) (raw : Int)
      (hc : c' = { c with seq := .run (.setEnable a true) .enableDue { loc with raw := some raw } })
  | retried (hleg : leg = .read) (hloc : loc.attempt ≠ cfg.enableAttempts)
      (hc : c' = { c with seq := .run (.setEnable a true) .readDue { loc with attempt := loc.attempt + 1 } })

section

variable {cfg : Config} {leg : Leg} {a : Index} {loc : Locals}

theorem endOp_leaves (o : OpOutcome) (s : State) : FinishLeaves cfg leg a loc (s.ch a) ((endOp a o s).ch a) := by
  rw [ch_endOp_same]
  refine .ended rfl rfl rfl fun i hi => ?_
  dsimp only at hi
  split at hi
  · exact hi
  · cases hi

theorem faultOp_leaves (r : FaultReason) (s : State) : FinishLeaves cfg leg a loc (s.ch a) ((faultOp a r s).ch a) :=
  endOp_leaves (.fault r) { s with faulted := true }

theorem abortOp_leaves (k : DiagKind) (r : AbortReason) (s : State) :
    FinishLeaves cfg leg a loc (s.ch a) ((abortOp a k r s).ch a) :=
  endOp_leaves (.abort r) (logEvent a k s)

theorem finishRead_leaves (len : Nat) (value : State → List Byte → Option Int) (r : SendResult) (s : State) :
    FinishLeaves cfg leg a loc (s.ch a) ((finishRead a len value r s).ch a) := by
  unfold finishRead
  split
  · split
    · exact faultOp_leaves _ s
    · split
      · exact faultOp_leaves _ s
      · exact endOp_leaves _ s
  · exact endOp_leaves _ s
  · exact endOp_leaves _ s

/-- An action's final step writes of its index the shadow or the offset only. -/
theorem finishAction_leaves {onOk : State → State} {s : State} (hpending : ((onOk s).ch a).pending = (s.ch a).pending)
    (hdsp : ((onOk s).ch a).dsp = (s.ch a).dsp) (hscript : ((onOk s).ch a).script = (s.ch a).script) (r : SendResult) :
    FinishLeaves cfg leg a loc (s.ch a) ((finishAction a onOk r s).ch a) := by
  unfold finishAction
  split
  · split
    · exact faultOp_leaves _ s
    · split
      · rw [ch_endOp_same]
        exact .ended rfl hpending hdsp fun i hi => by rwa [if_pos rfl, hscript] at hi
      · exact endOp_leaves _ s
  · exact endOp_leaves _ s
  · exact endOp_leaves _ s

theorem finishAttempt_leaves (r : SendResult) (s : State) :
    FinishLeaves s.cfg .read a loc (s.ch a) ((finishAttempt a loc r s).ch a) := by
  unfold finishAttempt
  split
  · split
    · exact faultOp_leaves _ s
    · next p _ =>
      dsimp only
      split
      · exact .captured rfl (rawOfPayload s.cfg p) (by simp [setSeq])
      · exact faultOp_leaves _ s
  · split
    · exact abortOp_leaves _ _ s
    · exact .retried rfl ‹_› (by simp [setSeq])
  · exact endOp_leaves _ s

end

theorem finish_leaves (leg : Leg) (i : Instr) (cfg : Config) (loc : Locals) (r : SendResult) (s : State) :
    FinishLeaves s.cfg leg i.index loc (s.ch i.index) ((leg.finish i cfg loc r s).ch i.index) := by
  refine Leg.finish_induction
    (P := fun leg f => FinishLeaves s.cfg leg i.index loc (s.ch i.index) ((f r s).ch i.index))
    (finishAttempt_leaves r s) (fun f hf => ?_) leg cfg
  cases hf with
  | position | plainRead => exact finishRead_leaves _ _ r s
  | plainAction => exact finishAction_leaves (onOk := id) rfl rfl rfl r
  | goto =>
    have hch : (setOffset i.index 0 s).ch i.index = { s.ch i.index with offset := 0 } := ch_setCh_same s _ _
    exact finishAction_leaves (by rw [hch]) (by rw [hch]) (by rw [hch]) r
  | @enable a e hi =>
    have hch : (commitEnable i.index e loc s).ch i.index = committed s.cfg e loc.raw (s.ch i.index) := by
      rw [commitEnable_eq, ch_setCh_same]
    exact finishAction_leaves (by rw [hch]; cases loc.raw <;> rfl) (by rw [hch]; cases loc.raw <;> rfl)
      (by rw [hch]; cases loc.raw <;> rfl) r

/-! ### The `Send` of a consistent index -/

theorem currentSend_leg (cfg : Config) (i : Instr) (leg : Leg) (loc : Locals) :
    currentSend cfg (.run i leg.pc loc) = some (leg.send i cfg) := by
  cases leg <;> rfl

/-- A request has the command and the timeout of its `Send`. -/
theorem send_of_request {i : Instr} {cfg : Config} {leg : Leg} {rq : Request} (h : leg.request i cfg = some rq) :
    (rq.cmd, rq.timeout) = leg.send i cfg := by
  cases leg with
  | read => cases h; rfl
  | own =>
    have hin : outOfRange cfg i = false := by
      by_contra hout
      rw [Bool.not_eq_false] at hout
      have hnone : Leg.own.request i cfg = none := (DriverMotion.ownRequest_of_outOfRange hout).2
      rw [hnone] at h
      cases h
    have hrq : Leg.own.request i cfg = _ := exists_ownRequest hin
    rw [hrq] at h
    cases h
    rfl

theorem timeout_le_longest (i : Instr) (cfg : Config) (leg : Leg) : (leg.send i cfg).2 ≤ longestTimeout cfg := by
  unfold longestTimeout
  cases leg with
  | read => simp only [Leg.send]; omega
  | own => cases i <;> simp only [Leg.send, Instr.row, rowTimeout] <;> omega

/-- The `Send`s that may follow the one an operation is at (R182): one for each read left, and the command. -/
def sendsAfter (cfg : Config) (loc : Locals) : Pc → Nat
  | .start => cfg.enableAttempts
  | .readDue | .inRead => cfg.enableAttempts - loc.attempt + 1
  | .inSend | .enableDue => 0

/-- More ticks than are left of an index's operation. -/
def ticksLeft (cfg : Config) (c : Channel) : Nat :=
  match c.seq with
  | .idle => 0
  | .run _ pc loc => dspTicks cfg c.dsp + sendsAfter cfg loc pc * sendTicks cfg

theorem ticksLeft_run {cfg : Config} {c : Channel} {i : Instr} {pc : Pc} {loc : Locals} (h : c.seq = .run i pc loc) :
    ticksLeft cfg c = dspTicks cfg c.dsp + sendsAfter cfg loc pc * sendTicks cfg := by
  rw [ticksLeft, h]

/-- Between two `Send`s all ticks of the next are left. -/
theorem ticksLeft_due (cfg : Config) (c : Channel) (i : Instr) (pc : Pc) (loc : Locals) :
    ticksLeft cfg { c with pending := none, dsp := .idle, seq := .run i pc loc }
      = sendTicks cfg + sendsAfter cfg loc pc * sendTicks cfg := rfl

/-- At its start an operation may stay suspended in the `Send` it begins, with the locals it begins with. -/
theorem seqOk_leg_start {cfg : Config} {i : Instr} (hatt : 1 ≤ cfg.enableAttempts) (c : Channel) :
    seqOk cfg i.index (.run i (legAt i .start c).pc (localsAt i .start {} (legAt i .start c))) = true
    ∧ sendsAfter cfg (localsAt i .start {} (legAt i .start c)) (legAt i .start c).pc ≤ cfg.enableAttempts := by
  cases i with
  | setEnable b e =>
    cases hread : e && !c.isEnabled with
    | true =>
      have hleg : legAt (.setEnable b e) .start c = .read := if_pos hread
      have he : e = true := ((Bool.and_eq_true _ _).mp hread).1
      rw [hleg]
      simp [localsAt, Leg.pc, seqOk, sendsAfter, Instr.index, he, hatt]
    | false =>
      have hleg : legAt (.setEnable b e) .start c = .own := if_neg (by rw [hread]; exact Bool.false_ne_true)
      rw [hleg]
      simp [localsAt, Leg.pc, seqOk, sendsAfter, Instr.index]
  | _ => exact ⟨by simp [legAt, localsAt, Leg.pc, seqOk], Nat.zero_le _⟩

/-- The `Send` of a consistent index: the operation may stay suspended in it, and no more `Send`s follow it than followed the
position it came from. -/
theorem seqOk_leg {cfg : Config} {a : Index} {i : Instr} {pc : Pc} {loc : Locals} (hatt : 1 ≤ cfg.enableAttempts)
    (h : seqOk cfg a (.run i pc loc) = true) (c : Channel) :
    seqOk cfg a (.run i (legAt i pc c).pc (localsAt i pc loc (legAt i pc c))) = true
    ∧ sendsAfter cfg (localsAt i pc loc (legAt i pc c)) (legAt i pc c).pc ≤ sendsAfter cfg loc pc := by
  have hindex := index_of_seqOk h
  cases pc with
  | start =>
    subst hindex
    obtain rfl : loc = {} := by simpa [seqOk] using h
    exact seqOk_leg_start hatt c
  | inSend =>
    have hleg : legAt i .inSend c = .own := by cases i <;> rfl
    have hloc : localsAt i .inSend loc .own = loc := by cases i <;> rfl
    rw [hleg, hloc]
    exact ⟨h, le_rfl⟩
  | readDue | inRead =>
    have hi : i = .setEnable a true := by simp only [seqOk, Bool.and_eq_true, decide_eq_true_eq] at h; exact h.1.1.1
    subst hi
    exact ⟨h, le_rfl⟩
  | enableDue =>
    have hi : i = .setEnable a true := by simp only [seqOk, Bool.and_eq_true, decide_eq_true_eq] at h; exact h.1
    subst hi
    exact ⟨by simp [legAt, localsAt, Leg.pc, seqOk, Instr.index], le_rfl⟩

/-- A consistent index goes on with a `Send` exactly where it is suspended in one, and begins one where its dispatcher is idle. -/
theorem dsp_of_channelOk {cfg : Config} {a : Index} {c : Channel} {i : Instr} {pc : Pc} {loc : Locals}
    (h : channelOk cfg a c = true) (hseq : c.seq = .run i pc loc) :
    if begins i pc then c.pending = none ∧ c.dsp = .idle
    else c.pending = dspCommand c.dsp ∧ dspOk cfg (some ((legAt i pc c).send i cfg)) c.dsp = true := by
  obtain ⟨hpending, hdsp, hok, -, -⟩ := (channelOk_iff cfg a c).mp h
  rw [hseq] at hdsp hok
  have hidle (hnone : currentSend cfg (.run i pc loc) = none) : c.pending = none ∧ c.dsp = .idle := by
    rw [hnone] at hdsp
    have hd := dsp_idle_of_no_send hdsp
    exact ⟨by rw [hpending, hd]; rfl, hd⟩
  cases pc with
  | start => rw [if_pos (by cases i <;> rfl)]; exact hidle rfl
  | inSend =>
    rw [if_neg (by cases i <;> simp [begins])]
    have hleg : legAt i .inSend c = .own := by cases i <;> rfl
    rw [hleg]
    exact ⟨hpending, hdsp⟩
  | readDue =>
    have hi : i = .setEnable a true := by simp only [seqOk, Bool.and_eq_true, decide_eq_true_eq] at hok; exact hok.1.1.1
    subst hi
    exact hidle rfl
  | inRead =>
    have hi : i = .setEnable a true := by simp only [seqOk, Bool.and_eq_true, decide_eq_true_eq] at hok; exact hok.1.1.1
    subst hi
    exact ⟨hpending, hdsp⟩
  | enableDue =>
    have hi : i = .setEnable a true := by simp only [seqOk, Bool.and_eq_true, decide_eq_true_eq] at hok; exact hok.1
    subst hi
    exact hidle rfl

/-! ### An operation's step from a consistent index -/

/-- What a step from channel `c` leaves: the invariant, and an idle sequencer or fewer ticks. -/
def Progresses (cfg : Config) (a : Index) (c c' : Channel) : Prop :=
  channelOk cfg a c' = true ∧ (c'.seq = .idle ∨ ticksLeft cfg c' < ticksLeft cfg c)

/-- The end of an operation is progress. -/
theorem progresses_ended {cfg : Config} {a : Index} {c c' : Channel} (hc : channelOk cfg a c = true)
    (ha : cfg.hasIndex a = true) (hseq : c'.seq = .idle) (hpending : c'.pending = none) (hdsp : c'.dsp = .idle)
    (hscript : ∀ i ∈ c'.script, i ∈ c.script) : Progresses cfg a c c' := by
  obtain ⟨-, -, -, hindex, -⟩ := (channelOk_iff cfg a c).mp hc
  exact ⟨channelOk_idle ha hpending hdsp hseq fun i hi => hindex i (hscript i hi), .inl hseq⟩

theorem dspTicks_pos (cfg : Config) {send : Option (Byte × Nat)} {d : Dsp} (h : dspOk cfg send d = true) :
    0 < dspTicks cfg d := by
  cases d with
  | idle => simp [dspTicks, sendTicks]
  | settle cmd timeout rem =>
    simp only [dspOk, Bool.and_eq_true, decide_eq_true_eq] at h
    simp only [dspTicks]
    omega
  | await => simp [dspTicks]

/-- A `Send` that goes on is progress: fewer ticks are left of it, and no more `Send`s follow. -/
theorem progresses_waits {cfg : Config} {a : Index} {c : Channel} {i : Instr} {pc : Pc} {loc : Locals} {d : Dsp}
    (hc : channelOk cfg a c = true) (ha : cfg.hasIndex a = true) (hatt : 1 ≤ cfg.enableAttempts)
    (hseq : c.seq = .run i pc loc) (hd : dspOk cfg (some ((legAt i pc c).send i cfg)) d = true)
    (hn : dspTicks cfg d < dspTicks cfg c.dsp) :
    Progresses cfg a c { c with
      pending := some ((legAt i pc c).send i cfg).1, dsp := d,
      seq := .run i (legAt i pc c).pc (localsAt i pc loc (legAt i pc c)) } := by
  obtain ⟨-, -, hok, hscript, -⟩ := (channelOk_iff cfg a c).mp hc
  rw [hseq] at hok
  obtain ⟨hleg, hsends⟩ := seqOk_leg hatt hok c
  refine ⟨(channelOk_iff cfg a _).mpr ⟨?_, ?_, hleg, hscript, .inl ha⟩, .inr ?_⟩
  · cases d <;> simp [dspOk] at hd <;> simp [dspCommand, hd.1]
  · rw [currentSend_leg]; exact hd
  · simp only [ticksLeft, hseq]
    exact Nat.add_lt_add_of_lt_of_le hn (Nat.mul_le_mul_right _ hsends)

/-- What follows the end of a `Send` is progress: one `Send` fewer follows a position read. -/
theorem progresses_finish {cfg : Config} {a : Index} {c c' : Channel} {i : Instr} {pc : Pc} {loc : Locals}
    (hc : channelOk cfg a c = true) (ha : cfg.hasIndex a = true) (hatt : 1 ≤ cfg.enableAttempts)
    (hseq : c.seq = .run i pc loc)
    (hfin : FinishLeaves cfg (legAt i pc c) a (localsAt i pc loc (legAt i pc c)) { c with pending := none, dsp := .idle } c') :
    Progresses cfg a c c' := by
  obtain ⟨-, hdsp, hok, hscript, -⟩ := (channelOk_iff cfg a c).mp hc
  have hpos := dspTicks_pos cfg hdsp
  rw [hseq] at hok
  obtain ⟨hleg, hsends⟩ := seqOk_leg hatt hok c
  generalize localsAt i pc loc (legAt i pc c) = loc' at hleg hsends hfin
  have hread (h : legAt i pc c = .read) : loc'.raw = none ∧ 1 ≤ loc'.attempt ∧ loc'.attempt ≤ cfg.enableAttempts
      ∧ (cfg.enableAttempts - loc'.attempt + 1) * sendTicks cfg ≤ sendsAfter cfg loc pc * sendTicks cfg := by
    rw [h] at hleg hsends
    simp only [Leg.pc, seqOk, Bool.and_eq_true, decide_eq_true_eq, Option.isNone_iff_eq_none] at hleg
    exact ⟨hleg.1.1.2, hleg.1.2, hleg.2, Nat.mul_le_mul_right _ hsends⟩
  cases hfin with
  | ended hseq' hpending' hdsp' hscript' => exact progresses_ended hc ha hseq' hpending' hdsp' hscript'
  | captured h raw hc' =>
    obtain ⟨-, -, -, hle⟩ := hread h
    subst hc'
    refine ⟨(channelOk_iff cfg a _).mpr ⟨rfl, rfl, by simp [seqOk], hscript, .inl ha⟩, .inr ?_⟩
    refine lt_of_eq_of_lt (ticksLeft_due cfg c _ _ _) ?_
    rw [Nat.succ_mul] at hle
    rw [ticksLeft_run hseq, sendsAfter, Nat.zero_mul]
    omega
  | retried h hne hc' =>
    obtain ⟨hraw, hlo, hhi, hle⟩ := hread h
    subst hc'
    refine ⟨(channelOk_iff cfg a _).mpr ⟨rfl, rfl, ?_, hscript, .inl ha⟩, .inr ?_⟩
    · simp only [seqOk, Bool.and_eq_true, decide_eq_true_eq, Option.isNone_iff_eq_none, hraw, true_and]
      omega
    · have hsucc : cfg.enableAttempts - loc'.attempt = cfg.enableAttempts - (loc'.attempt + 1) + 1 := by omega
      refine lt_of_eq_of_lt (ticksLeft_due cfg c _ _ _) ?_
      rw [hsucc, Nat.succ_mul] at hle
      rw [ticksLeft_run hseq, sendsAfter]
      dsimp only
      omega

/-- What follows a `Send`'s step is progress, whether the operation is suspended in it or it has ended. -/
theorem afterSend_progresses {i : Instr} {s : State} {pc : Pc} {loc : Locals} {leg : Leg} {x : State × Option SendResult}
    (hatt : 1 ≤ s.cfg.enableAttempts) (hc : channelOk s.cfg i.index (s.ch i.index) = true)
    (hseq : (s.ch i.index).seq = .run i pc loc) (hleg : legAt i pc (s.ch i.index) = leg)
    (hx : SendLeaves s.cfg (leg.send i s.cfg) (dspTicks s.cfg (s.ch i.index).dsp) (s.ch i.index) (x.1.ch i.index) x.2)
    (hcfg : x.1.cfg = s.cfg) :
    ∃ t, afterSend (some x) (suspendAt i leg.pc (localsAt i pc loc leg)) (leg.finish i s.cfg (localsAt i pc loc leg)) = .next t
      ∧ Progresses s.cfg i.index (s.ch i.index) (t.ch i.index) := by
  have ha : s.cfg.hasIndex i.index = true := hasIndex_of_running hc (by rw [hseq]; nofun)
  obtain ⟨u, res⟩ := x
  dsimp only at hx hcfg
  subst hleg
  cases hx with
  | waits hd hn hch =>
    refine ⟨_, rfl, ?_⟩
    rw [suspendAt, setSeq, ch_setCh_same, hch]
    exact progresses_waits hc ha hatt hseq hd hn
  | @ends r hch =>
    refine ⟨_, rfl, ?_⟩
    have hfin := finish_leaves (legAt i pc (s.ch i.index)) i s.cfg (localsAt i pc loc (legAt i pc (s.ch i.index))) r u
    rw [hcfg, hch] at hfin
    exact progresses_finish hc ha hatt hseq hfin

/-- From a consistent index an operation's step answers a next state, keeps the invariant, and ends the operation or leaves it
fewer ticks. -/
theorem exec_progresses {i : Instr} {s : State} {pc : Pc} {loc : Locals} (hatt : 1 ≤ s.cfg.enableAttempts)
    (hc : channelOk s.cfg i.index (s.ch i.index) = true) (hseq : (s.ch i.index).seq = .run i pc loc) :
    ∃ t, exec i s = .next t ∧ Progresses s.cfg i.index (s.ch i.index) (t.ch i.index) := by
  have hdsp := dsp_of_channelOk hc hseq
  rw [exec_run hseq]
  simp only [execAt]
  cases hb : begins i pc with
  | true =>
    rw [hb, if_pos rfl] at hdsp
    obtain ⟨hpending, hidle⟩ := hdsp
    rw [if_pos rfl]
    split
    · refine ⟨_, rfl, ?_⟩
      rw [ch_abortOp_same]
      exact progresses_ended hc (hasIndex_of_running hc (by rw [hseq]; nofun)) rfl hpending hidle
        fun _ hi => absurd hi List.not_mem_nil
    · next rq hrq =>
      have hsend := send_of_request hrq
      have htimeout := timeout_le_longest i s.cfg (legAt i pc (s.ch i.index))
      rw [startSend_idle hidle]
      refine afterSend_progresses hatt hc hseq rfl ?_ (touches_beginSend i.index rq s).cfg
      rw [← hsend] at htimeout ⊢
      rw [hidle]
      exact beginSend_leaves hpending hidle htimeout
  | false =>
    rw [hb, if_neg Bool.false_ne_true] at hdsp
    obtain ⟨x, hx, hleaves⟩ := continueSend_leaves hdsp.1 hdsp.2
    rw [if_neg Bool.false_ne_true, hx]
    exact afterSend_progresses hatt hc hseq rfl hleaves (touches_continueSend hx).cfg

/-! ### The engine phase from a consistent state (R63) -/

/-- A consistent state stays so where a step on one index keeps that index's invariant. -/
theorem consistent_of_touches {a : Index} {s t : State} (hs : Consistent s) (h : Touches a s t)
    (ha : channelOk s.cfg a (t.ch a) = true) : Consistent t := by
  refine ⟨by rw [h.cfg]; exact hs.1, fun b => ?_⟩
  rw [h.cfg]
  by_cases hb : b = a
  · subst hb; exact ha
  · rw [h.other b hb]; exact hs.2 b

/-- The step of an index in a consistent state. -/
structure Stepped (a : Index) (s t : State) : Prop where
  step : indexStep a s = .next t
  touches : Touches a s t
  consistent : Consistent t
  progress : (s.ch a).seq ≠ .idle → (t.ch a).seq = .idle ∨ ticksLeft s.cfg (t.ch a) < ticksLeft s.cfg (s.ch a)

theorem exists_stepped {s : State} (hs : Consistent s) (a : Index) : ∃ t, Stepped a s t := by
  cases hseq : (s.ch a).seq with
  | idle => exact ⟨s, indexStep_idle hseq, Touches.same a s, hs, fun hne => absurd hseq hne⟩
  | run i pc loc =>
    obtain ⟨-, -, hok, -, -⟩ := (channelOk_iff s.cfg a (s.ch a)).mp (hs.2 a)
    obtain rfl : i.index = a := index_of_seqOk (hseq ▸ hok)
    obtain ⟨t, hexec, hch, hprog⟩ := exec_progresses hs.1 (hs.2 _) hseq
    have htouches := touches_exec hexec
    exact ⟨t, (indexStep_run hseq).trans hexec, htouches, consistent_of_touches hs htouches hch, fun _ => hprog⟩

/-- From a consistent state the engine phase answers a consistent state, with every index that is not stepped as it was. -/
theorem exists_enginePhase {s : State} (hs : Consistent s) (order : List Index) :
    ∃ t, enginePhase order s = .next t ∧ Consistent t ∧ ∀ a ∉ order, t.ch a = s.ch a := by
  induction order generalizing s with
  | nil => exact ⟨s, rfl, hs, fun _ _ => rfl⟩
  | cons b order ih =>
    obtain ⟨u, hu⟩ := exists_stepped hs b
    obtain ⟨t, ht, hcons, hch⟩ := ih hu.consistent
    refine ⟨t, by rw [enginePhase, hu.step]; exact ht, hcons, fun a ha => ?_⟩
    obtain ⟨hne, hnot⟩ := not_or.mp (List.mem_cons.not.mp ha)
    exact (hch a hnot).trans (hu.touches.other a hne)

/-! ### The callers from a consistent state (R63) -/

/-- Acceptance keeps the invariant: the operation is at its start, and what is left to issue is the index's. -/
theorem consistent_accepted {s : State} {a : Index} (hs : Consistent s) (ha : s.cfg.hasIndex a = true)
    (hseq : (s.ch a).seq = .idle) {i : Instr} (hi : i.index = a) {script : List Instr} (hscript : ∀ j ∈ script, j.index = a) :
    Consistent (setSeq a (.run i .start {}) (setScript a script s)) := by
  obtain ⟨hpending, hdsp, -, -, -⟩ := (channelOk_iff s.cfg a (s.ch a)).mp (hs.2 a)
  rw [hseq] at hdsp
  have heq : setSeq a (.run i .start {}) (setScript a script s)
      = s.setCh a { s.ch a with seq := .run i .start {}, script := script } := by
    simp [setSeq, setScript]
  rw [heq]
  exact consistent_setCh hs ((channelOk_iff s.cfg a _).mpr ⟨hpending, hdsp, by simp [seqOk, hi], hscript, .inl ha⟩)

theorem consistent_submit {s : State} (hs : Consistent s) (d : Descriptor) : Consistent (submit d s) := by
  obtain h | ⟨v, -, h⟩ | ⟨v, a, ops, hd, hv, hseq, h⟩ | ⟨a, -, h⟩ := submit_cases d s
  · rw [h]; exact hs
  · rw [h]; exact hs
  · rw [h]
    have hindex := readDescriptor_index hd
    cases ops with
    | nil => exact hs
    | cons op rest =>
      rw [acceptOps, accept, hindex op List.mem_cons_self a]
      refine consistent_accepted hs (indexOf_hasIndex hv).1 hseq (hindex op List.mem_cons_self a) fun j hj => ?_
      obtain ⟨f, hf, rfl⟩ := List.mem_map.mp hj
      exact hindex f (List.mem_cons_of_mem op hf) a
  · rw [h]
    exact consistent_of_touches hs (touches_overlap a a s) (by rw [ch_overlap]; exact hs.2 a)

theorem consistent_issueNext {s : State} (hs : Consistent s) (a : Index) : Consistent (issueNext s a) := by
  obtain h | ⟨i, rest, hseq, hscript, h⟩ := issueNext_cases s a
  · rw [h]; exact hs
  · rw [h]
    obtain ⟨-, -, -, hindex, hbuild⟩ := (channelOk_iff s.cfg a (s.ch a)).mp (hs.2 a)
    rw [hscript] at hindex
    have ha : s.cfg.hasIndex a = true := hbuild.resolve_right fun hc => by rw [hc] at hscript; cases hscript
    exact consistent_accepted hs ha hseq (hindex i List.mem_cons_self) fun j hj => hindex j (List.mem_cons_of_mem i hj)

theorem consistent_beforeEngine {s : State} (hs : Consistent s) : Consistent (beforeEngine s) := by
  rw [beforeEngine_eq]
  exact callerPhase_keeps (R := fun s t => Consistent s → Consistent t) (fun _ h => h) (fun _ _ _ h k hs => k (h hs))
    (fun _ a hs => consistent_issueNext hs a) (fun _ d hs => consistent_submit hs d) (thisInput s) (afterEnvironment s) hs

/-- From a consistent state the step answers a consistent state. -/
theorem exists_step {s : State} (hs : Consistent s) : ∃ t, step s = .next t ∧ Consistent t := by
  obtain ⟨t, ht, hcons, -⟩ := exists_enginePhase (consistent_beforeEngine hs) (stepOrder s.cfg (thisInput s).order)
  exact ⟨advanceNow t, by rw [step_eq, ht]; rfl, hcons⟩

/-- Settles O56: no phase of a tick stops in a consistent state. -/
theorem consistentStateNeverStops : Obligations.ConsistentStateNeverStops := by
  intro s hs
  obtain ⟨t, ht, -⟩ := exists_step hs
  exact ⟨t, ht⟩

/-- Settles O54: every phase of a tick keeps the invariant. -/
theorem stepKeepsConsistent : Obligations.StepKeepsConsistent := by
  intro s t hs ht
  obtain ⟨u, hu, hcons⟩ := exists_step hs
  rw [ht] at hu
  cases hu
  exact hcons

end Sys2Proof.Proofs.Invariant
end

section
/-! PROOFS of the statements about runs (41_dispatcher.md R147.3, 70_reset_and_hazards.md R261, R262): the bounded end of every
operation and the exact tick of a timeout, whatever the other indices and the callers do. -/

namespace Sys2Proof.Proofs.Runs

open Sys2Proof Sys2Proof.Machine Sys2Proof.Safety Sys2Proof.Proofs.Dispatcher Sys2Proof.Proofs.Operation
open Sys2Proof.Proofs.Results Sys2Proof.Proofs.Ports Sys2Proof.Proofs.Invariant

/-! ### A tick as one index sees it (R63) -/

/-- Before state `u` the tick from `s` has not reached the running index `a`, its step leads to `v`, and what follows before
`now + 1` leaves the index. -/
structure TickAt (a : Index) (s u v t : State) : Prop where
  before : Keeps (afterEnvironment s) u
  ch_before : u.ch a = s.ch a
  stepped : Stepped a u v
  after : Keeps v t
  ch_after : t.ch a = v.ch a

theorem enginePhase_append {order : List Index} {s t : State} (h : enginePhase order s = .next t) (rest : List Index) :
    enginePhase (order ++ rest) s = enginePhase rest t := by
  induction order generalizing s with
  | nil => cases h; rfl
  | cons a order ih =>
    obtain ⟨u, hu, ht⟩ := enginePhase_cons h
    rw [List.cons_append, enginePhase, hu]
    exact ih ht

/-- The step of a consistent state with a running index. -/
theorem exists_tickAt {a : Index} {s : State} (hs : Consistent s) (hseq : (s.ch a).seq ≠ .idle) :
    ∃ u v t, TickAt a s u v t ∧ step s = .next (advanceNow t) ∧ Consistent (advanceNow t) := by
  have hmem : a ∈ stepOrder s.cfg (thisInput s).order := (mem_stepOrder s.cfg _ a).mpr (hasIndex_of_running (hs.2 a) hseq)
  have hnodup := nodup_stepOrder s.cfg (thisInput s).order
  obtain ⟨earlier, later, horder⟩ := List.append_of_mem hmem
  rw [horder, List.nodup_append, List.nodup_cons] at hnodup
  obtain ⟨-, ⟨hlater, -⟩, hdisjoint⟩ := hnodup
  have hearlier : a ∉ earlier := fun h => hdisjoint a h a List.mem_cons_self rfl
  obtain ⟨u, hu, huc, hua⟩ := exists_enginePhase (consistent_beforeEngine hs) earlier
  obtain ⟨v, hv⟩ := exists_stepped huc a
  obtain ⟨t, ht, htc, hta⟩ := exists_enginePhase hv.consistent later
  refine ⟨u, v, t, ⟨?_, ?_, hv, keeps_enginePhase ht, hta a hlater⟩, ?_, htc⟩
  · exact (keeps_callerPhase (thisInput s) (afterEnvironment s)).trans (keeps_enginePhase hu)
  · exact (hua a hearlier).trans (ch_callerPhase (s := afterEnvironment s) hseq (thisInput s))
  · rw [step_eq, horder, enginePhase_append hu, enginePhase, hv.step]
    dsimp only
    rw [ht]
    rfl

theorem TickAt.cfg {a : Index} {s u v t : State} (h : TickAt a s u v t) : t.cfg = s.cfg :=
  h.after.cfg.trans (h.stepped.touches.cfg.trans h.before.cfg)

theorem run_succ {s t : State} (h : step s = .next t) (n : Nat) : core.run (n + 1) s = core.run n t := by
  have hcore : core.step s = .next t := h
  simp only [Host.Core.run, hcore]

/-! ### The bounded end of every operation (R262) -/

/-- A dispatcher state of an index never has more ticks left than a `Send` has. -/
theorem dspTicks_le {cfg : Config} {q : Seq} {d : Dsp} (h : dspOk cfg (currentSend cfg q) d = true) :
    dspTicks cfg d ≤ sendTicks cfg := by
  have hsend {cmd : Byte} {timeout : Nat} (hq : currentSend cfg q = some (cmd, timeout)) : timeout ≤ longestTimeout cfg := by
    cases q with
    | idle => cases hq
    | run i pc loc =>
      cases pc with
      | inSend => cases hq; exact timeout_le_longest i cfg .own
      | inRead => cases hq; exact timeout_le_longest i cfg .read
      | start | readDue | enableDue => cases hq
  cases d with
  | idle => exact le_rfl
  | settle cmd timeout rem =>
    simp only [dspOk, Bool.and_eq_true, decide_eq_true_eq] at h
    obtain ⟨⟨hq, -⟩, hrem⟩ := h
    have := hsend hq
    simp only [dspTicks, sendTicks]
    omega
  | await cmd timeout t =>
    simp only [dspOk, Bool.and_eq_true, decide_eq_true_eq] at h
    have := hsend h.1
    simp only [dspTicks, sendTicks]
    omega

/-- At most `enableAttempts` `Send`s follow the one an operation is at. -/
theorem sendsAfter_le {cfg : Config} {a : Index} {i : Instr} {pc : Pc} {loc : Locals}
    (h : seqOk cfg a (.run i pc loc) = true) : sendsAfter cfg loc pc ≤ cfg.enableAttempts := by
  cases pc with
  | start => exact le_rfl
  | inSend | enableDue => exact Nat.zero_le _
  | readDue | inRead =>
    simp only [seqOk, Bool.and_eq_true, decide_eq_true_eq] at h
    obtain ⟨⟨-, hlo⟩, hhi⟩ := h
    simp only [sendsAfter]
    omega

theorem ticksLeft_le {cfg : Config} {a : Index} {c : Channel} (h : channelOk cfg a c = true) :
    ticksLeft cfg c ≤ operationTicks cfg := by
  obtain ⟨-, hdsp, hok, -, -⟩ := (channelOk_iff cfg a c).mp h
  cases hseq : c.seq with
  | idle => rw [ticksLeft, hseq]; exact Nat.zero_le _
  | run i pc loc =>
    rw [ticksLeft_run hseq]
    calc dspTicks cfg c.dsp + sendsAfter cfg loc pc * sendTicks cfg
        ≤ sendTicks cfg + cfg.enableAttempts * sendTicks cfg :=
          Nat.add_le_add (dspTicks_le hdsp) (Nat.mul_le_mul_right _ (sendsAfter_le (hseq ▸ hok)))
      _ = operationTicks cfg := by rw [Nat.add_comm, ← Nat.succ_mul]; rfl

theorem ticksLeft_pos {cfg : Config} {a : Index} {c : Channel} (h : channelOk cfg a c = true) (hseq : c.seq ≠ .idle) :
    0 < ticksLeft cfg c := by
  obtain ⟨-, hdsp, -, -, -⟩ := (channelOk_iff cfg a c).mp h
  cases hq : c.seq with
  | idle => exact absurd hq hseq
  | run i pc loc =>
    rw [ticksLeft_run hq]
    exact Nat.add_pos_left (dspTicks_pos cfg hdsp) _

/-- An index is idle after at most the ticks left of its operation. -/
theorem ends_within (a : Index) (n : Nat) {s : State} (hs : Consistent s) (h : ticksLeft s.cfg (s.ch a) ≤ n) :
    ∃ k ≤ n, ∃ t : State, core.run k s = .next t ∧ (t.ch a).seq = .idle := by
  by_cases hseq : (s.ch a).seq = .idle
  · exact ⟨0, Nat.zero_le n, s, rfl, hseq⟩
  · induction n generalizing s with
    | zero => exact absurd (ticksLeft_pos (hs.2 a) hseq) (Nat.not_lt.mpr h)
    | succ n ih =>
      obtain ⟨u, v, t, htick, hstep, hcons⟩ := exists_tickAt hs hseq
      by_cases hidle : ((advanceNow t).ch a).seq = .idle
      · exact ⟨1, Nat.succ_pos n, _, run_succ hstep 0, hidle⟩
      · have hch : (advanceNow t).ch a = v.ch a := htick.ch_after
        have hless := (htick.stepped.progress (htick.ch_before ▸ hseq)).resolve_left (hch ▸ hidle)
        rw [htick.ch_before, htick.before.cfg, ← hch] at hless
        have hcfg : (advanceNow t).cfg = s.cfg := htick.cfg
        obtain ⟨k, hk, w, hrun, hend⟩ := ih hcons (hcfg ▸ Nat.le_of_lt_succ (hless.trans_le h)) hidle
        exact ⟨k + 1, Nat.succ_le_succ hk, w, (run_succ hstep k).trans hrun, hend⟩

/-- Settles O58: every step of a running operation leaves it fewer ticks, of at most the bound. -/
theorem everyOperationEnds : Obligations.EveryOperationEnds := by
  intro s a hs _
  exact ends_within a (operationTicks s.cfg) hs (ticksLeft_le (hs.2 a))

/-! ### The exact tick of a timeout (R147.3) -/

/-- The other indices bring no frame into the slot. -/
theorem slotMatches_of_keeps {a : Index} {s t : State} (h : Keeps s t) (hm : slotMatches a s = false) :
    slotMatches a t = false := by
  unfold slotMatches at hm ⊢
  rw [h.cfg]
  obtain hslot | hslot := h.rxSlot
  · rw [hslot]; exact hm
  · rw [hslot]

/-- Of `n + 1` ticks that bring no match, neither the first one does nor the `n` after it. -/
theorem noMatchArrives_succ {a : Index} {n : Nat} {s : State} (h : NoMatchArrives a (n + 1) s) :
    (∀ f ∈ (thisInput s).rx, matchesIndex s.cfg f a = false) ∧ NoMatchArrives a n (afterEnvironment s) := by
  simp only [NoMatchArrives, thisInput, afterEnvironment] at h ⊢
  cases hin : s.inputs with
  | nil => simp
  | cons inp rest =>
    rw [hin, List.take_succ_cons] at h
    exact ⟨h inp List.mem_cons_self, fun x hx => h x (List.mem_cons_of_mem inp hx)⟩

theorem slotMatches_afterEnvironment {a : Index} {s : State} (hm : slotMatches a s = false)
    (h : ∀ f ∈ (thisInput s).rx, matchesIndex s.cfg f a = false) : slotMatches a (afterEnvironment s) = false := by
  cases hrx : (thisInput s).rx with
  | none => simpa [slotMatches, afterEnvironment, slotAfter, hrx] using hm
  | some f => simpa [slotMatches, afterEnvironment, slotAfter, hrx] using h f hrx

/-- Index `a` is idle, and its timeout at tick `now` is delivered and logged. -/
def TimedOut (a : Index) (now : Nat) (u : State) : Prop :=
  ⟨now, (a.val : Int), .absent .timeout, true⟩ ∈ u.delivered ∧ ⟨now, a, .timeout⟩ ∈ u.diag
    ∧ (u.ch a).seq = .idle ∧ (u.ch a).pending = none

/-- The tick of the poll `t = T`. -/
theorem timedOut_of_tickAt {i : Instr} {loc : Locals} {cmd : Byte} {timeout : Nat} {s u v t : State}
    (htick : TickAt i.index s u v t) (hwait : Waiting i loc cmd timeout timeout u) (hm : slotMatches i.index u = false) :
    TimedOut i.index s.now (advanceNow t) := by
  obtain ⟨hbefore, -, hstepped, hafter, hch⟩ := htick
  have hnow : u.now = s.now := hbefore.now
  have hv := hstepped.step
  rw [indexStep_run hwait.1, lastUnmatchedPollTimesOut.2 u i loc cmd timeout timeout hwait hm le_rfl] at hv
  cases hv
  have hidle : t.ch i.index = endedChannel (.absent .timeout) (u.ch i.index) := hch.trans (by simp [ended, State.ch])
  refine ⟨hafter.delivered.subset ?_, hafter.diag.subset ?_, congrArg Channel.seq hidle, congrArg Channel.pending hidle⟩
  · simp [ended, deliveryOf, hnow]
  · simp [hnow]

/-- A tick before the poll `t = T`: the index goes on waiting, one tick later. -/
theorem waiting_of_tickAt {i : Instr} {loc : Locals} {cmd : Byte} {timeout n : Nat} {s u v t : State}
    (htick : TickAt i.index s u v t) (hwait : Waiting i loc cmd timeout n u) (hm : slotMatches i.index u = false)
    (hn : n < timeout) : Waiting i loc cmd timeout (n + 1) (advanceNow t) := by
  obtain ⟨-, -, hstepped, -, hch⟩ := htick
  have hv := hstepped.step
  rw [indexStep_run hwait.1, (unmatchedPollOnlyCounts u i loc cmd timeout n (.inl hm) hn).1 hwait] at hv
  cases hv
  have hmoved : t.ch i.index = { u.ch i.index with seq := .run i .inSend loc, dsp := .await cmd timeout (n + 1) } :=
    hch.trans (by simp [moved, State.ch])
  exact ⟨congrArg Channel.seq hmoved, congrArg Channel.dsp hmoved⟩

/-- A tick that brings a waiting index no match reaches it waiting, with no match in the slot. -/
theorem exists_tickAt_waiting {i : Instr} {loc : Locals} {cmd : Byte} {timeout t : Nat} {s : State} (hs : Consistent s)
    (hwait : Waiting i loc cmd timeout t s) (hm : slotMatches i.index s = false)
    (hrx : ∀ f ∈ (thisInput s).rx, matchesIndex s.cfg f i.index = false) :
    ∃ u v w, TickAt i.index s u v w ∧ step s = .next (advanceNow w) ∧ Consistent (advanceNow w)
      ∧ Waiting i loc cmd timeout t u ∧ slotMatches i.index u = false := by
  obtain ⟨u, v, w, htick, hstep, hcons⟩ := exists_tickAt hs (by rw [hwait.1]; nofun)
  refine ⟨u, v, w, htick, hstep, hcons, ?_, slotMatches_of_keeps htick.before (slotMatches_afterEnvironment hm hrx)⟩
  rw [Waiting, htick.ch_before]
  exact hwait

/-- An operation that waits for `n` more ticks times out in the tick after them. -/
theorem timesOut_after {i : Instr} {loc : Locals} {cmd : Byte} (n : Nat) {t : Nat} {s : State} (hs : Consistent s)
    (hwait : Waiting i loc cmd (t + n) t s) (hm : slotMatches i.index s = false) (harrives : NoMatchArrives i.index (n + 1) s) :
    ∃ u : State, core.run (n + 1) s = .next u ∧ TimedOut i.index (s.now + n) u := by
  induction n generalizing s t with
  | zero =>
    obtain ⟨u, v, w, htick, hstep, -, hwait', hm'⟩ := exists_tickAt_waiting hs hwait hm (noMatchArrives_succ harrives).1
    exact ⟨_, run_succ hstep 0, timedOut_of_tickAt htick hwait' hm'⟩
  | succ n ih =>
    obtain ⟨hthis, hlater⟩ := noMatchArrives_succ harrives
    obtain ⟨u, v, w, htick, hstep, hcons, hwait', hm'⟩ := exists_tickAt_waiting hs hwait hm hthis
    have hkeeps : Keeps u w := (keeps_of_touches htick.stepped.touches).trans htick.after
    have hnext : Waiting i loc cmd (t + (n + 1)) (t + 1) (advanceNow w) := waiting_of_tickAt htick hwait' hm' (by omega)
    have hnow : (advanceNow w).now = s.now + 1 := congrArg (· + 1) (hkeeps.now.trans htick.before.now)
    have hlater' : NoMatchArrives i.index (n + 1) (advanceNow w) := by
      have hinputs : w.inputs = s.inputs.drop 1 := hkeeps.inputs.trans htick.before.inputs
      have hcfg : w.cfg = s.cfg := htick.cfg
      simpa only [NoMatchArrives, advanceNow, afterEnvironment, hinputs, hcfg] using hlater
    rw [show t + (n + 1) = t + 1 + n by omega] at hnext
    have hslot : slotMatches i.index w = false := slotMatches_of_keeps hkeeps hm'
    obtain ⟨x, hrun, hend⟩ := ih hcons hnext hslot hlater'
    rw [hnow, Nat.add_assoc, Nat.add_comm 1 n] at hend
    exact ⟨x, (run_succ hstep _).trans hrun, hend⟩

/-- Settles O57: in a consistent state the polls left are those up to `T`, and each of them counts one tick but the last. -/
theorem unansweredSendTimesOutOnTime : Obligations.UnansweredSendTimesOutOnTime := by
  intro s i loc cmd timeout t hs hwait hm harrives
  have hle : t ≤ timeout := by
    obtain ⟨-, hdsp, -⟩ := (channelOk_iff s.cfg i.index (s.ch i.index)).mp (hs.2 i.index)
    rw [hwait.2] at hdsp
    simp only [dspOk, Bool.and_eq_true, decide_eq_true_eq] at hdsp
    exact hdsp.2
  rw [← Nat.add_sub_cancel' hle] at hwait
  exact timesOut_after (timeout - t) hs hwait hm harrives

end Sys2Proof.Proofs.Runs
end

section
/-! PROOF of the statement about the order of two indices inside a `Send` (20_memory.md R63): their steps are patches that write
no request, and neither sees the other's. -/

namespace Sys2Proof.Proofs.Order

open Sys2Proof Sys2Proof.Machine Sys2Proof.Safety Sys2Proof.Proofs.Dispatcher Sys2Proof.Proofs.Operation
open Sys2Proof.Proofs.Locality Sys2Proof.Proofs.Ports Sys2Proof.Proofs.Invariant

/-- A patch without a request that clears the slot of state `s` only where index `a` matches it. -/
def Quiet (a : Index) (s : State) (p : Patch) : Prop :=
  p.tx = [] ∧ (p.cleared = true → slotMatches a s = true)

/-- The step of an index inside a `Send` is one quiet patch, in every state the index cannot tell apart. -/
theorem indexStep_quiet {a : Index} {s s' t : State} (hs : Consistent s) (hdsp : (s.ch a).dsp ≠ .idle)
    (hsame : Same a s s') (ht : indexStep a s = .next t) :
    ∃ p : Patch, t = p.apply a s ∧ indexStep a s' = .next (p.apply a s') ∧ Quiet a s p := by
  obtain ⟨-, hok, hseqOk, -, -⟩ := (channelOk_iff s.cfg a (s.ch a)).mp (hs.2 a)
  cases hseq : (s.ch a).seq with
  | idle => rw [hseq] at hok; exact absurd (dsp_idle_of_no_send hok) hdsp
  | run i pc loc =>
    obtain rfl : i.index = a := index_of_seqOk (hseq ▸ hseqOk)
    have hbegins : begins i pc = false := by
      by_contra hb
      rw [Bool.not_eq_false] at hb
      have hidle := dsp_of_channelOk (hs.2 i.index) hseq
      rw [if_pos hb] at hidle
      exact hdsp hidle.2
    rw [indexStep_run hseq, exec_run hseq] at ht
    obtain ⟨t', ht', p, rfl, rfl, hc, htx⟩ := moves_execAt (w := False) hsame (by rw [hbegins]; nofun) ht
    have hquiet : p.tx = [] := by_contra htx
    have hseq' : (s'.ch i.index).seq = .run i pc loc := hsame.ch ▸ hseq
    refine ⟨p, rfl, by rw [indexStep_run hseq', exec_run hseq', ht'], hquiet, fun hcl => ?_⟩
    exact (hc hcl).resolve_right fun h => h.1 hquiet

/-- A slot that one index matches no other index does (R145). -/
theorem slotMatches_other {a b : Index} {s : State} (hab : a ≠ b) (h : slotMatches a s = true) : slotMatches b s = false := by
  unfold slotMatches at h ⊢
  split at h
  · cases h
  · next f _ =>
    by_contra hb
    exact hab (frameMatchesAtMostOneIndex s.cfg f a b h (Bool.not_eq_false _ ▸ hb))

/-- An index cannot tell a state from the one after another index's quiet patch. -/
theorem same_of_quiet {a b : Index} {s : State} {p : Patch} (hab : a ≠ b) (hp : Quiet a s p) : Same b s (p.apply a s) := by
  refine ⟨rfl, rfl, rfl, ch_setCh_ne s p.chan hab.symm, ?_⟩
  rw [Patch.seen_apply]
  split
  · next hc => exact (seen_eq_none.mpr (slotMatches_other hab (hp.2 hc))).symm
  · rfl

/-- Quiet patches of two indices lead to the same state in either order, but for the order of the entries they append. -/
theorem apply_comm {a b : Index} {p q : Patch} (hab : a ≠ b) (hp : p.tx = []) (hq : q.tx = []) (s : State) :
    { q.apply b (p.apply a s) with
      diag := (p.apply a (q.apply b s)).diag, delivered := (p.apply a (q.apply b s)).delivered } = p.apply a (q.apply b s) := by
  have hval : a.val ≠ b.val := fun h => hab (Fin.ext h)
  have hslot : (if q.cleared then none else if p.cleared then none else s.rxSlot)
      = if p.cleared then none else if q.cleared then none else s.rxSlot := by
    cases p.cleared <;> cases q.cleared <;> rfl
  simp only [Patch.apply, hp, hq, List.append_nil, hslot, Bool.or_right_comm, Vector.set_comm _ _ hval]

/-- What two patches append in either order is the same entries. -/
theorem append_perm {α : Type} (xs ys zs : List α) : (xs ++ ys ++ zs).Perm (xs ++ zs ++ ys) := by
  rw [List.append_assoc, List.append_assoc]
  exact List.perm_append_comm.append_left xs

/-- Settles O53: the steps are quiet patches, and each index makes the same one after the other's. -/
theorem pollingIndicesCommute : Obligations.PollingIndicesCommute := by
  intro s s1 s12 s2 s21 a b hab hs ha hb h1 h12 h2 h21
  obtain ⟨p, rfl, -, hp⟩ := indexStep_quiet hs ha (Same.refl a s) h1
  obtain ⟨q, rfl, hq12, hq⟩ := indexStep_quiet hs hb (same_of_quiet hab hp) h2
  obtain ⟨p', heq, hp21, hp'⟩ := indexStep_quiet hs ha (same_of_quiet hab.symm hq) h1
  rw [hq12] at h12
  cases h12
  rw [hp21] at h21
  cases h21
  rw [heq]
  exact ⟨apply_comm hab hp'.1 hq.1 s, append_perm _ _ _, append_perm _ _ _⟩

end Sys2Proof.Proofs.Order
end
